-- ==== Sys2Proof/Word.lean ====
section
/-! DEFINITION. The word of MMP: one limb, one register, one command word (rules R6, R8, R90). -/

namespace Sys2Proof

/-- The 32-bit word: a limb, a scalar register, a descriptor register or a command word (R6, R8). -/
abbrev Word := BitVec 32

/-- The number of one of the scalar registers `X0` .. `X7` (R24). -/
abbrev XReg := Fin 8

/-- The number of one of the slice descriptor registers `SD0` .. `SD7` (R25). -/
abbrev SReg := Fin 8

end Sys2Proof
end

