-- ==== Sys2Proof/Config.lean ====
section
/-! DEFINITION. What an implementation of MMP fixes (the OPEN parameters of rule R6) and the free values. -/

namespace Sys2Proof

/-- The OPEN parameters of rule R6 on which a result can depend.
They are fixed for one block: no step changes them (log entry 2). -/
structure Params where
  /-- `LM_WORDS`, the number of limbs of the limb memory. -/
  lmWords : Nat
  /-- `KMAX`, the longest modulus the context holds. -/
  kmax : Nat
  deriving DecidableEq, Repr

/-- The ranges rule R6 gives the parameters. -/
def Params.legal (p : Params) : Bool :=
  decide (1 ≤ p.lmWords) && decide (p.lmWords ≤ 65536) && decide (1 ≤ p.kmax) && decide (p.kmax ≤ 32767)

/-- The reference values of rule R6 (D2, D14). -/
def Params.reference : Params := { lmWords := 4096, kmax := 128 }

/-- The free values (log entry 3): word `i` of the `d`-th group of words the spec leaves `unspecified`.
It has no body, so nothing can be proved about what it returns; every place of the model that needs an unspecified
word takes it from here, under a draw number used nowhere else. -/
opaque Config.freeWord (d i : Nat) : Word

/-- The window width `WIN` of rule R6, in bits. -/
def Config.win : Nat := 4

end Sys2Proof
end

