-- ==== Sys2Proof/Machine/Limbs.lean ====
section
/-! DEFINITION. Limb arrays as lists of words, least significant first, and the arithmetic on them that the command rules
share: predicates (R9), masks (R11), ripples (R123), multiply loops (R132, R135, R138), reciprocal (R142), residues. -/

namespace Sys2Proof.Machine

/-- `val(A)` of rule R8: the integer a limb array stands for. -/
def val : List Word → Nat
  | [] => 0
  | l :: ls => l.toNat + 2 ^ 32 * val ls

/-- `limbs_n(v)` of rule R8: the array of length `n` whose value is `v mod 2^(32n)`. -/
def limbs : Nat → Nat → List Word
  | 0, _ => []
  | n + 1, v => BitVec.ofNat 32 v :: limbs n (v / 2 ^ 32)

/-- `odd(A)` of rule R9. -/
def isOdd (a : List Word) : Bool := (a.headD 0).getLsbD 0

/-- `normlimb(d)` of rule R9: bit 31 is set. -/
def normLimb (d : Word) : Bool := d.getLsbD 31

/-- `normalized(A)` of rule R9: bit 31 of the top limb is set. -/
def normalized (a : List Word) : Bool := normLimb (a.getLastD 0)

/-- `validmod(A)` of rule R9. -/
def validMod (a : List Word) : Bool := decide (1 ≤ a.length) && isOdd a && normalized a

/-- The all-one mask (R11). -/
def allOnes : Word := 0xFFFFFFFF

/-- `validmask(k)` of rule R9. -/
def validMask (k : Word) : Bool := decide (k = 0) || decide (k = allOnes)

/-- `maskof(c)` of rule R11. -/
def maskOf (c : Bool) : Word := if c then allOnes else 0

/-- `bsel(k, a, b)` of rule R11. -/
def bsel (k a b : Word) : Word := (a &&& k) ||| (b &&& ~~~k)

/-- `ripple_add` of rule R123 with mask `k` and carry in `c`: the sum array and the carry out. -/
def rippleAdd (k : Word) : List Word → List Word → Nat → List Word × Nat
  | a :: as, b :: bs, c =>
    let t := a.toNat + (b &&& k).toNat + c
    let r := rippleAdd k as bs (t / 2 ^ 32)
    (BitVec.ofNat 32 t :: r.1, r.2)
  | _, _, c => ([], c)

/-- `ripple_sub` of rule R123 with mask `k` and borrow in `w`: the difference array and the borrow out. -/
def rippleSub (k : Word) : List Word → List Word → Nat → List Word × Nat
  | a :: as, b :: bs, w =>
    let t : Int := (a.toNat : Int) - ((b &&& k).toNat : Int) - (w : Int)
    let r := rippleSub k as bs (if t < 0 then 1 else 0)
    (BitVec.ofInt 32 t :: r.1, r.2)
  | _, _, w => ([], w)

/-- The two running borrows of rule R122, of `a - b` (`lt`) and of `b - a` (`gt`), over every limb. -/
def compareLoop : List Word → List Word → Nat → Nat → Nat × Nat
  | a :: as, b :: bs, lt, gt =>
    compareLoop as bs
      (if (a.toNat : Int) - (b.toNat : Int) - (lt : Int) < 0 then 1 else 0)
      (if (b.toNat : Int) - (a.toNat : Int) - (gt : Int) < 0 then 1 else 0)
  | _, _, lt, gt => (lt, gt)

/-- The loop of rule R135, `aug + mc * l` with carry in `c`: the array and the overflow limb. -/
def mulAddLoop (l : Word) : List Word → List Word → Nat → List Word × Nat
  | a :: as, m :: ms, c =>
    let t := a.toNat + m.toNat * l.toNat + c
    let r := mulAddLoop l as ms (t / 2 ^ 32)
    (BitVec.ofNat 32 t :: r.1, r.2)
  | _, _, c => ([], c)

/-- The loop of rule R138, `min - mc * l` with the combined carry and borrow `c` kept as a magnitude. -/
def mulSubLoop (l : Word) : List Word → List Word → Int → List Word × Int
  | a :: as, m :: ms, c =>
    let t : Int := (a.toNat : Int) - (m.toNat : Int) * (l.toNat : Int) - c
    let r := mulSubLoop l as ms (-(t / 2 ^ 32))
    (BitVec.ofInt 32 t :: r.1, r.2)
  | _, _, c => ([], c)

/-- One round of rule R132's inner loop: add `a * bj` into the result limbs from position `j` on, then write the carry. -/
def mulRow (bj : Word) : List Word → List Word → Nat → List Word
  | a :: as, r :: rs, c =>
    let t := r.toNat + a.toNat * bj.toNat + c
    BitVec.ofNat 32 t :: mulRow bj as rs (t / 2 ^ 32)
  | [], _ :: rs, c => BitVec.ofNat 32 c :: rs
  | _, [], _ => []

/-- Rule R132's outer loop: one row a limb of `b`, each one position higher, on result limbs `r`. -/
def schoolbook (a : List Word) : List Word → List Word → List Word
  | b :: bs, r =>
    match mulRow b a r 0 with
    | [] => []
    | r0 :: rs => r0 :: schoolbook a bs rs
  | [], r => r

/-- `invert(d)` of rule R142, `floor((2^64-1)/d) - 2^32`. -/
def invert (d : Word) : Word := BitVec.ofNat 32 ((2 ^ 64 - 1) / d.toNat - 2 ^ 32)

/-- The low `n` bits of the `w` with `m * w = -1` modulo `2^n`, found one bit at a time. -/
def negInvBits (m : Nat) : Nat → Nat
  | 0 => 0
  | n + 1 => negInvBits m n + 2 ^ n * ((m * negInvBits m n + 1) / 2 ^ n % 2)

/-- `NINV` of rules R172 and R173: the `w` with `(m0 * w) mod 2^32 = 0xFFFFFFFF`, for odd `m0`. -/
def negInverse (m0 : Word) : Word := BitVec.ofNat 32 (negInvBits m0.toNat 32)

/-- `b^e mod m` for `e < 2^n`, by the bits of `e` from the top. -/
def modPow (b m : Nat) : Nat → Nat → Nat
  | 0, _ => 1 % m
  | n + 1, e => modPow b m n (e / 2) ^ 2 * b ^ (e % 2) % m

/-- `R = 2^(32*K)`. -/
def bigR (k : Nat) : Nat := 2 ^ (32 * k)

/-- `Rinv`, the inverse of `R = 2^(32*K)` modulo the odd `M`: the inverse of 2 is `(M+1)/2`. -/
def bigRinv (k m : Nat) : Nat := modPow ((m + 1) / 2) m (32 * k) (32 * k)

/-- `v * R mod M` (R176). -/
def toMont (k m v : Nat) : Nat := v * bigR k % m

/-- `T * Rinv mod M` (R180). -/
def redc (k m t : Nat) : Nat := t * bigRinv k m % m

/-- `a * b * Rinv mod M` (R184). -/
def montMul (k m a b : Nat) : Nat := a * b * bigRinv k m % m

/-- The identity `R - M` (R192). -/
def montIdentity (k m : Nat) : Nat := bigR k - m

/-- Rows `i`, `i+1`, … of rule R196's loop, `n` of them, from row `i-1` (`prev`) and row 1 (`one`). -/
def powersFrom (k m one : Nat) : Nat → Nat → List Nat
  | 0, _ => []
  | n + 1, prev => montMul k m prev one :: powersFrom k m one n (montMul k m prev one)

/-- The values of the `rows` rows MPOWERS writes (R196). -/
def montPowers (k m base : Nat) : Nat → List Nat
  | 0 => []
  | 1 => [montIdentity k m]
  | n + 2 => montIdentity k m :: toMont k m base :: powersFrom k m (toMont k m base) n (toMont k m base)

/-- Rule R200's loop from row number `i` on, over every row: OR each row, masked, into `acc`. -/
def selectLoop (idx : Word) : Nat → List (List Word) → List Word → List Word
  | _, [], acc => acc
  | i, row :: rows, acc =>
    selectLoop idx (i + 1) rows (List.zipWith (fun r t => r ||| (t &&& maskOf (decide (i = idx.toNat)))) acc row)

end Sys2Proof.Machine
end

