-- ==== Sys2Proof/Machine/State.lean ====
section
/-! DEFINITION. The state of MMP as plain data (rules R21 to R41), the reasons a step can stop, and the state after reset. -/

namespace Sys2Proof.Machine

/-- The error codes of rule R221, and no other (V2). -/
inductive ErrCode where
  /-- 0, `ERR_NONE`. -/
  | none
  /-- 1, `ERR_ILLEGAL` (R224). -/
  | illegal
  /-- 2, `ERR_NOCTX` (R225). -/
  | noctx
  /-- 3, `ERR_LEN` (R226). -/
  | len
  /-- 4, `ERR_RANGE` (R227). -/
  | range
  /-- 5, `ERR_MOD_EMPTY` (R228). -/
  | modEmpty
  /-- 6, `ERR_MOD_EVEN` (R228). -/
  | modEven
  /-- 7, `ERR_MOD_UNNORM` (R228). -/
  | modUnnorm
  deriving DecidableEq, Repr

/-- `CTX.STATE` (R36). -/
inductive CtxState where
  | uninit
  | ready
  deriving DecidableEq, Repr

/-- A memory of words: `LM` (R30) and the context's memories (R35, R38, R39).
`cells` lists the words that have been written, by rising address.
A word that is not listed holds the free value of draw `draw` at its address (U15: any value, fixed until written; log entries 1 and 5). -/
structure Memory where
  cells : List (Nat × Word)
  draw : Nat
  deriving DecidableEq, Repr

/-- The Montgomery Modulus Context (R35 to R39). -/
structure Context where
  /-- `CTX.STATE` (R36); `STATUS.CTX_READY` is a view of it (R31). -/
  state : CtxState
  /-- `CTX.K`, the modulus length in limbs. -/
  k : Nat
  /-- `CTX.M`, the context's own copy of the modulus. -/
  m : Memory
  /-- `CTX.MS`, the modulus shifted left by 16 bits. -/
  ms : Memory
  /-- `CTX.DINV`, the reciprocal of the modulus's top limb. -/
  dinv : Word
  /-- `CTX.NINV`, the Montgomery negative inverse. -/
  ninv : Word
  /-- `CTX.SCRATCH` (R38). -/
  scratch : Memory
  /-- `CTX.TABLE` (R39), row `i` at words `i*K` .. `i*K+K-1`. -/
  table : Memory
  deriving DecidableEq, Repr

/-- What the world outside can do next: the four host transactions of rule R23, the poll `wait` of rule R100, and the
reset input of rule R260 (log entry 4). -/
inductive HostOp where
  /-- `HostRegRead(off)`. -/
  | regRead (off : Fin 32)
  /-- `HostRegWrite(off, v)`. -/
  | regWrite (off : Fin 32) (v : Word)
  /-- `HostLMRead(a)`. -/
  | lmRead (a : Nat)
  /-- `HostLMWrite(a, v)`. -/
  | lmWrite (a : Nat) (v : Word)
  /-- Repeat `HostRegRead(0x01)` until `BUSY` reads 0. -/
  | wait
  /-- The reset input. -/
  | reset
  deriving DecidableEq, Repr

/-- The state of MMP (R21), with what a model needs beside it: the fixed parameters, the host's coming transactions, the
datum the host last read, and the count of free values drawn (log entries 2 to 4, 6, 7, 9, 14). -/
structure State where
  /-- The fixed parameters of the block (R6). -/
  params : Params
  /-- `LM` (R30). -/
  lm : Memory
  /-- `X0` .. `X7` (R24). -/
  x : Vector Word 8
  /-- `SD0` .. `SD7` (R25), all 32 bits as written. -/
  sd : Vector Word 8
  /-- `STATUS.BUSY` (R22, R31). -/
  busy : Bool
  /-- `STATUS.ERR` (R31). -/
  err : ErrCode
  /-- The modulus context (R35). -/
  ctx : Context
  /-- The command word in flight, sampled when it was written to CMD (R22, R32). -/
  cmd : Word
  /-- Set when the host has broken rule R266 against the command in flight by writing LM or an `X` register.
  The number is the draw the unspecified outcome is taken from (log entry 7). -/
  disturbance : Option Nat
  /-- Descriptor writes made while BUSY, oldest first: they reach `SD` when the command in flight has ended (R266,
  log entry 9). -/
  sdLate : List (SReg × Word)
  /-- The word the host's most recent read transaction returned (R23, log entry 6). -/
  hostData : Option Word
  /-- The host's coming transactions, next first (R21: a parameter of a run). -/
  input : List HostOp
  /-- The number of free values drawn so far. -/
  draws : Nat
  deriving DecidableEq, Repr

/-- Why the machine stops. -/
inductive Fault where
  /-- Raised by `HostLMRead` and `HostLMWrite` at a word address outside LM: "the block does not respond to them" (R23, U14).
  Safe: the run ends, and no claim is made about what comes after (log entry 11). -/
  | hostOutsideLM (a : Nat)
  deriving DecidableEq, Repr

/-- Why the model gives no meaning. -/
inductive Refusal where
  /-- Raised by no arm of `exec` (every command has its meaning); the name is the host's.
  Safe: nothing is claimed of an instruction refused so. -/
  | notModelled (mnemonic : String)
  deriving DecidableEq, Repr

/-- A memory whose every word is unspecified, its free values taken from draw `d`. -/
def Memory.unspecified (d : Nat) : Memory := { cells := [], draw := d }

/-- A block with parameters `p` right after reset (R41, R260): registers zero, engine IDLE, context UNINIT, every memory
unspecified. -/
def State.resetWith (p : Params) : State where
  params := p
  lm := Memory.unspecified 0
  x := Vector.replicate 8 0
  sd := Vector.replicate 8 0
  busy := false
  err := .none
  ctx :=
    { state := .uninit
      k := 0
      m := Memory.unspecified 1
      ms := Memory.unspecified 2
      dinv := 0
      ninv := 0
      scratch := Memory.unspecified 3
      table := Memory.unspecified 4 }
  cmd := 0
  disturbance := Option.none
  sdLate := []
  hostData := Option.none
  input := []
  draws := 5

/-- The machine right after reset, with rule R6's reference parameters (log entry 2). -/
def State.reset : State := State.resetWith Params.reference

end Sys2Proof.Machine
end

