-- ==== Sys2Proof/Machine/Memory.lean ====
section
/-! DEFINITION. Reading and writing a memory of words (R12, R30, R64, R65): `LM` and the context's memories. -/

namespace Sys2Proof.Machine

/-- The word listed at address `a`, if one is. -/
def lookupCell : List (Nat × Word) → Nat → Option Word
  | [], _ => none
  | (b, v) :: cs, a => if a = b then some v else lookupCell cs a

/-- The list with `v` at address `a`, kept by rising address. -/
def insertCell (a : Nat) (v : Word) : List (Nat × Word) → List (Nat × Word)
  | [] => [(a, v)]
  | (b, w) :: cs =>
    if a < b then (a, v) :: (b, w) :: cs
    else if a = b then (a, v) :: cs
    else (b, w) :: insertCell a v cs

/-- The cells lie at strictly rising addresses, all of them above `lo` where it is given. -/
def risingFrom : Option Nat → List (Nat × Word) → Bool
  | _, [] => true
  | none, (b, _) :: cs => risingFrom (some b) cs
  | some lo, (b, _) :: cs => decide (lo < b) && risingFrom (some b) cs

/-- The canonical form: strictly rising addresses.
No listed word can equal "what an unlisted word reads as", since that is a free value. -/
def Memory.wf (m : Memory) : Bool := risingFrom none m.cells

/-- `MemRead(a, 1)[0]` (R12): the word last written at `a`, else the free value the memory woke up with (U15). -/
def Memory.read (m : Memory) (a : Nat) : Word := (lookupCell m.cells a).getD (Config.freeWord m.draw a)

/-- `MemWrite(a, 1, [v])` (R12). -/
def Memory.write (m : Memory) (a : Nat) (v : Word) : Memory := { m with cells := insertCell a v m.cells }

/-- `MemRead(a, n)` (R12). -/
def Memory.readLimbs (m : Memory) (a : Nat) : Nat → List Word
  | 0 => []
  | n + 1 => m.read a :: m.readLimbs (a + 1) n

/-- `MemWrite(a, len(v), v)` (R12), limb by limb upward. -/
def Memory.writeLimbs (m : Memory) (a : Nat) : List Word → Memory
  | [] => m
  | v :: vs => (m.write a v).writeLimbs (a + 1) vs

end Sys2Proof.Machine
end

