-- ==== Sys2Proof/Machine/Ops.lean ====
section
/-! DEFINITION. The named operations on the state: registers, free values, outputs, and how a command begins and ends. -/

namespace Sys2Proof.Machine

/-! ## Registers (R24, R25) -/

/-- `X[r]`. -/
def State.getX (s : State) (r : XReg) : Word := s.x[r.val]

/-- `X[r] <- v`. -/
def State.setX (s : State) (r : XReg) (v : Word) : State := { s with x := s.x.set r.val v }

/-- The descriptor register `SD[r]`, as written. -/
def State.getSD (s : State) (r : SReg) : Word := s.sd[r.val]

/-- `SD[r] <- v`; only the host does this (R25). -/
def State.setSD (s : State) (r : SReg) (v : Word) : State := { s with sd := s.sd.set r.val v }

/-! ## Free values (log entry 3) -/

/-- `n` unspecified words, those of the next draw. -/
def State.freeLimbs (s : State) (n : Nat) : List Word := (List.range n).map (Config.freeWord s.draws)

/-- One unspecified word, of the next draw. -/
def State.freeX (s : State) : Word := Config.freeWord s.draws 0

/-- Count a draw as used. -/
def State.drawn (s : State) : State := { s with draws := s.draws + 1 }

/-! ## Outputs of a command (R22, R222, R270) -/

/-- `MemWrite` on LM. -/
def State.writeLM (s : State) (base : Nat) (v : List Word) : State := { s with lm := s.lm.writeLimbs base v }

/-- The slice output of a command: the value its rule gives where the contract holds, else unspecified words (R233). -/
def State.outLM (s : State) (ok : Bool) (base len : Nat) (v : List Word) : State :=
  if ok then s.writeLM base v else (s.writeLM base (s.freeLimbs len)).drawn

/-- The `X` output of a command: the value its rule gives where the contract holds, else an unspecified word (R233). -/
def State.outX (s : State) (ok : Bool) (r : XReg) (v : Word) : State :=
  if ok then s.setX r v else (s.setX r s.freeX).drawn

/-- `CTX.SCRATCH` after a context command: every word unspecified (R38, R170, U16). -/
def State.spoilScratch (s : State) : State :=
  { s with ctx := { s.ctx with scratch := Memory.unspecified s.draws } }.drawn

/-- `CTX.TABLE` after POWMOD: every word unspecified (R39, U16). -/
def State.spoilTable (s : State) : State :=
  { s with ctx := { s.ctx with table := Memory.unspecified s.draws } }.drawn

/-- A value condition of a command's contract, in the state it runs in: it counts only while the host has kept rule R266. -/
def State.inContract (s : State) (p : Bool) : Bool := p && s.disturbance.isNone

/-! ## Beginning and end of a command (R22, R222) -/

/-- A write to CMD while IDLE: `BUSY <- 1`, `ERR <- 0`, the word is sampled (R22, R32). -/
def State.issue (s : State) (w : Word) : State :=
  { s with busy := true, err := .none, cmd := w, disturbance := none }

/-- `raise <code>` (R222): `ERR <- code`, `BUSY <- 0`, and nothing else the spec names. -/
def State.raise (s : State) (e : ErrCode) : State := { s with err := e, busy := false, disturbance := none }

/-- The end of a command that succeeded (R22): `ERR <- 0`, `BUSY <- 0`. -/
def State.succeed (s : State) : State := s.raise .none

/-- A command as one transition (R22, R222): with an error found, the error and nothing else; else all of its effect. -/
def State.command (s : State) (found : Option ErrCode) (effect : State) : Host.Outcome State Fault Refusal :=
  match found with
  | some e => .next (s.raise e)
  | none => .next effect.succeed

/-- Descriptor writes the host made while BUSY take effect "for later commands" (R266). -/
def State.settleSD (s : State) : State :=
  { s.sdLate.foldl (fun t p => t.setSD p.1 p.2) s with sdLate := [] }

/-- What `step` adds around a command: the descriptor writes that waited for its end. -/
def settle : Host.Outcome State Fault Refusal → Host.Outcome State Fault Refusal
  | .next t => .next t.settleSD
  | .fault r => .fault r
  | .refused r => .refused r

end Sys2Proof.Machine
end

