-- ==== Sys2Proof/Syntax.lean ====
section
/-! DEFINITION. The 20 commands of rule R92, one constructor each, with the register fields of rule R93. -/

namespace Sys2Proof

/-- One command of MMP, its fields in the order A, B, C, D, E, F of rule R93. -/
inductive Instr where
  /-- `CMP xA, sB, sC` (R122). -/
  | cmp (a : XReg) (b c : SReg)
  /-- `ADD xA, sB, sC` (R124). -/
  | add (a : XReg) (b c : SReg)
  /-- `SUB xA, sB, sC` (R126). -/
  | sub (a : XReg) (b c : SReg)
  /-- `MASKADD xA, sB, sC, xD` (R128). -/
  | maskadd (a : XReg) (b c : SReg) (d : XReg)
  /-- `MASKSUB xA, sB, sC, xD` (R130). -/
  | masksub (a : XReg) (b c : SReg) (d : XReg)
  /-- `MUL sA, sB, sC` (R132). -/
  | mul (a b c : SReg)
  /-- `MULADD xA, sB, sC, xD` (R135). -/
  | muladd (a : XReg) (b c : SReg) (d : XReg)
  /-- `MULSUB xA, sB, sC, xD` (R138). -/
  | mulsub (a : XReg) (b c : SReg) (d : XReg)
  /-- `INV xA, xB` (R142). -/
  | inv (a b : XReg)
  /-- `DIV xA, xB, xC, xD, xE, xF` (R145). -/
  | div (a b c d e f : XReg)
  /-- `REDUCE sA, sB` (R161). -/
  | reduce (a b : SReg)
  /-- `CTXINIT sA` (R172). -/
  | ctxinit (a : SReg)
  /-- `MTRANS sA, sB` (R176). -/
  | mtrans (a b : SReg)
  /-- `MREDC sA` (R180). -/
  | mredc (a : SReg)
  /-- `MULRED sA, sB, sC` (R184). -/
  | mulred (a b c : SReg)
  /-- `SQRRED sA, sB` (R188). -/
  | sqrred (a b : SReg)
  /-- `MIDENT sA` (R192). -/
  | mident (a : SReg)
  /-- `MPOWERS sA, sB` (R196). -/
  | mpowers (a b : SReg)
  /-- `SELECT sA, sB, xC` (R200). -/
  | select (a b : SReg) (c : XReg)
  /-- `POWMOD sA, sB, sC` (R212). -/
  | powmod (a b c : SReg)
  deriving DecidableEq, Repr

end Sys2Proof
end

