-- ==== Sys2Proof/Machine/Operands.lean ====
section
/-! DEFINITION. The one addressing mode, the slice (R10, R67), which slices each command names (R68), the checks every
command shares in their order (R223), and the aliasing conditions (R268). -/

namespace Sys2Proof.Machine

/-- A slice of LM (R10). -/
structure Slice where
  base : Nat
  len : Nat
  deriving DecidableEq, Repr

/-- The slice a descriptor word denotes: `LEN[31:16]`, `BASE[15:0]` (R25). -/
def sliceOfWord (w : Word) : Slice := { base := w.toNat % 2 ^ 16, len := w.toNat / 2 ^ 16 }

/-- The slice a field that names `SD[r]` denotes (R25, R67). -/
def State.slice (s : State) (r : SReg) : Slice := sliceOfWord (s.getSD r)

/-- The limb array a slice holds (R10). -/
def State.limbsAt (s : State) (S : Slice) : List Word := s.lm.readLimbs S.base S.len

/-- Identical slices (R10). -/
def Slice.identical (S T : Slice) : Bool := decide (S.base = T.base) && decide (S.len = T.len)

/-- Disjoint slices: their address ranges share no word (R10). -/
def Slice.disjoint (S T : Slice) : Bool :=
  decide (S.base + S.len ≤ T.base) || decide (T.base + T.len ≤ S.base) || decide (S.len = 0) || decide (T.len = 0)

/-- The general rule of R268: identical or disjoint. -/
def Slice.unmixed (S T : Slice) : Bool := S.identical T || S.disjoint T

/-- The slice lies inside LM, the sum taken without wrap-around (R64, R227). -/
def State.inLM (s : State) (S : Slice) : Bool := decide (S.base + S.len ≤ s.params.lmWords)

/-- The slice fields of a command, in the order A, B, C (R93). -/
def sliceFields : Instr → List SReg
  | .cmp _ b c => [b, c]
  | .add _ b c => [b, c]
  | .sub _ b c => [b, c]
  | .maskadd _ b c _ => [b, c]
  | .masksub _ b c _ => [b, c]
  | .mul a b c => [a, b, c]
  | .muladd _ b c _ => [b, c]
  | .mulsub _ b c _ => [b, c]
  | .inv _ _ => []
  | .div _ _ _ _ _ _ => []
  | .reduce a b => [a, b]
  | .ctxinit a => [a]
  | .mtrans a b => [a, b]
  | .mredc a => [a]
  | .mulred a b c => [a, b, c]
  | .sqrred a b => [a, b]
  | .mident a => [a]
  | .mpowers a b => [a, b]
  | .select a b _ => [a, b]
  | .powmod a b c => [a, b, c]

/-- The slices a command writes: the "slices written" column of rule R68. -/
def writtenFields : Instr → List SReg
  | .cmp _ _ _ => []
  | .add _ b _ => [b]
  | .sub _ b _ => [b]
  | .maskadd _ b _ _ => [b]
  | .masksub _ b _ _ => [b]
  | .mul a _ _ => [a]
  | .muladd _ b _ _ => [b]
  | .mulsub _ b _ _ => [b]
  | .inv _ _ => []
  | .div _ _ _ _ _ _ => []
  | .reduce a _ => [a]
  | .ctxinit _ => []
  | .mtrans a _ => [a]
  | .mredc a => [a]
  | .mulred a _ _ => [a]
  | .sqrred a _ => [a]
  | .mident a => [a]
  | .mpowers a _ => [a]
  | .select a _ _ => [a]
  | .powmod a _ _ => [a]

/-- The context commands other than CTXINIT (R92, R225). -/
def needsContext : Instr → Bool
  | .cmp _ _ _ => false
  | .add _ _ _ => false
  | .sub _ _ _ => false
  | .maskadd _ _ _ _ => false
  | .masksub _ _ _ _ => false
  | .mul _ _ _ => false
  | .muladd _ _ _ _ => false
  | .mulsub _ _ _ _ => false
  | .inv _ _ => false
  | .div _ _ _ _ _ _ => false
  | .reduce _ _ => false
  | .ctxinit _ => false
  | .mtrans _ _ => true
  | .mredc _ => true
  | .mulred _ _ _ => true
  | .sqrred _ _ => true
  | .mident _ => true
  | .mpowers _ _ => true
  | .select _ _ _ => true
  | .powmod _ _ _ => true

/-- The commands that may write `CTX.SCRATCH`: the context commands (R38, R270). -/
def writesScratch : Instr → Bool
  | .cmp _ _ _ => false
  | .add _ _ _ => false
  | .sub _ _ _ => false
  | .maskadd _ _ _ _ => false
  | .masksub _ _ _ _ => false
  | .mul _ _ _ => false
  | .muladd _ _ _ _ => false
  | .mulsub _ _ _ _ => false
  | .inv _ _ => false
  | .div _ _ _ _ _ _ => false
  | .reduce _ _ => false
  | .ctxinit _ => true
  | .mtrans _ _ => true
  | .mredc _ => true
  | .mulred _ _ _ => true
  | .sqrred _ _ => true
  | .mident _ => true
  | .mpowers _ _ => true
  | .select _ _ _ => true
  | .powmod _ _ _ => true

/-- The commands that write `CTX.TABLE`: POWMOD alone (R39, R270). -/
def writesTable : Instr → Bool
  | .cmp _ _ _ => false
  | .add _ _ _ => false
  | .sub _ _ _ => false
  | .maskadd _ _ _ _ => false
  | .masksub _ _ _ _ => false
  | .mul _ _ _ => false
  | .muladd _ _ _ _ => false
  | .mulsub _ _ _ _ => false
  | .inv _ _ => false
  | .div _ _ _ _ _ _ => false
  | .reduce _ _ => false
  | .ctxinit _ => false
  | .mtrans _ _ => false
  | .mredc _ => false
  | .mulred _ _ _ => false
  | .sqrred _ _ => false
  | .mident _ => false
  | .mpowers _ _ => false
  | .select _ _ _ => false
  | .powmod _ _ _ => true

/-- Whether the command is CTXINIT with an empty modulus slice (R223 step 3). -/
def emptyModulus (s : State) : Instr → Bool
  | .cmp _ _ _ => false
  | .add _ _ _ => false
  | .sub _ _ _ => false
  | .maskadd _ _ _ _ => false
  | .masksub _ _ _ _ => false
  | .mul _ _ _ => false
  | .muladd _ _ _ _ => false
  | .mulsub _ _ _ _ => false
  | .inv _ _ => false
  | .div _ _ _ _ _ _ => false
  | .reduce _ _ => false
  | .ctxinit a => decide ((s.slice a).len = 0)
  | .mtrans _ _ => false
  | .mredc _ => false
  | .mulred _ _ _ => false
  | .sqrred _ _ => false
  | .mident _ => false
  | .mpowers _ _ => false
  | .select _ _ _ => false
  | .powmod _ _ _ => false

/-- The "length conditions" column of rule R68, beside "no slice is empty" (R226). -/
def lengthsAgree (s : State) : Instr → Bool
  | .cmp _ b c => decide ((s.slice b).len = (s.slice c).len)
  | .add _ b c => decide ((s.slice b).len = (s.slice c).len)
  | .sub _ b c => decide ((s.slice b).len = (s.slice c).len)
  | .maskadd _ b c _ => decide ((s.slice b).len = (s.slice c).len)
  | .masksub _ b c _ => decide ((s.slice b).len = (s.slice c).len)
  | .mul a b c => decide ((s.slice b).len + (s.slice c).len ≤ (s.slice a).len)
  | .muladd _ b c _ => decide ((s.slice b).len = (s.slice c).len)
  | .mulsub _ b c _ => decide ((s.slice b).len = (s.slice c).len)
  | .inv _ _ => true
  | .div _ _ _ _ _ _ => true
  | .reduce a b => decide ((s.slice b).len < (s.slice a).len)
  | .ctxinit a => decide ((s.slice a).len ≤ s.params.kmax)
  | .mtrans a b => decide ((s.slice a).len = s.ctx.k) && decide ((s.slice b).len = s.ctx.k)
  | .mredc a => decide ((s.slice a).len = 2 * s.ctx.k)
  | .mulred a b c =>
    decide ((s.slice a).len = s.ctx.k) && decide ((s.slice b).len = s.ctx.k) && decide ((s.slice c).len = s.ctx.k)
  | .sqrred a b => decide ((s.slice a).len = s.ctx.k) && decide ((s.slice b).len = s.ctx.k)
  | .mident a => decide ((s.slice a).len = s.ctx.k)
  | .mpowers a b =>
    decide ((s.slice b).len = s.ctx.k) && decide (s.ctx.k ≤ (s.slice a).len) && decide ((s.slice a).len % s.ctx.k = 0)
  | .select a b _ =>
    decide ((s.slice a).len = s.ctx.k) && decide (s.ctx.k ≤ (s.slice b).len) && decide ((s.slice b).len % s.ctx.k = 0)
  | .powmod a b _ => decide ((s.slice a).len = s.ctx.k) && decide ((s.slice b).len = s.ctx.k)

/-- Steps 2 to 5 of the order of checks (R223): the error found first, if one is.
They read only the command, `SD`, `CTX.STATE`, `CTX.K` and the fixed parameters (R222). -/
def State.publicCheck (s : State) (i : Instr) : Option ErrCode :=
  if needsContext i && decide (s.ctx.state = .uninit) then some .noctx
  else if emptyModulus s i then some .modEmpty
  else if (sliceFields i).any (fun r => decide ((s.slice r).len = 0)) || !lengthsAgree s i then some .len
  else if (sliceFields i).any (fun r => !s.inLM (s.slice r)) then some .range
  else none

/-- Steps 6 and 7 of the order of checks (R223): the two bits of the modulus CTXINIT validates. -/
def modulusCheck (mm : List Word) : Option ErrCode :=
  if !isOdd mm then some .modEven
  else if !normalized mm then some .modUnnorm
  else none

/-! ## The context's operands -/

/-- `m = CTX.M[0..K-1]` (R35). -/
def State.modulus (s : State) : List Word := s.ctx.m.readLimbs 0 s.ctx.k

/-- `M = val(m)`. -/
def State.modVal (s : State) : Nat := val s.modulus

/-- The `i`-th row of a table at `base` with rows of `k` limbs (R195). -/
def State.tableRow (s : State) (base k i : Nat) : List Word := s.lm.readLimbs (base + i * k) k

/-- The rows of the table in slice `tb` (R195). -/
def State.tableRows (s : State) (tb : Slice) (k : Nat) : List (List Word) :=
  (List.range (tb.len / k)).map (s.tableRow tb.base k)

end Sys2Proof.Machine
end

