-- ==== Sys2Proof/Machine/Context.lean ====
section
/-! DEFINITION. The Montgomery Modulus Context commands (rules R170 to R205): CTXINIT, MTRANS, MREDC, MULRED, SQRRED,
MIDENT, MPOWERS, SELECT. -/

namespace Sys2Proof.Machine

/-- The modulus limbs CTXINIT reads.
Where the host has broken rule R266 against this very command they are unspecified (log entry 8). -/
def State.modulusRead (s : State) (md : Slice) : List Word :=
  match s.disturbance with
  | none => s.limbsAt md
  | some d => (List.range md.len).map fun i => Config.freeWord d (i + 1)

/-- The context CTXINIT installs for the modulus `mm` (R172, R35): `K`, `M`, `MS`, `DINV`, `NINV` together.
Words of `M` and `MS` above the modulus, and the scratch, are unspecified (R35, R38). -/
def State.install (s : State) (mm : List Word) : State :=
  { s with
    ctx :=
      { state := .ready
        k := mm.length
        m := (Memory.unspecified s.draws).writeLimbs 0 mm
        ms := (Memory.unspecified (s.draws + 1)).writeLimbs 0 (limbs (mm.length + 1) (val mm * 2 ^ 16))
        dinv := invert (mm.getLastD 0)
        ninv := negInverse (mm.headD 0)
        scratch := Memory.unspecified (s.draws + 2)
        table := s.ctx.table }
    draws := s.draws + 3 }

/-- `CTXINIT sA` (R172): it runs in UNINIT and in READY, and on any error changes nothing (R36). -/
def execCtxinit (a : SReg) (s : State) : Host.Outcome State Fault Refusal :=
  let mm := s.modulusRead (s.slice a)
  s.command ((s.publicCheck (.ctxinit a)).or (modulusCheck mm)) (s.install mm)

/-- `MTRANS sA, sB` (R176): `res := (val(v) * R) mod M`, for `val(v) < M` (U5). -/
def execMtrans (a b : SReg) (s : State) : Host.Outcome State Fault Refusal :=
  let v := val (s.limbsAt (s.slice b))
  s.command (s.publicCheck (.mtrans a b))
    (s.outLM (s.inContract (decide (v < s.modVal) && (s.slice a).unmixed (s.slice b)))
      (s.slice a).base (s.slice a).len (limbs s.ctx.k (toMont s.ctx.k s.modVal v))).spoilScratch

/-- `MREDC sA` (R180, R183): `T * Rinv mod M` in the low half, for `T < M * R` (U6); the high half is unspecified (U13,
log entry 16). -/
def execMredc (a : SReg) (s : State) : Host.Outcome State Fault Refusal :=
  let t := val (s.limbsAt (s.slice a))
  s.command (s.publicCheck (.mredc a))
    (((s.outLM (s.inContract (decide (t < s.modVal * bigR s.ctx.k))) (s.slice a).base s.ctx.k
      (limbs s.ctx.k (redc s.ctx.k s.modVal t))).outLM
        false ((s.slice a).base + s.ctx.k) s.ctx.k []).spoilScratch)

/-- MULRED and SQRRED (R184, R188): `res := (val(a) * val(b) * Rinv) mod M`, for operands below `M` (U7). -/
def State.mulReduce (s : State) (res a b : Slice) : State :=
  let va := val (s.limbsAt a)
  let vb := val (s.limbsAt b)
  (s.outLM
    (s.inContract (decide (va < s.modVal) && decide (vb < s.modVal) && res.unmixed a && res.unmixed b && a.unmixed b))
    res.base res.len (limbs s.ctx.k (montMul s.ctx.k s.modVal va vb))).spoilScratch

/-- `MULRED sA, sB, sC` (R184). -/
def execMulred (a b c : SReg) (s : State) : Host.Outcome State Fault Refusal :=
  s.command (s.publicCheck (.mulred a b c)) (s.mulReduce (s.slice a) (s.slice b) (s.slice c))

/-- `SQRRED sA, sB` (R188, R189): identical to `MULRED sA, sB, sB`. -/
def execSqrred (a b : SReg) (s : State) : Host.Outcome State Fault Refusal :=
  s.command (s.publicCheck (.sqrred a b)) (s.mulReduce (s.slice a) (s.slice b) (s.slice b))

/-- `MIDENT sA` (R192): `res := R - M`. -/
def execMident (a : SReg) (s : State) : Host.Outcome State Fault Refusal :=
  s.command (s.publicCheck (.mident a))
    (s.outLM (s.inContract true) (s.slice a).base (s.slice a).len
      (limbs s.ctx.k (montIdentity s.ctx.k s.modVal))).spoilScratch

/-- `MPOWERS sA, sB` (R196): row `i` of the table is `base^i` in Montgomery form, for `base < M` and the table disjoint
from the base (U8, U10). -/
def execMpowers (a b : SReg) (s : State) : Host.Outcome State Fault Refusal :=
  let v := val (s.limbsAt (s.slice b))
  s.command (s.publicCheck (.mpowers a b))
    (s.outLM (s.inContract (decide (v < s.modVal) && (s.slice a).disjoint (s.slice b)))
      (s.slice a).base (s.slice a).len
      ((montPowers s.ctx.k s.modVal v ((s.slice a).len / s.ctx.k)).map (limbs s.ctx.k)).flatten).spoilScratch

/-- `SELECT sA, sB, xC` (R200, R201): every row is masked and ORed into a result that starts from zero; the result slice
must be disjoint from the table (U10). -/
def execSelect (a b : SReg) (c : XReg) (s : State) : Host.Outcome State Fault Refusal :=
  s.command (s.publicCheck (.select a b c))
    (s.outLM (s.inContract ((s.slice a).disjoint (s.slice b))) (s.slice a).base (s.slice a).len
      (selectLoop (s.getX c) 0 (s.tableRows (s.slice b) s.ctx.k) (List.replicate s.ctx.k 0))).spoilScratch

end Sys2Proof.Machine
end

