-- ==== Sys2Proof/Machine/Exponentiation.lean ====
section
/-! DEFINITION. The modular exponentiation command POWMOD (rules R210 to R218). -/

namespace Sys2Proof.Machine

/-- `POWMOD sA, sB, sC` (R212): `res := val(bs)^val(ex) mod M`, for `val(bs) < M` and each pair of slices identical or
disjoint (U9, U10); the scratch and the power table are left unspecified (R38, R39). -/
def execPowmod (a b c : SReg) (s : State) : Host.Outcome State Fault Refusal :=
  let v := val (s.limbsAt (s.slice b))
  let ex := s.slice c
  s.command (s.publicCheck (.powmod a b c))
    (s.outLM
      (s.inContract (decide (v < s.modVal) && (s.slice a).unmixed (s.slice b) && (s.slice a).unmixed ex &&
        (s.slice b).unmixed ex))
      (s.slice a).base (s.slice a).len
      (limbs s.ctx.k (modPow v s.modVal (32 * ex.len) (val (s.limbsAt ex))))).spoilScratch.spoilTable

end Sys2Proof.Machine
end

