-- ==== Sys2Proof/Machine/Flags.lean ====
section
/-! DEFINITION. MMP has no flags (R28); what a function returns beside an array is written to an `X` register in the forms
of rule R121. -/

namespace Sys2Proof.Machine

/-- Carry of ADD and MASKADD: 0 or 1 (R121). -/
def carryWord (c : Nat) : Word := BitVec.ofNat 32 c

/-- Borrow of SUB and MASKSUB: all-one bits on underflow (R121). -/
def borrowWord (w : Nat) : Word := maskOf (decide (w = 1))

/-- Comparison of CMP: `(gt - lt) mod 2^32` (R121, R122). -/
def compareWord (ltgt : Nat × Nat) : Word := BitVec.ofInt 32 ((ltgt.2 : Int) - (ltgt.1 : Int))

/-- Overflow of MULADD: the overflow limb (R121, R136). -/
def overflowWord (c : Nat) : Word := BitVec.ofNat 32 c

/-- Overflow of MULSUB: the signed overflow `-c`, modulo `2^32` (R121, R139). -/
def signedOverflowWord (c : Int) : Word := BitVec.ofInt 32 (-c)

end Sys2Proof.Machine
end

