-- ==== Sys2Proof/Machine/Kernel.lean ====
section
/-! DEFINITION. The Limb Kernel commands (rules R120 to R152): CMP, ADD, SUB, MASKADD, MASKSUB, MUL, MULADD, MULSUB, INV, DIV. -/

namespace Sys2Proof.Machine

/-- ADD and MASKADD under mask `k` (R124, R128): `aug := s`, `X[a] <- carry`. -/
def State.addMasked (s : State) (a : XReg) (aug add : Slice) (k : Word) : State :=
  let r := rippleAdd k (s.limbsAt aug) (s.limbsAt add) 0
  let ok := s.inContract (aug.unmixed add && validMask k)
  (s.outLM ok aug.base aug.len r.1).outX ok a (carryWord r.2)

/-- SUB and MASKSUB under mask `k` (R126, R130): `min := s`, `X[a] <- borrow`. -/
def State.subMasked (s : State) (a : XReg) (min sub : Slice) (k : Word) : State :=
  let r := rippleSub k (s.limbsAt min) (s.limbsAt sub) 0
  let ok := s.inContract (min.unmixed sub && validMask k)
  (s.outLM ok min.base min.len r.1).outX ok a (borrowWord r.2)

/-- `CMP xA, sB, sC` (R122). No slice is written, so the slices may overlap in any way (R268). -/
def execCmp (a : XReg) (b c : SReg) (s : State) : Host.Outcome State Fault Refusal :=
  s.command (s.publicCheck (.cmp a b c))
    (s.outX (s.inContract true) a
      (compareWord (compareLoop (s.limbsAt (s.slice b)) (s.limbsAt (s.slice c)) 0 0)))

/-- `ADD xA, sB, sC` (R124). -/
def execAdd (a : XReg) (b c : SReg) (s : State) : Host.Outcome State Fault Refusal :=
  s.command (s.publicCheck (.add a b c)) (s.addMasked a (s.slice b) (s.slice c) allOnes)

/-- `SUB xA, sB, sC` (R126). -/
def execSub (a : XReg) (b c : SReg) (s : State) : Host.Outcome State Fault Refusal :=
  s.command (s.publicCheck (.sub a b c)) (s.subMasked a (s.slice b) (s.slice c) allOnes)

/-- `MASKADD xA, sB, sC, xD` (R128, R131): an invalid mask leaves both outputs unspecified (U1). -/
def execMaskadd (a : XReg) (b c : SReg) (d : XReg) (s : State) : Host.Outcome State Fault Refusal :=
  s.command (s.publicCheck (.maskadd a b c d)) (s.addMasked a (s.slice b) (s.slice c) (s.getX d))

/-- `MASKSUB xA, sB, sC, xD` (R130, R131): an invalid mask leaves both outputs unspecified (U1). -/
def execMasksub (a : XReg) (b c : SReg) (d : XReg) (s : State) : Host.Outcome State Fault Refusal :=
  s.command (s.publicCheck (.masksub a b c d)) (s.subMasked a (s.slice b) (s.slice c) (s.getX d))

/-- `MUL sA, sB, sC` (R132, R133): the result slice must be disjoint from both operands (R268); surplus limbs are zero. -/
def execMul (a b c : SReg) (s : State) : Host.Outcome State Fault Refusal :=
  s.command (s.publicCheck (.mul a b c))
    (s.outLM (s.inContract ((s.slice a).disjoint (s.slice b) && (s.slice a).disjoint (s.slice c)))
      (s.slice a).base (s.slice a).len
      (schoolbook (s.limbsAt (s.slice b)) (s.limbsAt (s.slice c)) (List.replicate (s.slice a).len 0)))

/-- `MULADD xA, sB, sC, xD` (R135). -/
def execMuladd (a : XReg) (b c : SReg) (d : XReg) (s : State) : Host.Outcome State Fault Refusal :=
  let r := mulAddLoop (s.getX d) (s.limbsAt (s.slice b)) (s.limbsAt (s.slice c)) 0
  let ok := s.inContract ((s.slice b).unmixed (s.slice c))
  s.command (s.publicCheck (.muladd a b c d))
    ((s.outLM ok (s.slice b).base (s.slice b).len r.1).outX ok a (overflowWord r.2))

/-- `MULSUB xA, sB, sC, xD` (R138, R139). -/
def execMulsub (a : XReg) (b c : SReg) (d : XReg) (s : State) : Host.Outcome State Fault Refusal :=
  let r := mulSubLoop (s.getX d) (s.limbsAt (s.slice b)) (s.limbsAt (s.slice c)) 0
  let ok := s.inContract ((s.slice b).unmixed (s.slice c))
  s.command (s.publicCheck (.mulsub a b c d))
    ((s.outLM ok (s.slice b).base (s.slice b).len r.1).outX ok a (signedOverflowWord r.2))

/-- `INV xA, xB` (R142): `d` must be normalized, else `X[A]` is unspecified (U2). -/
def execInv (a b : XReg) (s : State) : Host.Outcome State Fault Refusal :=
  s.command (s.publicCheck (.inv a b)) (s.outX (s.inContract (normLimb (s.getX b))) a (invert (s.getX b)))

/-- The contract of DIV (R145, R147, U3): `normlimb(d)`, `dinv = invert(d)`, `n1 < d`. -/
def divContract (n1 d dinv : Word) : Bool :=
  normLimb d && decide (dinv = invert d) && decide (n1.toNat < d.toNat)

/-- `DIV xA, xB, xC, xD, xE, xF` (R145): quotient to `X[A]`, remainder to `X[B]`; all sources are sampled first (R24).
That `A` and `B` differ is the decoder's to ensure (R94, log entry 17). -/
def execDiv (a b c d e f : XReg) (s : State) : Host.Outcome State Fault Refusal :=
  let n := (s.getX c).toNat * 2 ^ 32 + (s.getX d).toNat
  let ok := s.inContract (divContract (s.getX c) (s.getX e) (s.getX f))
  s.command (s.publicCheck (.div a b c d e f))
    ((s.outX ok a (BitVec.ofNat 32 (n / (s.getX e).toNat))).outX ok b (BitVec.ofNat 32 (n % (s.getX e).toNat)))

end Sys2Proof.Machine
end

