-- ==== Sys2Proof/Machine/Reduction.lean ====
section
/-! DEFINITION. The Multi-limb Reduction command REDUCE (rules R160 to R166). -/

namespace Sys2Proof.Machine

/-- `REDUCE sA, sB` (R161, R164): the remainder in the low limbs, zeros above; the divisor must be normalized and odd and
the slices disjoint, else the whole dividend slice is unspecified (U4, U10). -/
def execReduce (a b : SReg) (s : State) : Host.Outcome State Fault Refusal :=
  let dv := s.slice a
  let ds := s.limbsAt (s.slice b)
  s.command (s.publicCheck (.reduce a b))
    (s.outLM (s.inContract (normalized ds && isOdd ds && dv.disjoint (s.slice b))) dv.base dv.len
      (limbs (s.slice b).len (val (s.limbsAt dv) % val ds) ++ List.replicate (dv.len - (s.slice b).len) 0))

end Sys2Proof.Machine
end

