-- ==== Sys2Proof/Machine/Dispatch.lean ====
section
/-! DEFINITION. The meaning of every command: one arm per row of rule R92. -/

namespace Sys2Proof.Machine

def exec (i : Instr) (s : State) : Host.Outcome State Fault Refusal :=
  match i with
  | .cmp a b c => Sys2Proof.Machine.execCmp a b c s
  | .add a b c => Sys2Proof.Machine.execAdd a b c s
  | .sub a b c => Sys2Proof.Machine.execSub a b c s
  | .maskadd a b c d => Sys2Proof.Machine.execMaskadd a b c d s
  | .masksub a b c d => Sys2Proof.Machine.execMasksub a b c d s
  | .mul a b c => Sys2Proof.Machine.execMul a b c s
  | .muladd a b c d => Sys2Proof.Machine.execMuladd a b c d s
  | .mulsub a b c d => Sys2Proof.Machine.execMulsub a b c d s
  | .inv a b => Sys2Proof.Machine.execInv a b s
  | .div a b c d e f => Sys2Proof.Machine.execDiv a b c d e f s
  | .reduce a b => Sys2Proof.Machine.execReduce a b s
  | .ctxinit a => Sys2Proof.Machine.execCtxinit a s
  | .mtrans a b => Sys2Proof.Machine.execMtrans a b s
  | .mredc a => Sys2Proof.Machine.execMredc a s
  | .mulred a b c => Sys2Proof.Machine.execMulred a b c s
  | .sqrred a b => Sys2Proof.Machine.execSqrred a b s
  | .mident a => Sys2Proof.Machine.execMident a s
  | .mpowers a b => Sys2Proof.Machine.execMpowers a b s
  | .select a b c => Sys2Proof.Machine.execSelect a b c s
  | .powmod a b c => Sys2Proof.Machine.execPowmod a b c s

end Sys2Proof.Machine
end

