-- ==== Sys2Proof/WellFormed.lean ====
section
/-! DEFINITION. Which commands have a word: every one, but a DIV whose two destinations are one register (R94, R96). -/

namespace Sys2Proof

/-- Rule R93: "for DIV, `A != B`"; no other command has a condition on its fields. -/
def Instr.wellFormed : Instr → Bool
  | .cmp _ _ _ => true
  | .add _ _ _ => true
  | .sub _ _ _ => true
  | .maskadd _ _ _ _ => true
  | .masksub _ _ _ _ => true
  | .mul _ _ _ => true
  | .muladd _ _ _ _ => true
  | .mulsub _ _ _ _ => true
  | .inv _ _ => true
  | .div a b _ _ _ _ => decide (a ≠ b)
  | .reduce _ _ => true
  | .ctxinit _ => true
  | .mtrans _ _ => true
  | .mredc _ => true
  | .mulred _ _ _ => true
  | .sqrred _ _ => true
  | .mident _ => true
  | .mpowers _ _ => true
  | .select _ _ _ => true
  | .powmod _ _ _ => true

end Sys2Proof
end

