-- ==== Sys2Proof/Decode.lean ====
section
/-! DEFINITION. Decoding of a command word (R90 to R97) and, after it, the encoder written from the same tables. -/

namespace Sys2Proof

/-- Why a word is ILLEGAL: the three cases (a), (b), (c) of rule R96. -/
inductive IllegalWord where
  /-- (a): `OPC` is none of the 20 values of R92. -/
  | unassignedOpcode
  /-- (b): an unused field or `Z` is not zero. -/
  | unusedFieldNotZero
  /-- (c): a DIV whose fields A and B name one register. -/
  | divSameDestination
  deriving DecidableEq, Repr

/-- The answer of the decoder: a command, or ILLEGAL with its reason. -/
inductive Decoded where
  | ok (i : Instr)
  | illegal (r : IllegalWord)
  deriving DecidableEq, Repr

/-- The field `OPC`, bits 31:24 (R90). -/
def opcOf (w : Word) : Nat := w.toNat / 2 ^ 24

/-- The 3-bit register field whose lowest bit is `lo` (R90). -/
def fieldAt (w : Word) (lo : Nat) : Fin 8 := ⟨w.toNat / 2 ^ lo % 8, Nat.mod_lt _ (by decide)⟩

/-- The fields A to F of rule R90. -/
def fieldA (w : Word) : Fin 8 := fieldAt w 21
def fieldB (w : Word) : Fin 8 := fieldAt w 18
def fieldC (w : Word) : Fin 8 := fieldAt w 15
def fieldD (w : Word) : Fin 8 := fieldAt w 12
def fieldE (w : Word) : Fin 8 := fieldAt w 9
def fieldF (w : Word) : Fin 8 := fieldAt w 6

/-- Rules R91, R94: every field below the used ones, and `Z`, must be zero.
In each row of R93 they are the word's lowest `n` bits. -/
def whenUnusedZero (w : Word) (n : Nat) (i : Instr) : Decoded :=
  if w.toNat % 2 ^ n = 0 then .ok i else .illegal .unusedFieldNotZero

/-- Rule R94: decoding, total on every 32-bit word. -/
def decode (w : Word) : Decoded :=
  match opcOf w with
  | 0x01 => whenUnusedZero w 15 (.cmp (fieldA w) (fieldB w) (fieldC w))
  | 0x02 => whenUnusedZero w 15 (.add (fieldA w) (fieldB w) (fieldC w))
  | 0x03 => whenUnusedZero w 15 (.sub (fieldA w) (fieldB w) (fieldC w))
  | 0x04 => whenUnusedZero w 12 (.maskadd (fieldA w) (fieldB w) (fieldC w) (fieldD w))
  | 0x05 => whenUnusedZero w 12 (.masksub (fieldA w) (fieldB w) (fieldC w) (fieldD w))
  | 0x06 => whenUnusedZero w 15 (.mul (fieldA w) (fieldB w) (fieldC w))
  | 0x07 => whenUnusedZero w 12 (.muladd (fieldA w) (fieldB w) (fieldC w) (fieldD w))
  | 0x08 => whenUnusedZero w 12 (.mulsub (fieldA w) (fieldB w) (fieldC w) (fieldD w))
  | 0x09 => whenUnusedZero w 18 (.inv (fieldA w) (fieldB w))
  | 0x0A =>
    if w.toNat % 2 ^ 6 = 0 ∧ fieldA w = fieldB w then .illegal .divSameDestination
    else whenUnusedZero w 6 (.div (fieldA w) (fieldB w) (fieldC w) (fieldD w) (fieldE w) (fieldF w))
  | 0x10 => whenUnusedZero w 18 (.reduce (fieldA w) (fieldB w))
  | 0x20 => whenUnusedZero w 21 (.ctxinit (fieldA w))
  | 0x21 => whenUnusedZero w 18 (.mtrans (fieldA w) (fieldB w))
  | 0x22 => whenUnusedZero w 21 (.mredc (fieldA w))
  | 0x23 => whenUnusedZero w 15 (.mulred (fieldA w) (fieldB w) (fieldC w))
  | 0x24 => whenUnusedZero w 18 (.sqrred (fieldA w) (fieldB w))
  | 0x25 => whenUnusedZero w 21 (.mident (fieldA w))
  | 0x26 => whenUnusedZero w 18 (.mpowers (fieldA w) (fieldB w))
  | 0x27 => whenUnusedZero w 15 (.select (fieldA w) (fieldB w) (fieldC w))
  | 0x28 => whenUnusedZero w 15 (.powmod (fieldA w) (fieldB w) (fieldC w))
  | _ => .illegal .unassignedOpcode

/-- The instruction a decoded word stands for, if it stands for one. -/
def Decoded.toOption : Decoded → Option Instr
  | .ok i => some i
  | .illegal _ => none

/-- What the decoder reads from an instruction whose table bits are `w`.
A command is one 32-bit word moved whole (R63, R90), so the word written to CMD is `w` itself. -/
def decodeTableWord (nbits w : Nat) : Option Instr :=
  (decode (BitVec.ofNat 32 (w % 2 ^ nbits))).toOption

/-! ## The encoder -/

/-- The opcode of each command (R92). -/
def Instr.opc : Instr → Nat
  | .cmp _ _ _ => 0x01
  | .add _ _ _ => 0x02
  | .sub _ _ _ => 0x03
  | .maskadd _ _ _ _ => 0x04
  | .masksub _ _ _ _ => 0x05
  | .mul _ _ _ => 0x06
  | .muladd _ _ _ _ => 0x07
  | .mulsub _ _ _ _ => 0x08
  | .inv _ _ => 0x09
  | .div _ _ _ _ _ _ => 0x0A
  | .reduce _ _ => 0x10
  | .ctxinit _ => 0x20
  | .mtrans _ _ => 0x21
  | .mredc _ => 0x22
  | .mulred _ _ _ => 0x23
  | .sqrred _ _ => 0x24
  | .mident _ => 0x25
  | .mpowers _ _ => 0x26
  | .select _ _ _ => 0x27
  | .powmod _ _ _ => 0x28

/-- Rule R90's word with `Z = 0`:
`OPC*2^24 + A*2^21 + B*2^18 + C*2^15 + D*2^12 + E*2^9 + F*2^6`. -/
def packWord (opc : Nat) (a b c d e f : Fin 8) : Word :=
  BitVec.ofNat 32
    (opc * 2 ^ 24 + a.val * 2 ^ 21 + b.val * 2 ^ 18 + c.val * 2 ^ 15 + d.val * 2 ^ 12 + e.val * 2 ^ 9 + f.val * 2 ^ 6)

/-- The word of a command (R90, R93): unused fields are 0. -/
def encode (i : Instr) : Word :=
  match i with
  | .cmp a b c => packWord i.opc a b c 0 0 0
  | .add a b c => packWord i.opc a b c 0 0 0
  | .sub a b c => packWord i.opc a b c 0 0 0
  | .maskadd a b c d => packWord i.opc a b c d 0 0
  | .masksub a b c d => packWord i.opc a b c d 0 0
  | .mul a b c => packWord i.opc a b c 0 0 0
  | .muladd a b c d => packWord i.opc a b c d 0 0
  | .mulsub a b c d => packWord i.opc a b c d 0 0
  | .inv a b => packWord i.opc a b 0 0 0 0
  | .div a b c d e f => packWord i.opc a b c d e f
  | .reduce a b => packWord i.opc a b 0 0 0 0
  | .ctxinit a => packWord i.opc a 0 0 0 0 0
  | .mtrans a b => packWord i.opc a b 0 0 0 0
  | .mredc a => packWord i.opc a 0 0 0 0 0
  | .mulred a b c => packWord i.opc a b c 0 0 0
  | .sqrred a b => packWord i.opc a b 0 0 0 0
  | .mident a => packWord i.opc a 0 0 0 0 0
  | .mpowers a b => packWord i.opc a b 0 0 0 0
  | .select a b c => packWord i.opc a b c 0 0 0
  | .powmod a b c => packWord i.opc a b c 0 0 0

end Sys2Proof
end

