-- ==== Sys2Proof/Machine/Window.lean ====
section
/-! DEFINITION. The host side: the register window (R29, R31), the host's transactions while the engine is IDLE (R23) and
while it is BUSY (R266, R267), and the reset input (R260 to R262). -/

namespace Sys2Proof.Machine

/-! ## The register window -/

/-- The numbers of rule R221. -/
def ErrCode.code : ErrCode → Nat
  | .none => 0
  | .illegal => 1
  | .noctx => 2
  | .len => 3
  | .range => 4
  | .modEmpty => 5
  | .modEven => 6
  | .modUnnorm => 7

/-- `STATUS.CTX_READY` (R31). -/
def State.ctxReady (s : State) : Bool := decide (s.ctx.state = .ready)

/-- `STATUS` (R31): `BUSY` bit 0, `CTX_READY` bit 1, `ERR` bits 7:4, the rest zero. -/
def State.statusWord (s : State) : Word :=
  BitVec.ofNat 32 (s.busy.toNat + 2 * s.ctxReady.toNat + 16 * s.err.code)

/-- `CTXK` (R29): `CTX.K` in bits 15:0. -/
def State.ctxkWord (s : State) : Word := BitVec.ofNat 32 (s.ctx.k % 2 ^ 16)

/-- The register number of window offset `off` in a file that starts at offset `lo`. -/
def fileIndex (off : Fin 32) (lo : Nat) : Fin 8 := ⟨(off.val - lo) % 8, Nat.mod_lt _ (by decide)⟩

/-- What the window shows at offset `off` (R29): CMD and the reserved offsets read 0. -/
def State.windowRead (s : State) (off : Fin 32) : Word :=
  if off.val = 0x01 then s.statusWord
  else if off.val = 0x02 then s.ctxkWord
  else if off.val = 0x03 then s.ctx.dinv
  else if off.val = 0x04 then s.ctx.ninv
  else if 0x08 ≤ off.val ∧ off.val ≤ 0x0F then s.getX (fileIndex off 0x08)
  else if 0x10 ≤ off.val ∧ off.val ≤ 0x17 then s.getSD (fileIndex off 0x10)
  else 0

/-- A write to offset `off` while IDLE (R29): CMD issues a command, `X` and `SD` are stored, every other write is ignored. -/
def State.windowWrite (s : State) (off : Fin 32) (v : Word) : State :=
  if off.val = 0x00 then s.issue v
  else if 0x08 ≤ off.val ∧ off.val ≤ 0x0F then s.setX (fileIndex off 0x08) v
  else if 0x10 ≤ off.val ∧ off.val ≤ 0x17 then s.setSD (fileIndex off 0x10) v
  else s

/-- The datum a read transaction returns to the host. -/
def State.reply (s : State) (v : Word) : State := { s with hostData := some v }

/-! ## The reset input (R41, R260 to R262) -/

/-- The engine, `X`, `SD`, `STATUS` and the context's readable words at their reset values, the context UNINIT and its
modulus memories unspecified (R41, R260).
LM, the scratch and the power table "keep whatever they held" (R262, log entry 10). -/
def State.resetRegisters (s : State) : State :=
  { s with
    x := Vector.replicate 8 0
    sd := Vector.replicate 8 0
    busy := false
    err := .none
    ctx :=
      { s.ctx with
        state := .uninit
        k := 0
        m := Memory.unspecified s.draws
        ms := Memory.unspecified (s.draws + 1)
        dinv := 0
        ninv := 0 }
    cmd := 0
    disturbance := none
    sdLate := []
    draws := s.draws + 2 }

/-- How many limbs of a slice lie inside LM. -/
def State.lengthInLM (s : State) (S : Slice) : Nat := min S.len (s.params.lmWords - S.base)

/-- The hidden memories the command `i` writes, unspecified: it may have been at work in them (R38, R39). -/
def State.abandonHidden (s : State) (i : Instr) : State :=
  let t := if writesScratch i then s.spoilScratch else s
  if writesTable i then t.spoilTable else t

/-- The slices the command `i` could write (R68), unspecified as far as they lie inside LM. -/
def State.abandonSlices (s : State) (i : Instr) : State :=
  (writtenFields i).foldl (fun t r => t.outLM false (s.slice r).base (s.lengthInLM (s.slice r)) []) s

/-- A command abandoned by reset leaves the slices of rule R68's "written" column, and the hidden memories it works in,
unspecified (R261, log entry 10). -/
def State.abandon (s : State) : State :=
  match decode s.cmd with
  | .illegal _ => s
  | .ok i => (s.abandonSlices i).abandonHidden i

/-- The reset input, in either engine state. -/
def State.resetInput (s : State) : State := if s.busy then s.abandon.resetRegisters else s.resetRegisters

/-! ## Host transactions -/

/-- A transaction while the engine is IDLE (R23, R69). -/
def State.hostIdle (s : State) : HostOp → Host.Outcome State Fault Refusal
  | .regRead off => .next (s.reply (s.windowRead off))
  | .regWrite off v => .next (s.windowWrite off v)
  | .lmRead a => if a < s.params.lmWords then .next (s.reply (s.lm.read a)) else .fault (.hostOutsideLM a)
  | .lmWrite a v =>
    if a < s.params.lmWords then .next { s with lm := s.lm.write a v } else .fault (.hostOutsideLM a)
  | .wait => .next (s.reply s.statusWord)
  | .reset => .next s.resetInput

/-- Breaking rule R266 by a write to LM or to an `X` register: the outcome of the command in flight becomes unspecified.
The words the command may then deliver come from the same draw as the written word (index 0), at other indices
(log entry 7). -/
def State.disturb (s : State) : State := { s with disturbance := some s.draws }.drawn

/-- A register write while BUSY (R266, R267): to CMD it is dropped; to `X` the word is unspecified and the command is
disturbed; to `SD` it waits for the command to end; elsewhere it is ignored (R29). -/
def State.windowWriteBusy (s : State) (off : Fin 32) (v : Word) : State :=
  if 0x08 ≤ off.val ∧ off.val ≤ 0x0F then (s.setX (fileIndex off 0x08) s.freeX).disturb
  else if 0x10 ≤ off.val ∧ off.val ≤ 0x17 then { s with sdLate := s.sdLate ++ [(fileIndex off 0x10, v)] }
  else s

/-- A transaction while the engine is BUSY (R266, R267): only STATUS reads exactly, every other read returns an
unspecified word (log entry 12). -/
def State.hostBusy (s : State) : HostOp → Host.Outcome State Fault Refusal
  | .regRead off => if off.val = 0x01 then .next (s.reply s.statusWord) else .next (s.reply s.freeX).drawn
  | .regWrite off v => .next (s.windowWriteBusy off v)
  | .lmRead a => if a < s.params.lmWords then .next (s.reply s.freeX).drawn else .fault (.hostOutsideLM a)
  | .lmWrite a _ =>
    if a < s.params.lmWords then .next { s with lm := s.lm.write a s.freeX }.disturb else .fault (.hostOutsideLM a)
  | .wait => .next s
  | .reset => .next s.resetInput

end Sys2Proof.Machine
end

