-- ==== Sys2Proof/Machine/Step.lean ====
section
/-! DEFINITION. One step: the engine runs the command in flight to its end, or the host makes its next transaction. -/

namespace Sys2Proof.Machine

/-- The engine's step (R22, R94): decode the sampled word; a command runs as one transition, an ILLEGAL word raises
`ERR_ILLEGAL` (R224). -/
def engineStep (s : State) : Host.Outcome State Fault Refusal :=
  match decode s.cmd with
  | .ok i => settle (exec i s)
  | .illegal _ => settle (.next (s.raise .illegal))

/-- One step of MMP.
While BUSY the engine moves when the host waits or has nothing to do, else the host acts against rule R266.
While IDLE the host makes its next transaction; with none, nothing happens (R239).
The host's queue and the moment the operands are read are log entries 4 and 18. -/
def step (s : State) : Host.Outcome State Fault Refusal :=
  match s.busy, s.input with
  | true, [] => engineStep s
  | true, .wait :: _ => engineStep s
  | true, op :: rest => ({ s with input := rest }).hostBusy op
  | false, [] => .next s
  | false, op :: rest => ({ s with input := rest }).hostIdle op

/-- `s` at the moment the word `w` has been written to CMD and the host has begun to wait (R22, R100), so that the next
step runs that command (log entry 4). -/
def State.withFetchWord (s : State) (nbits w : Nat) : State :=
  { s.issue (BitVec.ofNat 32 (w % 2 ^ nbits)) with input := .wait :: s.input }

end Sys2Proof.Machine
end

