-- ==== Sys2Proof/Machine/Reference.lean ====
section
/-! DEFINITION. The algorithmic references the spec gives beside its result rules (R146, R181, R185, R213).
`exec` does not run them: "a model takes rule R145 as the definition", and so on.
They are here (log entry 15) so that the two accounts of one command can be compared. -/

namespace Sys2Proof.Machine

/-- One "trial subtract, then mask the valid result in" round of rule R146. -/
def divCorrect (d : Nat) (qr : Nat × Int) : Nat × Int :=
  if qr.2 - (d : Int) ≥ 0 then (qr.1 + 1, qr.2 - (d : Int)) else qr

/-- The estimate and the three correction rounds of rule R146 (its formula is G1's, from general knowledge). -/
def divReference (n1 n0 d dinv : Word) : Nat × Int :=
  let n : Nat := n1.toNat * 2 ^ 32 + n0.toNat
  let qe : Nat := n1.toNat + n1.toNat * dinv.toNat / 2 ^ 32
  divCorrect d.toNat (divCorrect d.toNat (divCorrect d.toNat (qe, (n : Int) - (qe : Int) * (d.toNat : Int))))

/-- The final choice of rules R181 and R185 between the sum `s` (with carry `c`) and `s - m`, "by mask, not branch". -/
def finalSelect (m s : List Word) (c : Nat) : List Word :=
  let r := rippleSub allOnes s m 0
  List.zipWith (fun d t => bsel (maskOf (decide (c = 1) || decide (r.2 = 0))) d t) r.1 s

/-- The rounds of rule R181 on the limbs from position `i` on: the limbs above the `n` rounds, and their overflow limbs. -/
def redcRounds (m : List Word) (ninv : Word) : Nat → List Word → List Word × List Word
  | 0, v => (v, [])
  | n + 1, v =>
    let r := mulAddLoop (v.headD 0 * ninv) (v.take m.length) m 0
    let rest := redcRounds m ninv n (r.1 ++ v.drop m.length).tail
    (rest.1, BitVec.ofNat 32 r.2 :: rest.2)

/-- Montgomery reduction of the `2K` limbs `v` as rule R181 describes it. -/
def redcReference (m : List Word) (ninv : Word) (v : List Word) : List Word :=
  let r := redcRounds m ninv m.length v
  let sum := rippleAdd allOnes r.1 r.2 0
  finalSelect m sum.1 sum.2

/-- One outer round of rule R185 for the multiplier limb `bi`.
The accumulator is kept as its low `K` limbs and the value of the limb above them. -/
def fusedRound (a m : List Word) (ninv bi : Word) (acc : List Word × Nat) : List Word × Nat :=
  let p := mulAddLoop bi acc.1 a 0
  let x := acc.2 + p.2
  let q := mulAddLoop (p.1.headD 0 * ninv) p.1 m 0
  let y := x % 2 ^ 32 + q.2
  (q.1.tail ++ [BitVec.ofNat 32 y], x / 2 ^ 32 + y / 2 ^ 32)

/-- The fused multiply and reduce of rule R185. -/
def fusedReference (m : List Word) (ninv : Word) (a b : List Word) : List Word :=
  let acc := b.foldl (fun acc bi => fusedRound a m ninv bi acc) (List.replicate m.length 0, 0)
  finalSelect m acc.1 acc.2

/-- `select(w, table)` of rule R213, by rule R200's loop. -/
def pickRow (k : Nat) (table : List (List Word)) (w : Nat) : Nat :=
  val (selectLoop (BitVec.ofNat 32 w) 0 table (List.replicate k 0))

/-- Rule R213's loop over the windows `j-1` downto 0 of the exponent `e`: square `WIN = 4` times, select, multiply. -/
def windowLoop (k m : Nat) (table : List (List Word)) (e : Nat) : Nat → Nat → Nat
  | 0, acc => acc
  | j + 1, acc =>
    let sq := fun v => montMul k m v v
    windowLoop k m table e j (montMul k m (sq (sq (sq (sq acc)))) (pickRow k table (e / 2 ^ (Config.win * j) % 2 ^ Config.win)))

/-- POWMOD as rule R213 computes it, for an exponent `e` of `limbCount` limbs. -/
def windowReference (k m base e limbCount : Nat) : Nat :=
  let table := (montPowers k m base (2 ^ Config.win)).map (limbs k)
  let nw := 32 * limbCount / Config.win
  redc k m (windowLoop k m table e (nw - 1) (pickRow k table (e / 2 ^ (Config.win * (nw - 1)) % 2 ^ Config.win)))

end Sys2Proof.Machine
end

