-- ==== Sys2Proof/Safety.lean ====
section
/-! DEFINITION. What claims about MMP are stated in: good outcomes, the conditions of a legal call, what a command may
write, and the invariant of the machine. -/

namespace Sys2Proof.Machine

/-! ## Outcomes -/

/-- The command ended in state `t` with `ERR_NONE` and `BUSY = 0`. -/
abbrev Succeeds (i : Instr) (s t : State) : Prop := exec i s = .next t ∧ t.err = .none ∧ t.busy = false

/-- The command ended with the error `e`: `ERR` and `BUSY` are all of the spec's state that changed (R222). -/
abbrev Raises (i : Instr) (s : State) (e : ErrCode) : Prop := exec i s = .next (s.raise e)

/-! ## The encoding table (R92, R93) -/

/-- `match` and `mask` of every row of rule R93's table, in its order. -/
def encodingRows : List (Word × Word) :=
  [(0x01000000, 0xFF007FFF), (0x02000000, 0xFF007FFF), (0x03000000, 0xFF007FFF), (0x04000000, 0xFF000FFF),
   (0x05000000, 0xFF000FFF), (0x06000000, 0xFF007FFF), (0x07000000, 0xFF000FFF), (0x08000000, 0xFF000FFF),
   (0x09000000, 0xFF03FFFF), (0x0A000000, 0xFF00003F), (0x10000000, 0xFF03FFFF), (0x20000000, 0xFF1FFFFF),
   (0x21000000, 0xFF03FFFF), (0x22000000, 0xFF1FFFFF), (0x23000000, 0xFF007FFF), (0x24000000, 0xFF03FFFF),
   (0x25000000, 0xFF1FFFFF), (0x26000000, 0xFF03FFFF), (0x27000000, 0xFF007FFF), (0x28000000, 0xFF007FFF)]

/-! ## Conditions of a call -/

/-- A slice a command accepts by itself: not empty (R226) and inside LM (R227). -/
abbrev State.legalSlice (s : State) (r : SReg) : Prop :=
  1 ≤ (s.slice r).len ∧ (s.slice r).base + (s.slice r).len ≤ s.params.lmWords

/-- Steps 4 and 5 of rule R223 for a command whose slice fields are `rs` and whose length condition (R68) is `lengths`. -/
abbrev SliceErrors (i : Instr) (s : State) (rs : List SReg) (lengths : Prop) : Prop :=
  ((∃ r ∈ rs, (s.slice r).len = 0) ∨ ¬ lengths → Raises i s .len) ∧
  ((∀ r ∈ rs, 1 ≤ (s.slice r).len) → lengths → (∃ r ∈ rs, s.params.lmWords < (s.slice r).base + (s.slice r).len) →
    Raises i s .range)

/-- Steps 2, 4 and 5 of rule R223 for a context command. -/
abbrev ContextErrors (i : Instr) (s : State) (rs : List SReg) (lengths : Prop) : Prop :=
  (s.ctx.state = .uninit → Raises i s .noctx) ∧ (s.ctx.state = .ready → SliceErrors i s rs lengths)

/-- The command passes steps 4 and 5 of rule R223: its slices are legal and their lengths fit. -/
abbrev State.accepts (s : State) (rs : List SReg) (lengths : Prop) : Prop := (∀ r ∈ rs, s.legalSlice r) ∧ lengths

/-- The host has kept rule R266 against the command about to run. -/
abbrev State.undisturbed (s : State) : Prop := s.disturbance = none

/-- The slices of two fields are identical or disjoint (R268). -/
abbrev State.unmixed (s : State) (r q : SReg) : Prop := (s.slice r).unmixed (s.slice q) = true

/-- The slices of two fields are disjoint (R10). -/
abbrev State.apart (s : State) (r q : SReg) : Prop := (s.slice r).disjoint (s.slice q) = true

/-- The limb array of a slice field. -/
abbrev State.operand (s : State) (r : SReg) : List Word := s.limbsAt (s.slice r)

/-- The integer a slice field holds. -/
abbrev State.operandVal (s : State) (r : SReg) : Nat := val (s.limbsAt (s.slice r))

/-! ## The correctness property of the kernel (R151) -/

/-- The borrow a register in rule R121's form stands for: 1 for the all-one mask, else 0. -/
def borrowOf (x : Word) : Int := if x = allOnes then 1 else 0

/-- The signed overflow software recovers from MULSUB's register (R139): "`O = 0` if `X[A] = 0`, else `O = X[A] - 2^32`". -/
def signedOverflowOf (x : Word) : Int := if x = 0 then 0 else (x.toNat : Int) - 2 ^ 32

/-- Rule R151 for the arrays `a` and `b` and the limb `l`: "reinterpreting `(result, carry)` as an integer equals the
reference arbitrary-precision" result, for add, subtract, multiply, multiplyAdd and multiplySubtract. -/
abbrev KernelAgrees (a b : List Word) (l : Word) : Prop :=
  val (rippleAdd allOnes a b 0).1 + (carryWord (rippleAdd allOnes a b 0).2).toNat * bigR a.length = val a + val b ∧
  (val (rippleSub allOnes a b 0).1 : Int) - borrowOf (borrowWord (rippleSub allOnes a b 0).2) * bigR a.length =
    val a - val b ∧
  val (schoolbook a b (List.replicate (a.length + b.length) 0)) = val a * val b ∧
  val (mulAddLoop l a b 0).1 + (overflowWord (mulAddLoop l a b 0).2).toNat * bigR a.length = val a + val b * l.toNat ∧
  (val (mulSubLoop l a b 0).1 : Int) + signedOverflowOf (signedOverflowWord (mulSubLoop l a b 0).2) * bigR a.length =
    val a - val b * l.toNat

/-! ## What a command may write (R270) -/

/-- The destination `X` registers of a command (R93). -/
def destX : Instr → List XReg
  | .cmp a _ _ => [a]
  | .add a _ _ => [a]
  | .sub a _ _ => [a]
  | .maskadd a _ _ _ => [a]
  | .masksub a _ _ _ => [a]
  | .mul _ _ _ => []
  | .muladd a _ _ _ => [a]
  | .mulsub a _ _ _ => [a]
  | .inv a _ => [a]
  | .div a b _ _ _ _ => [a, b]
  | .reduce _ _ => []
  | .ctxinit _ => []
  | .mtrans _ _ => []
  | .mredc _ => []
  | .mulred _ _ _ => []
  | .sqrred _ _ => []
  | .mident _ => []
  | .mpowers _ _ => []
  | .select _ _ _ => []
  | .powmod _ _ _ => []

/-- The word address `a` lies in the slice of field `r`. -/
abbrev State.inSlice (s : State) (r : SReg) (a : Nat) : Prop :=
  (s.slice r).base ≤ a ∧ a < (s.slice r).base + (s.slice r).len

/-- The context constants CTXINIT installs (R37), the words of the modulus and of its shift included. -/
abbrev SameConstants (c d : Context) : Prop :=
  d.state = c.state ∧ d.k = c.k ∧ d.m = c.m ∧ d.ms = c.ms ∧ d.dinv = c.dinv ∧ d.ninv = c.ninv

/-! ## The invariant -/

/-- Rule R35's invariants of a READY context, with the derived words of rule R173. -/
abbrev Context.readyOk (c : Context) (kmax : Nat) : Prop :=
  1 ≤ c.k ∧ c.k ≤ kmax ∧
  validMod (c.m.readLimbs 0 c.k) = true ∧
  val (c.ms.readLimbs 0 (c.k + 1)) = val (c.m.readLimbs 0 c.k) * 2 ^ 16 ∧
  c.dinv.toNat + 2 ^ 32 = (2 ^ 64 - 1) / (c.m.read (c.k - 1)).toNat ∧
  (c.m.read 0).toNat * c.ninv.toNat % 2 ^ 32 = 0xFFFFFFFF

/-- The context is READY and holds a legal modulus with its constants: the state every successful CTXINIT leaves (R35). -/
abbrev State.contextReady (s : State) : Prop := s.ctx.state = .ready ∧ s.ctx.readyOk s.params.kmax

/-- The context: READY with rule R35's invariants, or UNINIT with its readable words zero (R33, R41). -/
abbrev Context.ok (c : Context) (kmax : Nat) : Prop :=
  (c.state = .ready → c.readyOk kmax) ∧
  (c.state = .uninit → c.k = 0 ∧ c.dinv = 0 ∧ c.ninv = 0)

/-- Every memory is in canonical form. -/
abbrev State.memoriesWf (s : State) : Prop :=
  s.lm.wf = true ∧ s.ctx.m.wf = true ∧ s.ctx.ms.wf = true ∧ s.ctx.scratch.wf = true ∧ s.ctx.table.wf = true

/-- Every draw number in use has been counted, so the next draw is a fresh one. -/
abbrev State.drawsCounted (s : State) : Prop :=
  s.lm.draw < s.draws ∧ s.ctx.m.draw < s.draws ∧ s.ctx.ms.draw < s.draws ∧ s.ctx.scratch.draw < s.draws ∧
  s.ctx.table.draw < s.draws ∧ ∀ d ∈ s.disturbance, d < s.draws

/-- `STATUS` and the command in flight: `ERR` reads 0 while BUSY (R31); nothing is left over while IDLE. -/
abbrev State.engineOk (s : State) : Prop :=
  (s.busy = true → s.err = .none) ∧ (s.busy = false → s.disturbance = none ∧ s.sdLate = [])

/-- The invariant of the machine. -/
abbrev State.Inv (s : State) : Prop :=
  s.params.legal = true ∧ s.memoriesWf ∧ s.ctx.ok s.params.kmax ∧ s.engineOk ∧ s.drawsCounted

end Sys2Proof.Machine
end

