-- ==== Sys2Proof/Certificates/Slice0/Obligations.lean ====
section
/-! DEFINITION. The statements about MMP, each from the numbered rules its docstring names. -/

open Sys2Proof Sys2Proof.Machine

/-! ## Encoding -/

/-- R90, R93, R94: decoding the word of a well-formed command gives that command back. -/
def Obligations.DecodeOfEncodeIsTheCommand : Prop :=
  ∀ i : Instr, i.wellFormed = true → decode (encode i) = .ok i

/-- R94, R96: a word that decodes is the word of the command it decodes to, so no two words mean one command, and no bit of
a legal word is ignored. -/
def Obligations.EncodeOfDecodeIsTheWord : Prop :=
  ∀ (w : Word) (i : Instr), decode w = .ok i → encode i = w ∧ i.wellFormed = true

/-- R93, R94, R96: a word is a command exactly when it matches a row's `match` under its `mask` and, for DIV, `A != B`. -/
def Obligations.DecodableWordsAreTheTableRows : Prop :=
  ∀ w : Word,
    (∃ i, decode w = .ok i) ↔
      ∃ r ∈ encodingRows, w &&& r.2 = r.1 ∧ (r.1 = 0x0A000000 → fieldA w ≠ fieldB w)

/-- R101: the ten encoding examples decode to the commands they stand for, and are their encodings. -/
def Obligations.EncodingExamplesDecode : Prop :=
  (decode 0x01608000 = .ok (.cmp 3 0 1) ∧ encode (.cmp 3 0 1) = 0x01608000) ∧
  (decode 0x02008000 = .ok (.add 0 0 1) ∧ encode (.add 0 0 1) = 0x02008000) ∧
  (decode 0x03298000 = .ok (.sub 1 2 3) ∧ encode (.sub 1 2 3) = 0x03298000) ∧
  (decode 0x0400A000 = .ok (.maskadd 0 0 1 2) ∧ encode (.maskadd 0 0 1 2) = 0x0400A000) ∧
  (decode 0x06408000 = .ok (.mul 2 0 1) ∧ encode (.mul 2 0 1) = 0x06408000) ∧
  (decode 0x09B00000 = .ok (.inv 5 4) ∧ encode (.inv 5 4) = 0x09B00000) ∧
  (decode 0x0A053940 = .ok (.div 0 1 2 3 4 5) ∧ encode (.div 0 1 2 3 4 5) = 0x0A053940) ∧
  (decode 0x10040000 = .ok (.reduce 0 1) ∧ encode (.reduce 0 1) = 0x10040000) ∧
  (decode 0x20E00000 = .ok (.ctxinit 7) ∧ encode (.ctxinit 7) = 0x20E00000) ∧
  (decode 0x28408000 = .ok (.powmod 2 0 1) ∧ encode (.powmod 2 0 1) = 0x28408000)

/-! ## The step -/

/-- R22, R94: when a command is in flight and the host waits or has nothing to do, the step is the decoded command's `exec`,
with the descriptor writes that waited for its end (R266). -/
def Obligations.StepRunsTheDecodedCommand : Prop :=
  ∀ (s : State) (i : Instr), s.busy = true → (s.input = [] ∨ ∃ rest, s.input = .wait :: rest) →
    decode s.cmd = .ok i → step s = settle (exec i s)

/-- R22, R32, R224: a write of any word to CMD while IDLE samples it, sets `BUSY` and clears `ERR`, and nothing else the spec
names changes.
With the host waiting or silent, the next step runs the command the word decodes to, or raises `ERR_ILLEGAL` where it
decodes to none. -/
def Obligations.CmdWriteWhileIdleIssuesTheCommand : Prop :=
  ∀ (s : State) (w : Word) (rest : List HostOp), s.busy = false → s.input = .regWrite 0 w :: rest →
    ∃ t, t = { s with input := rest, busy := true, err := .none, cmd := w, disturbance := none } ∧ step s = .next t ∧
      ((rest = [] ∨ ∃ later, rest = .wait :: later) →
        (∀ i, decode w = .ok i → step t = settle (exec i t)) ∧
        (∀ r, decode w = .illegal r → step t = .next ({ t with err := .illegal, busy := false }).settleSD))

/-- R224: an ILLEGAL word in flight ends with `ERR_ILLEGAL`, and nothing else the spec names changes. -/
def Obligations.IllegalWordRaisesErrIllegal : Prop :=
  ∀ (s : State) (r : IllegalWord), s.busy = true → (s.input = [] ∨ ∃ rest, s.input = .wait :: rest) →
    decode s.cmd = .illegal r →
    step s = .next ({ s with err := .illegal, busy := false, disturbance := none }).settleSD

/-- R239: an idle engine waits for a CMD write: with no host transaction nothing changes. -/
def Obligations.IdleEngineWaits : Prop :=
  ∀ s : State, s.busy = false → s.input = [] → step s = .next s

/-! ## The host's transactions while IDLE -/

/-- R31: the bits of STATUS. -/
def Obligations.StatusWordHasItsFields : Prop :=
  ∀ s : State,
    (s.statusWord.getLsbD 0 = true ↔ s.busy = true) ∧
    (s.statusWord.getLsbD 1 = true ↔ s.ctx.state = .ready) ∧
    s.statusWord.toNat / 4 % 4 = 0 ∧
    s.statusWord.toNat / 16 % 16 = s.err.code ∧
    s.statusWord.toNat / 256 = 0

/-- R29: what the host reads at every offset of the register window, and that the read changes nothing but the datum. -/
def Obligations.RegisterWindowReads : Prop :=
  ∀ (s : State) (off : Fin 32) (rest : List HostOp), s.busy = false → s.input = .regRead off :: rest →
    ∃ v, step s = .next { s with input := rest, hostData := some v } ∧
      (off = 0x00 → v = 0) ∧
      (off = 0x01 → v = s.statusWord) ∧
      (off = 0x02 → v.toNat = s.ctx.k % 2 ^ 16) ∧
      (off = 0x03 → v = s.ctx.dinv) ∧
      (off = 0x04 → v = s.ctx.ninv) ∧
      (0x05 ≤ off.val ∧ off.val ≤ 0x07 → v = 0) ∧
      (∀ r : XReg, off.val = 0x08 + r.val → v = s.getX r) ∧
      (∀ r : SReg, off.val = 0x10 + r.val → v = s.getSD r) ∧
      (0x18 ≤ off.val → v = 0)

/-- R29: what a host write to every offset of the register window but CMD does: `X` and `SD` are stored, the rest ignored. -/
def Obligations.RegisterWindowWrites : Prop :=
  ∀ (s : State) (off : Fin 32) (v : Word) (rest : List HostOp), s.busy = false → s.input = .regWrite off v :: rest →
    (∀ r : XReg, off.val = 0x08 + r.val → step s = .next ({ s with input := rest }.setX r v)) ∧
    (∀ r : SReg, off.val = 0x10 + r.val → step s = .next ({ s with input := rest }.setSD r v)) ∧
    (1 ≤ off.val ∧ off.val ≤ 7 → step s = .next { s with input := rest }) ∧
    (0x18 ≤ off.val → step s = .next { s with input := rest })

/-- R23, R30, R65: while IDLE the host reads any word of LM as it stands, whoever wrote it last, with no side effect; a word
it writes holds what it wrote, and every other word is left alone.
What a word reads as that nothing has written is the model's choice, a free value (log entry 5). -/
def Obligations.LimbMemoryHoldsWhatTheHostWrote : Prop :=
  ∀ (s : State) (a : Nat) (rest : List HostOp), s.busy = false → a < s.params.lmWords →
    (s.input = .lmRead a :: rest → step s = .next { s with input := rest, hostData := some (s.lm.read a) }) ∧
    (∀ v, s.input = .lmWrite a v :: rest →
      ∃ t, step s = .next t ∧ (∀ b, t.lm.read b = if b = a then v else s.lm.read b) ∧
        t = { s with input := rest, lm := t.lm } ∧
        ∀ later, rest = .lmRead a :: later → step t = .next { t with input := later, hostData := some v })

/-- R23: outside LM the block does not respond to the host. -/
def Obligations.HostAccessOutsideLimbMemoryStops : Prop :=
  ∀ (s : State) (a : Nat) (v : Word) (rest : List HostOp), s.params.lmWords ≤ a →
    (s.input = .lmRead a :: rest → step s = .fault (.hostOutsideLM a)) ∧
    (s.input = .lmWrite a v :: rest → step s = .fault (.hostOutsideLM a))

/-! ## The host while BUSY -/

/-- R267: a write to CMD while BUSY is dropped. -/
def Obligations.CmdWriteWhileBusyIsDropped : Prop :=
  ∀ (s : State) (w : Word) (rest : List HostOp), s.busy = true → s.input = .regWrite 0 w :: rest →
    step s = .next { s with input := rest }

/-- R266: a descriptor write while BUSY does not reach the command in flight, which runs on the old descriptors; it holds
once that command has ended. -/
def Obligations.DescriptorWriteWhileBusyTakesEffectAfterTheCommand : Prop :=
  ∀ (s : State) (r : SReg) (off : Fin 32) (v : Word) (i : Instr), s.busy = true → off.val = 0x10 + r.val →
    s.input = [.regWrite off v] → decode s.cmd = .ok i →
    ∃ t e u, step s = .next t ∧ (∀ q, t.getSD q = s.getSD q) ∧ exec i t = .next e ∧ step t = .next u ∧
      u.getSD r = v ∧ u.lm = e.lm ∧ u.x = e.x ∧ u.ctx = e.ctx ∧ u.err = e.err

/-- R65, R266: while BUSY, STATUS reads exactly and shows `BUSY = 1`; a read of another register or of a word of LM changes
nothing but the datum the host gets, which the spec leaves unspecified (log entry 12). -/
def Obligations.ReadsWhileBusy : Prop :=
  ∀ (s : State) (rest : List HostOp), s.busy = true →
    (s.input = .regRead 1 :: rest →
      step s = .next { s with input := rest, hostData := some s.statusWord } ∧ s.statusWord.getLsbD 0 = true) ∧
    (∀ off : Fin 32, off ≠ 1 → s.input = .regRead off :: rest →
      ∃ v d, step s = .next { s with input := rest, hostData := some v, draws := d }) ∧
    (∀ a, a < s.params.lmWords → s.input = .lmRead a :: rest →
      ∃ v d, step s = .next { s with input := rest, hostData := some v, draws := d })

/-- R266: a host write to an `X` register or to LM while BUSY touches no other register and no other word. -/
def Obligations.WritesWhileBusyTouchOnlyTheirWord : Prop :=
  ∀ (s : State) (v : Word) (rest : List HostOp), s.busy = true →
    (∀ (r : XReg) (off : Fin 32), off.val = 0x08 + r.val → s.input = .regWrite off v :: rest →
      ∃ t, step s = .next t ∧ t.lm = s.lm ∧ t.sd = s.sd ∧ t.ctx = s.ctx ∧ t.cmd = s.cmd ∧ t.busy = true ∧
        ∀ q, q ≠ r → t.getX q = s.getX q) ∧
    (∀ a, a < s.params.lmWords → s.input = .lmWrite a v :: rest →
      ∃ t, step s = .next t ∧ t.x = s.x ∧ t.sd = s.sd ∧ t.ctx = s.ctx ∧ t.cmd = s.cmd ∧ t.busy = true ∧
        ∀ b, b ≠ a → t.lm.read b = s.lm.read b)

/-! ## Reset -/

/-- R41, R260, R6: the values after reset that the spec gives, for a block with any parameters. -/
def Obligations.ResetLeavesTheStatedValues : Prop :=
  State.reset = State.resetWith { lmWords := 4096, kmax := 128 } ∧
  ∀ p : Params,
    (State.resetWith p).busy = false ∧ (State.resetWith p).err = .none ∧ (State.resetWith p).statusWord = 0 ∧
    (State.resetWith p).ctx.state = .uninit ∧ (State.resetWith p).ctx.k = 0 ∧ (State.resetWith p).ctx.dinv = 0 ∧
    (State.resetWith p).ctx.ninv = 0 ∧ (∀ r : XReg, (State.resetWith p).getX r = 0) ∧
    (∀ r : SReg, (State.resetWith p).getSD r = 0)

/-- R260, R262: the reset input in a later state gives the registers those values again, and LM, the scratch and the power
table keep whatever they held (that LM does is log entry 10). -/
def Obligations.ResetInputKeepsLimbMemoryWhileIdle : Prop :=
  ∀ (s : State) (rest : List HostOp), s.busy = false → s.input = .reset :: rest →
    ∃ t, step s = .next t ∧ t.busy = false ∧ t.err = .none ∧ t.ctx.state = .uninit ∧ t.ctx.k = 0 ∧ t.ctx.dinv = 0 ∧
      t.ctx.ninv = 0 ∧ (∀ r : XReg, t.getX r = 0) ∧ (∀ r : SReg, t.getSD r = 0) ∧ (∀ a, t.lm.read a = s.lm.read a) ∧
      t.ctx.scratch = s.ctx.scratch ∧ t.ctx.table = s.ctx.table

/-- R261, R262: reset while BUSY abandons the command in flight; only the slices that command could write are disturbed in
LM, the scratch only by a context command and the power table only by POWMOD (log entry 10), and the context is UNINIT
whatever the command was.
An ILLEGAL word in flight disturbs nothing. -/
def Obligations.ResetWhileBusyDisturbsOnlyTheWrittenSlices : Prop :=
  ∀ (s : State) (rest : List HostOp), s.busy = true → s.input = .reset :: rest →
    ∃ t, step s = .next t ∧ t.busy = false ∧ t.err = .none ∧ t.ctx.state = .uninit ∧ t.ctx.k = 0 ∧ t.ctx.dinv = 0 ∧
      t.ctx.ninv = 0 ∧ (∀ r : XReg, t.getX r = 0) ∧ (∀ r : SReg, t.getSD r = 0) ∧
      (∀ i, decode s.cmd = .ok i →
        (∀ a, (∀ r ∈ writtenFields i, ¬ s.inSlice r a) → t.lm.read a = s.lm.read a) ∧
        (writesScratch i = false → t.ctx.scratch = s.ctx.scratch) ∧
        (writesTable i = false → t.ctx.table = s.ctx.table)) ∧
      (∀ r, decode s.cmd = .illegal r →
        t.lm = s.lm ∧ t.ctx.scratch = s.ctx.scratch ∧ t.ctx.table = s.ctx.table)

/-! ## The invariant -/

/-- R35, R31, R6: the invariant holds right after reset, for every block whose parameters lie in rule R6's ranges. -/
def Obligations.ResetMeetsTheInvariant : Prop :=
  State.reset.Inv ∧ ∀ p : Params, p.legal = true → (State.resetWith p).Inv

/-- R35, R31: from every state that meets the invariant, a step gives a state that meets it: the context constants keep rule
R35's equations, `ERR` reads 0 while BUSY, every memory stays in canonical form.
Two clauses rest on the model's choices: the canonical form on log entry 1, and rule R35's equations after a CTXINIT the
host has disturbed against rule R266 on log entry 8 (DEDUCED, unsafe for such runs). -/
def Obligations.StepKeepsTheInvariant : Prop :=
  ∀ s t : State, s.Inv → step s = .next t → t.Inv

/-! ## Errors -/

/-- R222: a command that ends with an error has changed nothing else the spec names. -/
def Obligations.ErrorChangesNothingElse : Prop :=
  ∀ (i : Instr) (s t : State), exec i s = .next t → t.err ≠ .none →
    t = { s with err := t.err, busy := false, disturbance := none }

/-- R229: which errors each command can raise. -/
def Obligations.ErrorsByCommand : Prop :=
  ∀ (i : Instr) (s t : State), exec i s = .next t → t.err ≠ .none →
    match i with
    | .inv _ _ | .div _ _ _ _ _ _ => False
    | .ctxinit _ =>
      t.err = .modEmpty ∨ t.err = .len ∨ t.err = .range ∨ t.err = .modEven ∨ t.err = .modUnnorm
    | .mtrans _ _ | .mredc _ | .mulred _ _ _ | .sqrred _ _ | .mident _ | .mpowers _ _ | .select _ _ _
    | .powmod _ _ _ => t.err = .noctx ∨ t.err = .len ∨ t.err = .range
    | _ => t.err = .len ∨ t.err = .range

/-- R225: the context commands before the first successful CTXINIT. -/
def Obligations.ContextCommandsNeedAContext : Prop :=
  ∀ (i : Instr) (s : State), s.ctx.state = .uninit →
    (match i with
      | .mtrans _ _ | .mredc _ | .mulred _ _ _ | .sqrred _ _ | .mident _ | .mpowers _ _ | .select _ _ _
      | .powmod _ _ _ => True
      | _ => False) →
    exec i s = .next { s with err := .noctx, busy := false, disturbance := none }

/-- R22, R277: every command ends, with `BUSY = 0`, in every state. -/
def Obligations.EveryCommandEnds : Prop :=
  ∀ (i : Instr) (s : State), ∃ t, exec i s = .next t ∧ t.busy = false

/-- R131, R233: a command that passes its checks ends with `ERR_NONE` whatever its operand values are. -/
def Obligations.BrokenContractIsNoError : Prop :=
  ∀ (i : Instr) (s : State), s.publicCheck i = none → (∀ a, i ≠ .ctxinit a) → ∃ t, Succeeds i s t

/-- R278, R223: what decides an error is public: two states that agree on `SD`, `CTX.STATE`, `CTX.K` and the parameters,
and for CTXINIT on the outcome of its test of the modulus, end the command with the same error code. -/
def Obligations.ErrorsDependOnPublicValuesOnly : Prop :=
  ∀ (i : Instr) (s s' t t' : State),
    s.sd = s'.sd → s.ctx.state = s'.ctx.state → s.ctx.k = s'.ctx.k → s.params = s'.params →
    (∀ a, i = .ctxinit a → isOdd (s.modulusRead (s.slice a)) = isOdd (s'.modulusRead (s'.slice a)) ∧
      normalized (s.modulusRead (s.slice a)) = normalized (s'.modulusRead (s'.slice a))) →
    exec i s = .next t → exec i s' = .next t' → t.err = t'.err

/-! ## Containment: the frame of every command (R270) -/

/-- R270, R25: no command changes a descriptor register, an `X` register that is not its destination, the parameters, or
what the host has put beside the machine. -/
def Obligations.CommandsWriteOnlyTheirDestinationRegisters : Prop :=
  ∀ (i : Instr) (s t : State), exec i s = .next t →
    (∀ r : SReg, t.getSD r = s.getSD r) ∧ (∀ r : XReg, r ∉ destX i → t.getX r = s.getX r) ∧
    t.params = s.params ∧ t.cmd = s.cmd ∧ t.sdLate = s.sdLate ∧ t.hostData = s.hostData ∧ t.input = s.input

/-- R270, R68: a command writes no word of LM outside the slices of its "written" column, whatever its operand values. -/
def Obligations.CommandsWriteOnlyTheirWrittenSlices : Prop :=
  ∀ (i : Instr) (s t : State), exec i s = .next t →
    ∀ a, (∀ r ∈ writtenFields i, ¬ s.inSlice r a) → t.lm.read a = s.lm.read a

/-- R36, R37, R39, R120, R160, R222, R270: between two successful CTXINIT commands no command writes the context's
constants, a CTXINIT that fails among them; a command that is no context command, or that fails, leaves all of the context
alone; and only POWMOD touches the power table. -/
def Obligations.OnlyCtxinitWritesTheContextConstants : Prop :=
  ∀ (i : Instr) (s t : State), exec i s = .next t →
    ((∀ a, i ≠ .ctxinit a) ∨ t.err ≠ .none → SameConstants s.ctx t.ctx) ∧
    (writesScratch i = false ∨ t.err ≠ .none → t.ctx = s.ctx) ∧
    ((∀ a b c, i ≠ .powmod a b c) → t.ctx.table = s.ctx.table)

/-! ## The Limb Kernel -/

/-- R122: CMP. -/
def Obligations.CmpComparesUnsigned : Prop :=
  ∀ (a : XReg) (b c : SReg) (s : State),
    SliceErrors (.cmp a b c) s [b, c] ((s.slice b).len = (s.slice c).len) ∧
    (s.accepts [b, c] ((s.slice b).len = (s.slice c).len) → s.undisturbed →
      exec (.cmp a b c) s =
        .next ((s.setX a
          (if s.operandVal b < s.operandVal c then 0xFFFFFFFF
           else if s.operandVal b = s.operandVal c then 0 else 1)).succeed))

/-- R124: ADD. -/
def Obligations.AddSumsInPlaceAndReportsTheCarry : Prop :=
  ∀ (a : XReg) (b c : SReg) (s : State),
    SliceErrors (.add a b c) s [b, c] ((s.slice b).len = (s.slice c).len) ∧
    (s.accepts [b, c] ((s.slice b).len = (s.slice c).len) → s.undisturbed → s.unmixed b c →
      ∃ (sum : List Word) (carry : Nat), sum.length = (s.slice b).len ∧ carry ≤ 1 ∧
        val sum + carry * 2 ^ (32 * (s.slice b).len) = s.operandVal b + s.operandVal c ∧
        exec (.add a b c) s =
          .next (((s.writeLM (s.slice b).base sum).setX a (BitVec.ofNat 32 carry)).succeed))

/-- R126: SUB. -/
def Obligations.SubDiffersInPlaceAndReportsTheBorrow : Prop :=
  ∀ (a : XReg) (b c : SReg) (s : State),
    SliceErrors (.sub a b c) s [b, c] ((s.slice b).len = (s.slice c).len) ∧
    (s.accepts [b, c] ((s.slice b).len = (s.slice c).len) → s.undisturbed → s.unmixed b c →
      ∃ diff : List Word, diff.length = (s.slice b).len ∧
        (val diff : Int) = ((s.operandVal b : Int) - (s.operandVal c : Int)) % 2 ^ (32 * (s.slice b).len) ∧
        exec (.sub a b c) s =
          .next (((s.writeLM (s.slice b).base diff).setX a
            (if s.operandVal b < s.operandVal c then 0xFFFFFFFF else 0)).succeed))

/-- R128: MASKADD is ADD under the all-one mask, and rewrites the augend with carry 0 under the zero mask. -/
def Obligations.MaskaddAddsUnderItsMask : Prop :=
  ∀ (a : XReg) (b c : SReg) (d : XReg) (s : State),
    SliceErrors (.maskadd a b c d) s [b, c] ((s.slice b).len = (s.slice c).len) ∧
    (s.getX d = 0xFFFFFFFF → exec (.maskadd a b c d) s = exec (.add a b c) s) ∧
    (s.accepts [b, c] ((s.slice b).len = (s.slice c).len) → s.undisturbed → s.unmixed b c → s.getX d = 0 →
      exec (.maskadd a b c d) s = .next (((s.writeLM (s.slice b).base (s.operand b)).setX a 0).succeed))

/-- R130: MASKSUB is SUB under the all-one mask, and rewrites the minuend with borrow 0 under the zero mask. -/
def Obligations.MasksubSubtractsUnderItsMask : Prop :=
  ∀ (a : XReg) (b c : SReg) (d : XReg) (s : State),
    SliceErrors (.masksub a b c d) s [b, c] ((s.slice b).len = (s.slice c).len) ∧
    (s.getX d = 0xFFFFFFFF → exec (.masksub a b c d) s = exec (.sub a b c) s) ∧
    (s.accepts [b, c] ((s.slice b).len = (s.slice c).len) → s.undisturbed → s.unmixed b c → s.getX d = 0 →
      exec (.masksub a b c d) s = .next (((s.writeLM (s.slice b).base (s.operand b)).setX a 0).succeed))

/-- R132, R133: MUL. -/
def Obligations.MulIsTheExactProduct : Prop :=
  ∀ (a b c : SReg) (s : State),
    SliceErrors (.mul a b c) s [a, b, c] ((s.slice b).len + (s.slice c).len ≤ (s.slice a).len) ∧
    (s.accepts [a, b, c] ((s.slice b).len + (s.slice c).len ≤ (s.slice a).len) → s.undisturbed →
      s.apart a b → s.apart a c →
      ∃ prod : List Word, prod.length = (s.slice a).len ∧ val prod = s.operandVal b * s.operandVal c ∧
        exec (.mul a b c) s = .next ((s.writeLM (s.slice a).base prod).succeed))

/-- R135, R136: MULADD, exact, with an overflow that fits one limb. -/
def Obligations.MuladdAccumulatesAndReportsTheOverflow : Prop :=
  ∀ (a : XReg) (b c : SReg) (d : XReg) (s : State),
    SliceErrors (.muladd a b c d) s [b, c] ((s.slice b).len = (s.slice c).len) ∧
    (s.accepts [b, c] ((s.slice b).len = (s.slice c).len) → s.undisturbed → s.unmixed b c →
      ∃ (aug : List Word) (ovf : Word), aug.length = (s.slice b).len ∧
        val aug + ovf.toNat * 2 ^ (32 * (s.slice b).len) =
          s.operandVal b + s.operandVal c * (s.getX d).toNat ∧
        ovf.toNat = (s.operandVal b + s.operandVal c * (s.getX d).toNat) / 2 ^ (32 * (s.slice b).len) ∧
        exec (.muladd a b c d) s = .next (((s.writeLM (s.slice b).base aug).setX a ovf).succeed))

/-- R138, R139: MULSUB, exact, with the signed overflow in `-(2^32 - 1) .. 0` and how software recovers it. -/
def Obligations.MulsubSubtractsAndReportsTheSignedOverflow : Prop :=
  ∀ (a : XReg) (b c : SReg) (d : XReg) (s : State),
    SliceErrors (.mulsub a b c d) s [b, c] ((s.slice b).len = (s.slice c).len) ∧
    (s.accepts [b, c] ((s.slice b).len = (s.slice c).len) → s.undisturbed → s.unmixed b c →
      ∃ (min : List Word) (ovf : Int), min.length = (s.slice b).len ∧ -(2 ^ 32 - 1) ≤ ovf ∧ ovf ≤ 0 ∧
        ovf = (if BitVec.ofInt 32 ovf = 0 then 0 else ((BitVec.ofInt 32 ovf).toNat : Int) - 2 ^ 32) ∧
        (val min : Int) + ovf * 2 ^ (32 * (s.slice b).len) =
          (s.operandVal b : Int) - (s.operandVal c : Int) * ((s.getX d).toNat : Int) ∧
        exec (.mulsub a b c d) s =
          .next (((s.writeLM (s.slice b).base min).setX a (BitVec.ofInt 32 ovf)).succeed))

/-- R142, R143: INV. -/
def Obligations.InvIsTheReciprocal : Prop :=
  ∀ (a b : XReg) (s : State), s.undisturbed → 2 ^ 31 ≤ (s.getX b).toNat →
    ∃ v : Word, v.toNat + 2 ^ 32 = (2 ^ 64 - 1) / (s.getX b).toNat ∧ 1 ≤ v.toNat ∧
      exec (.inv a b) s = .next ((s.setX a v).succeed)

/-- R145, R147: DIV. -/
def Obligations.DivIsQuotientAndRemainder : Prop :=
  ∀ (a b c d e f : XReg) (s : State), a ≠ b → s.undisturbed → 2 ^ 31 ≤ (s.getX e).toNat →
    (s.getX f).toNat + 2 ^ 32 = (2 ^ 64 - 1) / (s.getX e).toNat → (s.getX c).toNat < (s.getX e).toNat →
    ∃ q r : Word,
      q.toNat * (s.getX e).toNat + r.toNat = (s.getX c).toNat * 2 ^ 32 + (s.getX d).toNat ∧
      r.toNat < (s.getX e).toNat ∧
      exec (.div a b c d e f) s = .next (((s.setX a q).setX b r).succeed)

/-! ## The Multi-limb Reduction -/

/-- R161: REDUCE. -/
def Obligations.ReduceLeavesTheRemainder : Prop :=
  ∀ (a b : SReg) (s : State),
    SliceErrors (.reduce a b) s [a, b] ((s.slice b).len < (s.slice a).len) ∧
    (s.accepts [a, b] ((s.slice b).len < (s.slice a).len) → s.undisturbed → s.apart a b →
      normalized (s.operand b) = true → isOdd (s.operand b) = true →
      ∃ rem : List Word, rem.length = (s.slice b).len ∧ val rem = s.operandVal a % s.operandVal b ∧
        exec (.reduce a b) s =
          .next ((s.writeLM (s.slice a).base
            (rem ++ List.replicate ((s.slice a).len - (s.slice b).len) 0)).succeed))

/-! ## The Montgomery Modulus Context -/

/-- R172, R223, R228: CTXINIT, its errors in their order and the context it installs. -/
def Obligations.CtxinitChecksThenInstallsTheContext : Prop :=
  ∀ (a : SReg) (s : State),
    ((s.slice a).len = 0 → Raises (.ctxinit a) s .modEmpty) ∧
    (1 ≤ (s.slice a).len → s.params.kmax < (s.slice a).len → Raises (.ctxinit a) s .len) ∧
    (1 ≤ (s.slice a).len → (s.slice a).len ≤ s.params.kmax →
      s.params.lmWords < (s.slice a).base + (s.slice a).len → Raises (.ctxinit a) s .range) ∧
    (s.legalSlice a → (s.slice a).len ≤ s.params.kmax → s.undisturbed →
      (isOdd (s.operand a) = false → Raises (.ctxinit a) s .modEven) ∧
      (isOdd (s.operand a) = true → normalized (s.operand a) = false → Raises (.ctxinit a) s .modUnnorm) ∧
      (isOdd (s.operand a) = true → normalized (s.operand a) = true →
        ∃ t, Succeeds (.ctxinit a) s t ∧ t.ctx.state = .ready ∧ t.ctx.k = (s.slice a).len ∧
          t.ctx.m.readLimbs 0 t.ctx.k = s.operand a ∧
          val (t.ctx.ms.readLimbs 0 (t.ctx.k + 1)) = s.operandVal a * 2 ^ 16 ∧
          t.ctx.dinv.toNat + 2 ^ 32 = (2 ^ 64 - 1) / ((s.operand a).getLastD 0).toNat ∧
          ((s.operand a).headD 0).toNat * t.ctx.ninv.toNat % 2 ^ 32 = 0xFFFFFFFF ∧
          t.lm = s.lm ∧ t.x = s.x ∧ t.sd = s.sd))

/-- R176: MTRANS. -/
def Obligations.MtransMapsIntoMontgomeryForm : Prop :=
  ∀ (a b : SReg) (s : State),
    ContextErrors (.mtrans a b) s [a, b] ((s.slice a).len = s.ctx.k ∧ (s.slice b).len = s.ctx.k) ∧
    (s.contextReady → s.accepts [a, b] ((s.slice a).len = s.ctx.k ∧ (s.slice b).len = s.ctx.k) → s.undisturbed →
      s.unmixed a b → s.operandVal b < s.modVal →
      ∃ res : List Word, res.length = s.ctx.k ∧ val res = s.operandVal b * 2 ^ (32 * s.ctx.k) % s.modVal ∧
        exec (.mtrans a b) s = .next ((s.writeLM (s.slice a).base res).spoilScratch.succeed))

/-- R180, R183: MREDC: the low half holds the residue `r` below `M` with `r * R = T` modulo `M`, and outside the slice and
the scratch nothing changes; the high half is left free. -/
def Obligations.MredcLandsTheReducedValue : Prop :=
  ∀ (a : SReg) (s : State),
    ContextErrors (.mredc a) s [a] ((s.slice a).len = 2 * s.ctx.k) ∧
    (s.contextReady → s.accepts [a] ((s.slice a).len = 2 * s.ctx.k) → s.undisturbed →
      s.operandVal a < s.modVal * 2 ^ (32 * s.ctx.k) →
      ∃ t, Succeeds (.mredc a) s t ∧
        val (t.lm.readLimbs (s.slice a).base s.ctx.k) < s.modVal ∧
        val (t.lm.readLimbs (s.slice a).base s.ctx.k) * 2 ^ (32 * s.ctx.k) ≡ s.operandVal a [MOD s.modVal] ∧
        t.x = s.x ∧ t.sd = s.sd ∧ SameConstants s.ctx t.ctx ∧ ∀ b, ¬ s.inSlice a b → t.lm.read b = s.lm.read b)

/-- R184: MULRED: the residue `r` below `M` with `r * R = a * b` modulo `M`. -/
def Obligations.MulredMultipliesInMontgomeryForm : Prop :=
  ∀ (a b c : SReg) (s : State),
    ContextErrors (.mulred a b c) s [a, b, c]
      ((s.slice a).len = s.ctx.k ∧ (s.slice b).len = s.ctx.k ∧ (s.slice c).len = s.ctx.k) ∧
    (s.contextReady →
      s.accepts [a, b, c] ((s.slice a).len = s.ctx.k ∧ (s.slice b).len = s.ctx.k ∧ (s.slice c).len = s.ctx.k) →
      s.undisturbed → s.unmixed a b → s.unmixed a c → s.unmixed b c →
      s.operandVal b < s.modVal → s.operandVal c < s.modVal →
      ∃ res : List Word, res.length = s.ctx.k ∧ val res < s.modVal ∧
        val res * 2 ^ (32 * s.ctx.k) ≡ s.operandVal b * s.operandVal c [MOD s.modVal] ∧
        exec (.mulred a b c) s = .next ((s.writeLM (s.slice a).base res).spoilScratch.succeed))

/-- R188: SQRRED is, in every state, bit for bit `MULRED sA, sB, sB`, and so squares in Montgomery form. -/
def Obligations.SqrredIsMulredOfTheValueWithItself : Prop :=
  ∀ (a b : SReg) (s : State),
    exec (.sqrred a b) s = exec (.mulred a b b) s ∧
    ContextErrors (.sqrred a b) s [a, b] ((s.slice a).len = s.ctx.k ∧ (s.slice b).len = s.ctx.k) ∧
    (s.contextReady → s.accepts [a, b] ((s.slice a).len = s.ctx.k ∧ (s.slice b).len = s.ctx.k) → s.undisturbed →
      s.unmixed a b → s.operandVal b < s.modVal →
      ∃ res : List Word, res.length = s.ctx.k ∧ val res < s.modVal ∧
        val res * 2 ^ (32 * s.ctx.k) ≡ s.operandVal b * s.operandVal b [MOD s.modVal] ∧
        exec (.sqrred a b) s = .next ((s.writeLM (s.slice a).base res).spoilScratch.succeed))

/-- R192, R193: MIDENT. -/
def Obligations.MidentIsTheMontgomeryOne : Prop :=
  ∀ (a : SReg) (s : State),
    ContextErrors (.mident a) s [a] ((s.slice a).len = s.ctx.k) ∧
    (s.contextReady → s.accepts [a] ((s.slice a).len = s.ctx.k) → s.undisturbed →
      ∃ res : List Word, res.length = s.ctx.k ∧ val res + s.modVal = 2 ^ (32 * s.ctx.k) ∧
        val res = 2 ^ (32 * s.ctx.k) % s.modVal ∧ 0 < val res ∧ val res < s.modVal ∧
        exec (.mident a) s = .next ((s.writeLM (s.slice a).base res).spoilScratch.succeed))

/-- R195, R196: MPOWERS: row `i` of the table is `base^i` in Montgomery form. -/
def Obligations.MpowersFillsTheTableWithPowers : Prop :=
  ∀ (a b : SReg) (s : State),
    ContextErrors (.mpowers a b) s [a, b]
      ((s.slice b).len = s.ctx.k ∧ s.ctx.k ≤ (s.slice a).len ∧ (s.slice a).len % s.ctx.k = 0) ∧
    (s.contextReady →
      s.accepts [a, b] ((s.slice b).len = s.ctx.k ∧ s.ctx.k ≤ (s.slice a).len ∧ (s.slice a).len % s.ctx.k = 0) →
      s.undisturbed → s.apart a b → s.operandVal b < s.modVal →
      ∃ table : List Word, table.length = (s.slice a).len ∧
        exec (.mpowers a b) s = .next ((s.writeLM (s.slice a).base table).spoilScratch.succeed) ∧
        ∀ i < (s.slice a).len / s.ctx.k,
          val ((table.drop (i * s.ctx.k)).take s.ctx.k) =
            s.operandVal b ^ i * 2 ^ (32 * s.ctx.k) % s.modVal)

/-- R200: SELECT: the row of the index, or zeros when there is no such row. -/
def Obligations.SelectCopiesTheIndexedRow : Prop :=
  ∀ (a b : SReg) (c : XReg) (s : State),
    ContextErrors (.select a b c) s [a, b]
      ((s.slice a).len = s.ctx.k ∧ s.ctx.k ≤ (s.slice b).len ∧ (s.slice b).len % s.ctx.k = 0) ∧
    (s.ctx.state = .ready →
      s.accepts [a, b] ((s.slice a).len = s.ctx.k ∧ s.ctx.k ≤ (s.slice b).len ∧ (s.slice b).len % s.ctx.k = 0) →
      s.undisturbed → s.apart a b →
      exec (.select a b c) s =
        .next ((s.writeLM (s.slice a).base
          (if (s.getX c).toNat < (s.slice b).len / s.ctx.k
           then s.lm.readLimbs ((s.slice b).base + (s.getX c).toNat * s.ctx.k) s.ctx.k
           else List.replicate s.ctx.k 0)).spoilScratch.succeed))

/-- R205: the Montgomery round trip, as commands. -/
def Obligations.MontgomeryRoundTrip : Prop :=
  ∀ (a b c : SReg) (s : State), s.contextReady → s.undisturbed →
    s.accepts [a, b, c] ((s.slice a).len = s.ctx.k ∧ (s.slice b).len = s.ctx.k ∧ (s.slice c).len = 2 * s.ctx.k) →
    (s.slice c).base = (s.slice a).base → s.unmixed a b → s.operandVal b < s.modVal →
    s.lm.readLimbs ((s.slice a).base + s.ctx.k) s.ctx.k = List.replicate s.ctx.k 0 →
    ∃ t u, Succeeds (.mtrans a b) s t ∧ Succeeds (.mredc c) t u ∧
      u.lm.readLimbs (s.slice a).base s.ctx.k = s.operand b

/-! ## Modular exponentiation -/

/-- R210, R212, R217, R218, with R223, R266 and R268: POWMOD; the scratch and the table are left free (log entry 16). -/
def Obligations.PowmodIsModularExponentiation : Prop :=
  ∀ (a b c : SReg) (s : State),
    ContextErrors (.powmod a b c) s [a, b, c] ((s.slice a).len = s.ctx.k ∧ (s.slice b).len = s.ctx.k) ∧
    (s.contextReady → s.accepts [a, b, c] ((s.slice a).len = s.ctx.k ∧ (s.slice b).len = s.ctx.k) → s.undisturbed →
      s.unmixed a b → s.unmixed a c → s.unmixed b c → s.operandVal b < s.modVal →
      ∃ res : List Word, res.length = s.ctx.k ∧ val res = s.operandVal b ^ s.operandVal c % s.modVal ∧
        exec (.powmod a b c) s = .next ((s.writeLM (s.slice a).base res).spoilScratch.spoilTable.succeed))

/-! ## The algorithms of the spec give the results of its rules -/

/-- R146, R145: the estimate with three correction rounds gives the quotient and the remainder. -/
def Obligations.CorrectedEstimateIsTheQuotient : Prop :=
  ∀ n1 n0 d dinv : Word, 2 ^ 31 ≤ d.toNat → dinv.toNat + 2 ^ 32 = (2 ^ 64 - 1) / d.toNat → n1.toNat < d.toNat →
    divReference n1 n0 d dinv =
      ((n1.toNat * 2 ^ 32 + n0.toNat) / d.toNat, (((n1.toNat * 2 ^ 32 + n0.toNat) % d.toNat : Nat) : Int))

/-- R181, R180: the word-by-word reduction with one masked subtraction lands on rule R180's value. -/
def Obligations.WordwiseReductionIsRedc : Prop :=
  ∀ (m v : List Word) (ninv : Word), validMod m = true → v.length = 2 * m.length →
    (m.headD 0).toNat * ninv.toNat % 2 ^ 32 = 0xFFFFFFFF → val v < val m * bigR m.length →
    (redcReference m ninv v).length = m.length ∧ val (redcReference m ninv v) = redc m.length (val m) (val v)

/-- R185, R184: the fused multiply and reduce gives rule R184's value. -/
def Obligations.FusedMultiplyReduceIsMontgomeryProduct : Prop :=
  ∀ (m a b : List Word) (ninv : Word), validMod m = true → a.length = m.length → b.length = m.length →
    (m.headD 0).toNat * ninv.toNat % 2 ^ 32 = 0xFFFFFFFF → val a < val m → val b < val m →
    (fusedReference m ninv a b).length = m.length ∧
      val (fusedReference m ninv a b) = montMul m.length (val m) (val a) (val b)

/-- R213, R212: the fixed-window method gives the modular power. -/
def Obligations.FixedWindowMethodIsModularPower : Prop :=
  ∀ (m ex : List Word) (base : Nat), validMod m = true → 1 ≤ ex.length → base < val m →
    windowReference m.length (val m) base (val ex) ex.length = base ^ val ex % val m

/-! ## The correctness property of the kernel -/

/-- R151: for arrays of one length, the functions the kernel commands run, their reports in the register forms of rule R121,
agree with arithmetic on integers. -/
def Obligations.KernelFunctionsAgreeWithIntegers : Prop :=
  ∀ (a b : List Word) (l : Word), a.length = b.length → KernelAgrees a b l

/-- R151, as a program sees it: what ADD, SUB, MULADD, MULSUB and MUL leave in LM and in `X[A]`, read back as integers, is
the sum, difference or product of the integers the slices held before. -/
def Obligations.KernelResultsReadBackAsIntegers : Prop :=
  ∀ (a : XReg) (b c q : SReg) (d : XReg) (s : State),
    s.accepts [b, c] ((s.slice b).len = (s.slice c).len) → s.undisturbed →
    (s.unmixed b c →
      (∃ t, Succeeds (.add a b c) s t ∧
        t.operandVal b + (t.getX a).toNat * bigR (s.slice b).len = s.operandVal b + s.operandVal c) ∧
      (∃ t, Succeeds (.sub a b c) s t ∧
        (t.operandVal b : Int) - borrowOf (t.getX a) * bigR (s.slice b).len = s.operandVal b - s.operandVal c) ∧
      (∃ t, Succeeds (.muladd a b c d) s t ∧
        t.operandVal b + (t.getX a).toNat * bigR (s.slice b).len =
          s.operandVal b + s.operandVal c * (s.getX d).toNat) ∧
      (∃ t, Succeeds (.mulsub a b c d) s t ∧
        (t.operandVal b : Int) + signedOverflowOf (t.getX a) * bigR (s.slice b).len =
          s.operandVal b - s.operandVal c * (s.getX d).toNat)) ∧
    (s.legalSlice q → (s.slice b).len + (s.slice c).len ≤ (s.slice q).len → s.apart q b → s.apart q c →
      ∃ t, Succeeds (.mul q b c) s t ∧ t.operandVal q = s.operandVal b * s.operandVal c)
end

