-- ==== Sys2Proof/Laws/Memory.lean ====
section
/-! SUPPORT. Laws of a memory of words: read after write, what a write leaves alone, and that every write keeps the
canonical form. -/

namespace Sys2Proof.Machine

theorem lookupCell_insertCell (a b : Nat) (v : Word) (cs : List (Nat × Word)) :
    lookupCell (insertCell a v cs) b = if b = a then some v else lookupCell cs b := by
  induction cs with
  | nil => simp [insertCell, lookupCell]
  | cons c cs ih =>
    obtain ⟨c, w⟩ := c
    simp only [insertCell]
    split
    · simp [lookupCell]
    · split
      · subst_vars
        by_cases h : b = c <;> simp [lookupCell, h]
      · by_cases h : b = c <;> simp [lookupCell, h, ih]
        intro h'; omega

@[simp] theorem Memory.draw_write (m : Memory) (a : Nat) (v : Word) : (m.write a v).draw = m.draw := rfl

theorem Memory.read_write (m : Memory) (a b : Nat) (v : Word) :
    (m.write a v).read b = if b = a then v else m.read b := by
  simp only [Memory.read, Memory.write, lookupCell_insertCell]
  split <;> simp

@[simp] theorem Memory.read_write_same (m : Memory) (a : Nat) (v : Word) : (m.write a v).read a = v := by
  simp [Memory.read_write]

theorem Memory.read_write_ne (m : Memory) {a b : Nat} (v : Word) (h : b ≠ a) : (m.write a v).read b = m.read b := by
  simp [Memory.read_write, h]

@[simp] theorem Memory.draw_writeLimbs (m : Memory) (a : Nat) (vs : List Word) :
    (m.writeLimbs a vs).draw = m.draw := by
  induction vs generalizing m a with
  | nil => rfl
  | cons v vs ih => simp [Memory.writeLimbs, ih]

/-- What a slice write does to every word (R12, R64). -/
theorem Memory.read_writeLimbs (m : Memory) (a b : Nat) (vs : List Word) :
    (m.writeLimbs a vs).read b = if a ≤ b ∧ b < a + vs.length then vs.getD (b - a) 0 else m.read b := by
  induction vs generalizing m a with
  | nil => simp [Memory.writeLimbs]
  | cons v vs ih =>
    simp only [Memory.writeLimbs, ih, Memory.read_write, List.length_cons]
    by_cases h1 : b = a
    · subst h1; simp
    · by_cases h2 : a + 1 ≤ b ∧ b < a + 1 + vs.length
      · obtain ⟨k, rfl⟩ : ∃ k, b = a + (k + 1) := ⟨b - a - 1, by omega⟩
        rw [if_pos h2, if_pos (by omega)]
        simp [show a + (k + 1) - (a + 1) = k by omega, show a + (k + 1) - a = k + 1 by omega]
      · rw [if_neg h2, if_neg h1, if_neg (by omega)]

theorem Memory.read_writeLimbs_outside (m : Memory) {a b : Nat} (vs : List Word) (h : b < a ∨ a + vs.length ≤ b) :
    (m.writeLimbs a vs).read b = m.read b := by
  rw [Memory.read_writeLimbs, if_neg (by omega)]

@[simp] theorem Memory.length_readLimbs (m : Memory) (a n : Nat) : (m.readLimbs a n).length = n := by
  induction n generalizing a with
  | zero => rfl
  | succ n ih => simp [Memory.readLimbs, ih]

/-- Two memories that agree on a slice hold the same limb array there. -/
theorem Memory.readLimbs_congr {m m' : Memory} {a n : Nat} (h : ∀ b, a ≤ b → b < a + n → m.read b = m'.read b) :
    m.readLimbs a n = m'.readLimbs a n := by
  induction n generalizing a with
  | zero => rfl
  | succ n ih =>
    simp only [Memory.readLimbs]
    rw [h a (by omega) (by omega), ih (fun b h1 h2 => h b (by omega) (by omega))]

/-- A slice read gives back the array just written there. -/
theorem Memory.readLimbs_writeLimbs (m : Memory) (a : Nat) (vs : List Word) :
    (m.writeLimbs a vs).readLimbs a vs.length = vs := by
  induction vs generalizing m a with
  | nil => rfl
  | cons v vs ih =>
    simp only [List.length_cons, Memory.readLimbs, Memory.writeLimbs]
    rw [ih, Memory.read_writeLimbs_outside _ _ (by omega), Memory.read_write_same]

theorem Memory.readLimbs_writeLimbs_of_length {m : Memory} {a n : Nat} {vs : List Word} (h : vs.length = n) :
    (m.writeLimbs a vs).readLimbs a n = vs := h ▸ m.readLimbs_writeLimbs a vs

theorem Memory.readLimbs_add (m : Memory) (a n k : Nat) :
    m.readLimbs a (n + k) = m.readLimbs a n ++ m.readLimbs (a + n) k := by
  induction n generalizing a with
  | zero => simp [Memory.readLimbs]
  | succ n ih =>
    rw [show n + 1 + k = (n + k) + 1 by omega]
    simp [Memory.readLimbs, ih, show a + 1 + n = a + (n + 1) by omega]

/-- Reading one limb of a slice. -/
theorem Memory.getD_readLimbs (m : Memory) {a n i : Nat} (h : i < n) : (m.readLimbs a n).getD i 0 = m.read (a + i) := by
  induction n generalizing a i with
  | zero => omega
  | succ n ih =>
    cases i with
    | zero => simp [Memory.readLimbs]
    | succ i => simpa [Memory.readLimbs, show a + 1 + i = a + (i + 1) by omega] using ih (a := a + 1) (i := i) (by omega)

/-! ## The canonical form -/

theorem risingFrom_weaken {lo lo' : Nat} {cs : List (Nat × Word)} (h : lo' ≤ lo) (hr : risingFrom (some lo) cs = true) :
    risingFrom (some lo') cs = true := by
  cases cs with
  | nil => rfl
  | cons c cs =>
    simp only [risingFrom, Bool.and_eq_true, decide_eq_true_eq] at hr ⊢
    exact ⟨by omega, hr.2⟩

theorem risingFrom_insertCell {lo a : Nat} (v : Word) {cs : List (Nat × Word)} (h : lo < a)
    (hr : risingFrom (some lo) cs = true) : risingFrom (some lo) (insertCell a v cs) = true := by
  induction cs generalizing lo with
  | nil => simp [insertCell, risingFrom, h]
  | cons c cs ih =>
    obtain ⟨c, w⟩ := c
    simp only [risingFrom, Bool.and_eq_true, decide_eq_true_eq] at hr
    simp only [insertCell]
    split
    · simp [risingFrom, *]
    · split
      · subst_vars; simp [risingFrom, hr]
      · simp only [risingFrom, Bool.and_eq_true, decide_eq_true_eq]
        exact ⟨hr.1, ih (by omega) hr.2⟩

theorem risingFrom_none_insertCell (a : Nat) (v : Word) {cs : List (Nat × Word)} (hr : risingFrom none cs = true) :
    risingFrom none (insertCell a v cs) = true := by
  cases cs with
  | nil => rfl
  | cons c cs =>
    obtain ⟨c, w⟩ := c
    simp only [risingFrom] at hr
    simp only [insertCell]
    split
    · simp [risingFrom, *]
    · split
      · subst_vars; simpa [risingFrom] using hr
      · simpa [risingFrom] using risingFrom_insertCell v (by omega) hr

@[simp] theorem Memory.wf_unspecified (d : Nat) : (Memory.unspecified d).wf = true := rfl

theorem Memory.wf_write {m : Memory} (a : Nat) (v : Word) (h : m.wf = true) : (m.write a v).wf = true :=
  risingFrom_none_insertCell a v h

/-- Every memory operation keeps the canonical form. -/
theorem Memory.wf_writeLimbs {m : Memory} (a : Nat) (vs : List Word) (h : m.wf = true) :
    (m.writeLimbs a vs).wf = true := by
  induction vs generalizing m a with
  | nil => exact h
  | cons v vs ih => exact ih (a + 1) (Memory.wf_write a v h)

end Sys2Proof.Machine
end

