-- ==== Sys2Proof/Laws/State.lean ====
section
/-! SUPPORT. One lemma per field of State and per update of it, so that no later proof unfolds a record update. -/

namespace Sys2Proof.Machine

/-! ## `setX` -/

@[simp] theorem State.setX_params (s : State) (r : XReg) (v : Word) : (s.setX r v).params = s.params := rfl
@[simp] theorem State.setX_lm (s : State) (r : XReg) (v : Word) : (s.setX r v).lm = s.lm := rfl
@[simp] theorem State.setX_x (s : State) (r : XReg) (v : Word) : (s.setX r v).x = s.x.set r.val v := rfl
@[simp] theorem State.setX_sd (s : State) (r : XReg) (v : Word) : (s.setX r v).sd = s.sd := rfl
@[simp] theorem State.setX_busy (s : State) (r : XReg) (v : Word) : (s.setX r v).busy = s.busy := rfl
@[simp] theorem State.setX_err (s : State) (r : XReg) (v : Word) : (s.setX r v).err = s.err := rfl
@[simp] theorem State.setX_ctx (s : State) (r : XReg) (v : Word) : (s.setX r v).ctx = s.ctx := rfl
@[simp] theorem State.setX_cmd (s : State) (r : XReg) (v : Word) : (s.setX r v).cmd = s.cmd := rfl
@[simp] theorem State.setX_disturbance (s : State) (r : XReg) (v : Word) : (s.setX r v).disturbance = s.disturbance := rfl
@[simp] theorem State.setX_sdLate (s : State) (r : XReg) (v : Word) : (s.setX r v).sdLate = s.sdLate := rfl
@[simp] theorem State.setX_hostData (s : State) (r : XReg) (v : Word) : (s.setX r v).hostData = s.hostData := rfl
@[simp] theorem State.setX_input (s : State) (r : XReg) (v : Word) : (s.setX r v).input = s.input := rfl
@[simp] theorem State.setX_draws (s : State) (r : XReg) (v : Word) : (s.setX r v).draws = s.draws := rfl

/-! ## `setSD` -/

@[simp] theorem State.setSD_params (s : State) (r : SReg) (v : Word) : (s.setSD r v).params = s.params := rfl
@[simp] theorem State.setSD_lm (s : State) (r : SReg) (v : Word) : (s.setSD r v).lm = s.lm := rfl
@[simp] theorem State.setSD_x (s : State) (r : SReg) (v : Word) : (s.setSD r v).x = s.x := rfl
@[simp] theorem State.setSD_sd (s : State) (r : SReg) (v : Word) : (s.setSD r v).sd = s.sd.set r.val v := rfl
@[simp] theorem State.setSD_busy (s : State) (r : SReg) (v : Word) : (s.setSD r v).busy = s.busy := rfl
@[simp] theorem State.setSD_err (s : State) (r : SReg) (v : Word) : (s.setSD r v).err = s.err := rfl
@[simp] theorem State.setSD_ctx (s : State) (r : SReg) (v : Word) : (s.setSD r v).ctx = s.ctx := rfl
@[simp] theorem State.setSD_cmd (s : State) (r : SReg) (v : Word) : (s.setSD r v).cmd = s.cmd := rfl
@[simp] theorem State.setSD_disturbance (s : State) (r : SReg) (v : Word) : (s.setSD r v).disturbance = s.disturbance := rfl
@[simp] theorem State.setSD_sdLate (s : State) (r : SReg) (v : Word) : (s.setSD r v).sdLate = s.sdLate := rfl
@[simp] theorem State.setSD_hostData (s : State) (r : SReg) (v : Word) : (s.setSD r v).hostData = s.hostData := rfl
@[simp] theorem State.setSD_input (s : State) (r : SReg) (v : Word) : (s.setSD r v).input = s.input := rfl
@[simp] theorem State.setSD_draws (s : State) (r : SReg) (v : Word) : (s.setSD r v).draws = s.draws := rfl

/-! ## `drawn` -/

@[simp] theorem State.drawn_params (s : State) : s.drawn.params = s.params := rfl
@[simp] theorem State.drawn_lm (s : State) : s.drawn.lm = s.lm := rfl
@[simp] theorem State.drawn_x (s : State) : s.drawn.x = s.x := rfl
@[simp] theorem State.drawn_sd (s : State) : s.drawn.sd = s.sd := rfl
@[simp] theorem State.drawn_busy (s : State) : s.drawn.busy = s.busy := rfl
@[simp] theorem State.drawn_err (s : State) : s.drawn.err = s.err := rfl
@[simp] theorem State.drawn_ctx (s : State) : s.drawn.ctx = s.ctx := rfl
@[simp] theorem State.drawn_cmd (s : State) : s.drawn.cmd = s.cmd := rfl
@[simp] theorem State.drawn_disturbance (s : State) : s.drawn.disturbance = s.disturbance := rfl
@[simp] theorem State.drawn_sdLate (s : State) : s.drawn.sdLate = s.sdLate := rfl
@[simp] theorem State.drawn_hostData (s : State) : s.drawn.hostData = s.hostData := rfl
@[simp] theorem State.drawn_input (s : State) : s.drawn.input = s.input := rfl
@[simp] theorem State.drawn_draws (s : State) : s.drawn.draws = s.draws + 1 := rfl

/-! ## `writeLM` -/

@[simp] theorem State.writeLM_params (s : State) (b : Nat) (l : List Word) : (s.writeLM b l).params = s.params := rfl
@[simp] theorem State.writeLM_lm (s : State) (b : Nat) (l : List Word) : (s.writeLM b l).lm = s.lm.writeLimbs b l := rfl
@[simp] theorem State.writeLM_x (s : State) (b : Nat) (l : List Word) : (s.writeLM b l).x = s.x := rfl
@[simp] theorem State.writeLM_sd (s : State) (b : Nat) (l : List Word) : (s.writeLM b l).sd = s.sd := rfl
@[simp] theorem State.writeLM_busy (s : State) (b : Nat) (l : List Word) : (s.writeLM b l).busy = s.busy := rfl
@[simp] theorem State.writeLM_err (s : State) (b : Nat) (l : List Word) : (s.writeLM b l).err = s.err := rfl
@[simp] theorem State.writeLM_ctx (s : State) (b : Nat) (l : List Word) : (s.writeLM b l).ctx = s.ctx := rfl
@[simp] theorem State.writeLM_cmd (s : State) (b : Nat) (l : List Word) : (s.writeLM b l).cmd = s.cmd := rfl
@[simp] theorem State.writeLM_disturbance (s : State) (b : Nat) (l : List Word) : (s.writeLM b l).disturbance = s.disturbance := rfl
@[simp] theorem State.writeLM_sdLate (s : State) (b : Nat) (l : List Word) : (s.writeLM b l).sdLate = s.sdLate := rfl
@[simp] theorem State.writeLM_hostData (s : State) (b : Nat) (l : List Word) : (s.writeLM b l).hostData = s.hostData := rfl
@[simp] theorem State.writeLM_input (s : State) (b : Nat) (l : List Word) : (s.writeLM b l).input = s.input := rfl
@[simp] theorem State.writeLM_draws (s : State) (b : Nat) (l : List Word) : (s.writeLM b l).draws = s.draws := rfl

/-! ## `spoilScratch` -/

@[simp] theorem State.spoilScratch_params (s : State) : s.spoilScratch.params = s.params := rfl
@[simp] theorem State.spoilScratch_lm (s : State) : s.spoilScratch.lm = s.lm := rfl
@[simp] theorem State.spoilScratch_x (s : State) : s.spoilScratch.x = s.x := rfl
@[simp] theorem State.spoilScratch_sd (s : State) : s.spoilScratch.sd = s.sd := rfl
@[simp] theorem State.spoilScratch_busy (s : State) : s.spoilScratch.busy = s.busy := rfl
@[simp] theorem State.spoilScratch_err (s : State) : s.spoilScratch.err = s.err := rfl
@[simp] theorem State.spoilScratch_ctx (s : State) : s.spoilScratch.ctx = { s.ctx with scratch := Memory.unspecified s.draws } := rfl
@[simp] theorem State.spoilScratch_cmd (s : State) : s.spoilScratch.cmd = s.cmd := rfl
@[simp] theorem State.spoilScratch_disturbance (s : State) : s.spoilScratch.disturbance = s.disturbance := rfl
@[simp] theorem State.spoilScratch_sdLate (s : State) : s.spoilScratch.sdLate = s.sdLate := rfl
@[simp] theorem State.spoilScratch_hostData (s : State) : s.spoilScratch.hostData = s.hostData := rfl
@[simp] theorem State.spoilScratch_input (s : State) : s.spoilScratch.input = s.input := rfl
@[simp] theorem State.spoilScratch_draws (s : State) : s.spoilScratch.draws = s.draws + 1 := rfl

/-! ## `spoilTable` -/

@[simp] theorem State.spoilTable_params (s : State) : s.spoilTable.params = s.params := rfl
@[simp] theorem State.spoilTable_lm (s : State) : s.spoilTable.lm = s.lm := rfl
@[simp] theorem State.spoilTable_x (s : State) : s.spoilTable.x = s.x := rfl
@[simp] theorem State.spoilTable_sd (s : State) : s.spoilTable.sd = s.sd := rfl
@[simp] theorem State.spoilTable_busy (s : State) : s.spoilTable.busy = s.busy := rfl
@[simp] theorem State.spoilTable_err (s : State) : s.spoilTable.err = s.err := rfl
@[simp] theorem State.spoilTable_ctx (s : State) : s.spoilTable.ctx = { s.ctx with table := Memory.unspecified s.draws } := rfl
@[simp] theorem State.spoilTable_cmd (s : State) : s.spoilTable.cmd = s.cmd := rfl
@[simp] theorem State.spoilTable_disturbance (s : State) : s.spoilTable.disturbance = s.disturbance := rfl
@[simp] theorem State.spoilTable_sdLate (s : State) : s.spoilTable.sdLate = s.sdLate := rfl
@[simp] theorem State.spoilTable_hostData (s : State) : s.spoilTable.hostData = s.hostData := rfl
@[simp] theorem State.spoilTable_input (s : State) : s.spoilTable.input = s.input := rfl
@[simp] theorem State.spoilTable_draws (s : State) : s.spoilTable.draws = s.draws + 1 := rfl

/-! ## `issue` -/

@[simp] theorem State.issue_params (s : State) (w : Word) : (s.issue w).params = s.params := rfl
@[simp] theorem State.issue_lm (s : State) (w : Word) : (s.issue w).lm = s.lm := rfl
@[simp] theorem State.issue_x (s : State) (w : Word) : (s.issue w).x = s.x := rfl
@[simp] theorem State.issue_sd (s : State) (w : Word) : (s.issue w).sd = s.sd := rfl
@[simp] theorem State.issue_busy (s : State) (w : Word) : (s.issue w).busy = true := rfl
@[simp] theorem State.issue_err (s : State) (w : Word) : (s.issue w).err = .none := rfl
@[simp] theorem State.issue_ctx (s : State) (w : Word) : (s.issue w).ctx = s.ctx := rfl
@[simp] theorem State.issue_cmd (s : State) (w : Word) : (s.issue w).cmd = w := rfl
@[simp] theorem State.issue_disturbance (s : State) (w : Word) : (s.issue w).disturbance = none := rfl
@[simp] theorem State.issue_sdLate (s : State) (w : Word) : (s.issue w).sdLate = s.sdLate := rfl
@[simp] theorem State.issue_hostData (s : State) (w : Word) : (s.issue w).hostData = s.hostData := rfl
@[simp] theorem State.issue_input (s : State) (w : Word) : (s.issue w).input = s.input := rfl
@[simp] theorem State.issue_draws (s : State) (w : Word) : (s.issue w).draws = s.draws := rfl

/-! ## `raise` -/

@[simp] theorem State.raise_params (s : State) (e : ErrCode) : (s.raise e).params = s.params := rfl
@[simp] theorem State.raise_lm (s : State) (e : ErrCode) : (s.raise e).lm = s.lm := rfl
@[simp] theorem State.raise_x (s : State) (e : ErrCode) : (s.raise e).x = s.x := rfl
@[simp] theorem State.raise_sd (s : State) (e : ErrCode) : (s.raise e).sd = s.sd := rfl
@[simp] theorem State.raise_busy (s : State) (e : ErrCode) : (s.raise e).busy = false := rfl
@[simp] theorem State.raise_err (s : State) (e : ErrCode) : (s.raise e).err = e := rfl
@[simp] theorem State.raise_ctx (s : State) (e : ErrCode) : (s.raise e).ctx = s.ctx := rfl
@[simp] theorem State.raise_cmd (s : State) (e : ErrCode) : (s.raise e).cmd = s.cmd := rfl
@[simp] theorem State.raise_disturbance (s : State) (e : ErrCode) : (s.raise e).disturbance = none := rfl
@[simp] theorem State.raise_sdLate (s : State) (e : ErrCode) : (s.raise e).sdLate = s.sdLate := rfl
@[simp] theorem State.raise_hostData (s : State) (e : ErrCode) : (s.raise e).hostData = s.hostData := rfl
@[simp] theorem State.raise_input (s : State) (e : ErrCode) : (s.raise e).input = s.input := rfl
@[simp] theorem State.raise_draws (s : State) (e : ErrCode) : (s.raise e).draws = s.draws := rfl

/-! ## `succeed` -/

@[simp] theorem State.succeed_params (s : State) : s.succeed.params = s.params := rfl
@[simp] theorem State.succeed_lm (s : State) : s.succeed.lm = s.lm := rfl
@[simp] theorem State.succeed_x (s : State) : s.succeed.x = s.x := rfl
@[simp] theorem State.succeed_sd (s : State) : s.succeed.sd = s.sd := rfl
@[simp] theorem State.succeed_busy (s : State) : s.succeed.busy = false := rfl
@[simp] theorem State.succeed_err (s : State) : s.succeed.err = .none := rfl
@[simp] theorem State.succeed_ctx (s : State) : s.succeed.ctx = s.ctx := rfl
@[simp] theorem State.succeed_cmd (s : State) : s.succeed.cmd = s.cmd := rfl
@[simp] theorem State.succeed_disturbance (s : State) : s.succeed.disturbance = none := rfl
@[simp] theorem State.succeed_sdLate (s : State) : s.succeed.sdLate = s.sdLate := rfl
@[simp] theorem State.succeed_hostData (s : State) : s.succeed.hostData = s.hostData := rfl
@[simp] theorem State.succeed_input (s : State) : s.succeed.input = s.input := rfl
@[simp] theorem State.succeed_draws (s : State) : s.succeed.draws = s.draws := rfl

/-! ## `install` -/

@[simp] theorem State.install_params (s : State) (mm : List Word) : (s.install mm).params = s.params := rfl
@[simp] theorem State.install_lm (s : State) (mm : List Word) : (s.install mm).lm = s.lm := rfl
@[simp] theorem State.install_x (s : State) (mm : List Word) : (s.install mm).x = s.x := rfl
@[simp] theorem State.install_sd (s : State) (mm : List Word) : (s.install mm).sd = s.sd := rfl
@[simp] theorem State.install_busy (s : State) (mm : List Word) : (s.install mm).busy = s.busy := rfl
@[simp] theorem State.install_err (s : State) (mm : List Word) : (s.install mm).err = s.err := rfl
@[simp] theorem State.install_cmd (s : State) (mm : List Word) : (s.install mm).cmd = s.cmd := rfl
@[simp] theorem State.install_disturbance (s : State) (mm : List Word) : (s.install mm).disturbance = s.disturbance := rfl
@[simp] theorem State.install_sdLate (s : State) (mm : List Word) : (s.install mm).sdLate = s.sdLate := rfl
@[simp] theorem State.install_hostData (s : State) (mm : List Word) : (s.install mm).hostData = s.hostData := rfl
@[simp] theorem State.install_input (s : State) (mm : List Word) : (s.install mm).input = s.input := rfl
@[simp] theorem State.install_draws (s : State) (mm : List Word) : (s.install mm).draws = s.draws + 3 := rfl

/-! ## `reply` -/

@[simp] theorem State.reply_params (s : State) (v : Word) : (s.reply v).params = s.params := rfl
@[simp] theorem State.reply_lm (s : State) (v : Word) : (s.reply v).lm = s.lm := rfl
@[simp] theorem State.reply_x (s : State) (v : Word) : (s.reply v).x = s.x := rfl
@[simp] theorem State.reply_sd (s : State) (v : Word) : (s.reply v).sd = s.sd := rfl
@[simp] theorem State.reply_busy (s : State) (v : Word) : (s.reply v).busy = s.busy := rfl
@[simp] theorem State.reply_err (s : State) (v : Word) : (s.reply v).err = s.err := rfl
@[simp] theorem State.reply_ctx (s : State) (v : Word) : (s.reply v).ctx = s.ctx := rfl
@[simp] theorem State.reply_cmd (s : State) (v : Word) : (s.reply v).cmd = s.cmd := rfl
@[simp] theorem State.reply_disturbance (s : State) (v : Word) : (s.reply v).disturbance = s.disturbance := rfl
@[simp] theorem State.reply_sdLate (s : State) (v : Word) : (s.reply v).sdLate = s.sdLate := rfl
@[simp] theorem State.reply_hostData (s : State) (v : Word) : (s.reply v).hostData = some v := rfl
@[simp] theorem State.reply_input (s : State) (v : Word) : (s.reply v).input = s.input := rfl
@[simp] theorem State.reply_draws (s : State) (v : Word) : (s.reply v).draws = s.draws := rfl

/-! ## `disturb` -/

@[simp] theorem State.disturb_params (s : State) : s.disturb.params = s.params := rfl
@[simp] theorem State.disturb_lm (s : State) : s.disturb.lm = s.lm := rfl
@[simp] theorem State.disturb_x (s : State) : s.disturb.x = s.x := rfl
@[simp] theorem State.disturb_sd (s : State) : s.disturb.sd = s.sd := rfl
@[simp] theorem State.disturb_busy (s : State) : s.disturb.busy = s.busy := rfl
@[simp] theorem State.disturb_err (s : State) : s.disturb.err = s.err := rfl
@[simp] theorem State.disturb_ctx (s : State) : s.disturb.ctx = s.ctx := rfl
@[simp] theorem State.disturb_cmd (s : State) : s.disturb.cmd = s.cmd := rfl
@[simp] theorem State.disturb_disturbance (s : State) : s.disturb.disturbance = some s.draws := rfl
@[simp] theorem State.disturb_sdLate (s : State) : s.disturb.sdLate = s.sdLate := rfl
@[simp] theorem State.disturb_hostData (s : State) : s.disturb.hostData = s.hostData := rfl
@[simp] theorem State.disturb_input (s : State) : s.disturb.input = s.input := rfl
@[simp] theorem State.disturb_draws (s : State) : s.disturb.draws = s.draws + 1 := rfl

/-! ## `resetRegisters` -/

@[simp] theorem State.resetRegisters_params (s : State) : s.resetRegisters.params = s.params := rfl
@[simp] theorem State.resetRegisters_lm (s : State) : s.resetRegisters.lm = s.lm := rfl
@[simp] theorem State.resetRegisters_x (s : State) : s.resetRegisters.x = Vector.replicate 8 0 := rfl
@[simp] theorem State.resetRegisters_sd (s : State) : s.resetRegisters.sd = Vector.replicate 8 0 := rfl
@[simp] theorem State.resetRegisters_busy (s : State) : s.resetRegisters.busy = false := rfl
@[simp] theorem State.resetRegisters_err (s : State) : s.resetRegisters.err = .none := rfl
@[simp] theorem State.resetRegisters_cmd (s : State) : s.resetRegisters.cmd = 0 := rfl
@[simp] theorem State.resetRegisters_disturbance (s : State) : s.resetRegisters.disturbance = none := rfl
@[simp] theorem State.resetRegisters_sdLate (s : State) : s.resetRegisters.sdLate = [] := rfl
@[simp] theorem State.resetRegisters_hostData (s : State) : s.resetRegisters.hostData = s.hostData := rfl
@[simp] theorem State.resetRegisters_input (s : State) : s.resetRegisters.input = s.input := rfl
@[simp] theorem State.resetRegisters_draws (s : State) : s.resetRegisters.draws = s.draws + 2 := rfl
@[simp] theorem State.resetRegisters_scratch (s : State) : s.resetRegisters.ctx.scratch = s.ctx.scratch := rfl
@[simp] theorem State.resetRegisters_table (s : State) : s.resetRegisters.ctx.table = s.ctx.table := rfl

/-! ## `outLM` -/

@[simp] theorem State.outLM_params (s : State) (ok : Bool) (b n : Nat) (l : List Word) : (s.outLM ok b n l).params = s.params := by
  cases ok <;> rfl
@[simp] theorem State.outLM_lm (s : State) (ok : Bool) (b n : Nat) (l : List Word) : (s.outLM ok b n l).lm = s.lm.writeLimbs b (if ok then l else s.freeLimbs n) := by
  cases ok <;> rfl
@[simp] theorem State.outLM_x (s : State) (ok : Bool) (b n : Nat) (l : List Word) : (s.outLM ok b n l).x = s.x := by
  cases ok <;> rfl
@[simp] theorem State.outLM_sd (s : State) (ok : Bool) (b n : Nat) (l : List Word) : (s.outLM ok b n l).sd = s.sd := by
  cases ok <;> rfl
@[simp] theorem State.outLM_busy (s : State) (ok : Bool) (b n : Nat) (l : List Word) : (s.outLM ok b n l).busy = s.busy := by
  cases ok <;> rfl
@[simp] theorem State.outLM_err (s : State) (ok : Bool) (b n : Nat) (l : List Word) : (s.outLM ok b n l).err = s.err := by
  cases ok <;> rfl
@[simp] theorem State.outLM_ctx (s : State) (ok : Bool) (b n : Nat) (l : List Word) : (s.outLM ok b n l).ctx = s.ctx := by
  cases ok <;> rfl
@[simp] theorem State.outLM_cmd (s : State) (ok : Bool) (b n : Nat) (l : List Word) : (s.outLM ok b n l).cmd = s.cmd := by
  cases ok <;> rfl
@[simp] theorem State.outLM_disturbance (s : State) (ok : Bool) (b n : Nat) (l : List Word) : (s.outLM ok b n l).disturbance = s.disturbance := by
  cases ok <;> rfl
@[simp] theorem State.outLM_sdLate (s : State) (ok : Bool) (b n : Nat) (l : List Word) : (s.outLM ok b n l).sdLate = s.sdLate := by
  cases ok <;> rfl
@[simp] theorem State.outLM_hostData (s : State) (ok : Bool) (b n : Nat) (l : List Word) : (s.outLM ok b n l).hostData = s.hostData := by
  cases ok <;> rfl
@[simp] theorem State.outLM_input (s : State) (ok : Bool) (b n : Nat) (l : List Word) : (s.outLM ok b n l).input = s.input := by
  cases ok <;> rfl
@[simp] theorem State.outLM_draws (s : State) (ok : Bool) (b n : Nat) (l : List Word) : (s.outLM ok b n l).draws = if ok then s.draws else s.draws + 1 := by
  cases ok <;> rfl

/-! ## `outX` -/

@[simp] theorem State.outX_params (s : State) (ok : Bool) (r : XReg) (v : Word) : (s.outX ok r v).params = s.params := by
  cases ok <;> rfl
@[simp] theorem State.outX_lm (s : State) (ok : Bool) (r : XReg) (v : Word) : (s.outX ok r v).lm = s.lm := by
  cases ok <;> rfl
@[simp] theorem State.outX_x (s : State) (ok : Bool) (r : XReg) (v : Word) : (s.outX ok r v).x = s.x.set r.val (if ok then v else s.freeX) := by
  cases ok <;> rfl
@[simp] theorem State.outX_sd (s : State) (ok : Bool) (r : XReg) (v : Word) : (s.outX ok r v).sd = s.sd := by
  cases ok <;> rfl
@[simp] theorem State.outX_busy (s : State) (ok : Bool) (r : XReg) (v : Word) : (s.outX ok r v).busy = s.busy := by
  cases ok <;> rfl
@[simp] theorem State.outX_err (s : State) (ok : Bool) (r : XReg) (v : Word) : (s.outX ok r v).err = s.err := by
  cases ok <;> rfl
@[simp] theorem State.outX_ctx (s : State) (ok : Bool) (r : XReg) (v : Word) : (s.outX ok r v).ctx = s.ctx := by
  cases ok <;> rfl
@[simp] theorem State.outX_cmd (s : State) (ok : Bool) (r : XReg) (v : Word) : (s.outX ok r v).cmd = s.cmd := by
  cases ok <;> rfl
@[simp] theorem State.outX_disturbance (s : State) (ok : Bool) (r : XReg) (v : Word) : (s.outX ok r v).disturbance = s.disturbance := by
  cases ok <;> rfl
@[simp] theorem State.outX_sdLate (s : State) (ok : Bool) (r : XReg) (v : Word) : (s.outX ok r v).sdLate = s.sdLate := by
  cases ok <;> rfl
@[simp] theorem State.outX_hostData (s : State) (ok : Bool) (r : XReg) (v : Word) : (s.outX ok r v).hostData = s.hostData := by
  cases ok <;> rfl
@[simp] theorem State.outX_input (s : State) (ok : Bool) (r : XReg) (v : Word) : (s.outX ok r v).input = s.input := by
  cases ok <;> rfl
@[simp] theorem State.outX_draws (s : State) (ok : Bool) (r : XReg) (v : Word) : (s.outX ok r v).draws = if ok then s.draws else s.draws + 1 := by
  cases ok <;> rfl

/-! ## `settleSD` -/

/-- The descriptor registers after the late writes, oldest first. -/
theorem State.settleSD_eq (s : State) :
    s.settleSD = { s with sd := s.sdLate.foldl (fun v p => v.set p.1.val p.2) s.sd, sdLate := [] } := by
  have h : ∀ (l : List (SReg × Word)) (t : State),
      l.foldl (fun t p => t.setSD p.1 p.2) t = { t with sd := l.foldl (fun v p => v.set p.1.val p.2) t.sd } := by
    intro l
    induction l with
    | nil => intro t; rfl
    | cons p l ih => intro t; rw [List.foldl_cons, ih]; rfl
  rw [State.settleSD, h]

@[simp] theorem State.settleSD_params (s : State) : s.settleSD.params = s.params := by
  rw [State.settleSD_eq]
@[simp] theorem State.settleSD_lm (s : State) : s.settleSD.lm = s.lm := by
  rw [State.settleSD_eq]
@[simp] theorem State.settleSD_x (s : State) : s.settleSD.x = s.x := by
  rw [State.settleSD_eq]
@[simp] theorem State.settleSD_sd (s : State) : s.settleSD.sd = s.sdLate.foldl (fun v p => v.set p.1.val p.2) s.sd := by
  rw [State.settleSD_eq]
@[simp] theorem State.settleSD_busy (s : State) : s.settleSD.busy = s.busy := by
  rw [State.settleSD_eq]
@[simp] theorem State.settleSD_err (s : State) : s.settleSD.err = s.err := by
  rw [State.settleSD_eq]
@[simp] theorem State.settleSD_ctx (s : State) : s.settleSD.ctx = s.ctx := by
  rw [State.settleSD_eq]
@[simp] theorem State.settleSD_cmd (s : State) : s.settleSD.cmd = s.cmd := by
  rw [State.settleSD_eq]
@[simp] theorem State.settleSD_disturbance (s : State) : s.settleSD.disturbance = s.disturbance := by
  rw [State.settleSD_eq]
@[simp] theorem State.settleSD_sdLate (s : State) : s.settleSD.sdLate = [] := by
  rw [State.settleSD_eq]
@[simp] theorem State.settleSD_hostData (s : State) : s.settleSD.hostData = s.hostData := by
  rw [State.settleSD_eq]
@[simp] theorem State.settleSD_input (s : State) : s.settleSD.input = s.input := by
  rw [State.settleSD_eq]
@[simp] theorem State.settleSD_draws (s : State) : s.settleSD.draws = s.draws := by
  rw [State.settleSD_eq]

/-- With no late write nothing is left to do. -/
theorem State.settleSD_of_nil {s : State} (h : s.sdLate = []) : s.settleSD = s := by
  rw [State.settleSD_eq, h]
  cases s
  simp_all

/-! ## Register reads (R24, R25) -/

theorem State.getX_setX (s : State) (r q : XReg) (v : Word) :
    (s.setX r v).getX q = if q = r then v else s.getX q := by
  simp only [State.getX, State.setX_x, Vector.getElem_set]
  by_cases h : q = r
  · subst h; simp
  · have : r.val ≠ q.val := fun e => h (Fin.ext e.symm)
    simp [h, this]

theorem State.getSD_setSD (s : State) (r q : SReg) (v : Word) :
    (s.setSD r v).getSD q = if q = r then v else s.getSD q := by
  simp only [State.getSD, State.setSD_sd, Vector.getElem_set]
  by_cases h : q = r
  · subst h; simp
  · have : r.val ≠ q.val := fun e => h (Fin.ext e.symm)
    simp [h, this]

theorem State.getX_outX (s : State) (ok : Bool) (r q : XReg) (v : Word) :
    (s.outX ok r v).getX q = if q = r then (if ok then v else s.freeX) else s.getX q := by
  cases ok
  · exact State.getX_setX s r q s.freeX
  · exact State.getX_setX s r q v

/-- Reading a register needs only the register file. -/
theorem State.getX_congr {s t : State} (h : t.x = s.x) (r : XReg) : t.getX r = s.getX r := by
  simp [State.getX, h]

theorem State.getSD_congr {s t : State} (h : t.sd = s.sd) (r : SReg) : t.getSD r = s.getSD r := by
  simp [State.getSD, h]

@[simp] theorem State.length_freeLimbs (s : State) (n : Nat) : (s.freeLimbs n).length = n := by
  simp [State.freeLimbs]

end Sys2Proof.Machine
end

