-- ==== Sys2Proof/Laws/Command.lean ====
section
/-! SUPPORT. What the shared operations around a command can do: the transition of a command, its checks, its outputs, and
its being abandoned by reset. -/

namespace Sys2Proof.Machine

/-- A command has two outcomes and no other (R22, R222). -/
theorem command_eq_next_iff {s effect t : State} {found : Option ErrCode} :
    s.command found effect = .next t ↔
      (∃ e, found = some e ∧ t = s.raise e) ∨ (found = none ∧ t = effect.succeed) := by
  cases found <;> simp [State.command, eq_comm]

theorem command_none (s effect : State) : s.command none effect = .next effect.succeed := rfl

theorem command_some (s effect : State) (e : ErrCode) : s.command (some e) effect = .next (s.raise e) := rfl

/-- The command that passes every public check (R223 steps 2 to 5). -/
theorem publicCheck_eq_none_iff (s : State) (i : Instr) :
    s.publicCheck i = none ↔
      (needsContext i = true → s.ctx.state ≠ .uninit) ∧ emptyModulus s i = false ∧
      (∀ r ∈ sliceFields i, 1 ≤ (s.slice r).len) ∧ lengthsAgree s i = true ∧
      ∀ r ∈ sliceFields i, (s.slice r).base + (s.slice r).len ≤ s.params.lmWords := by
  have hz : (sliceFields i).any (fun r => decide ((s.slice r).len = 0)) = false ↔
      ∀ r ∈ sliceFields i, 1 ≤ (s.slice r).len := by
    simp [Nat.one_le_iff_ne_zero]
  have hr : (sliceFields i).any (fun r => !s.inLM (s.slice r)) = false ↔
      ∀ r ∈ sliceFields i, (s.slice r).base + (s.slice r).len ≤ s.params.lmWords := by
    simp [State.inLM]
  rw [← hz, ← hr, State.publicCheck]
  generalize (sliceFields i).any (fun r => decide ((s.slice r).len = 0)) = z
  generalize (sliceFields i).any (fun r => !s.inLM (s.slice r)) = r
  cases hn : needsContext i <;> cases hm : emptyModulus s i <;> cases hl : lengthsAgree s i <;> cases z <;> cases r <;>
    by_cases hu : s.ctx.state = .uninit <;> simp [hu]

/-- The modulus CTXINIT accepts (R223 steps 6 and 7). -/
theorem modulusCheck_eq_none_iff (mm : List Word) :
    modulusCheck mm = none ↔ isOdd mm = true ∧ normalized mm = true := by
  cases h1 : isOdd mm <;> cases h2 : normalized mm <;> simp [modulusCheck, h1, h2]

/-- A slice output leaves every word outside the slice alone, whether or not the contract holds (R270). -/
theorem read_outLM_outside (s : State) (ok : Bool) {base n a : Nat} {l : List Word}
    (hl : ok = true → l.length = n) (h : a < base ∨ base + n ≤ a) :
    (s.outLM ok base n l).lm.read a = s.lm.read a := by
  rw [State.outLM_lm, Memory.read_writeLimbs_outside]
  cases ok
  · simpa using h
  · simpa [hl rfl] using h

/-- A slice output keeps the canonical form. -/
theorem wf_outLM {s : State} (ok : Bool) (base n : Nat) (l : List Word) (h : s.lm.wf = true) :
    (s.outLM ok base n l).lm.wf = true := by
  rw [State.outLM_lm]
  exact Memory.wf_writeLimbs _ _ h

/-- Where the contract holds, an output is the value of the rule. -/
@[simp] theorem outLM_true (s : State) (base n : Nat) (l : List Word) : s.outLM true base n l = s.writeLM base l := rfl

@[simp] theorem outX_true (s : State) (r : XReg) (v : Word) : s.outX true r v = s.setX r v := rfl

/-- A contract counts only while the host has kept rule R266. -/
theorem inContract_eq_true_iff (s : State) (p : Bool) : s.inContract p = true ↔ p = true ∧ s.disturbance = none := by
  simp [State.inContract, Option.isNone_iff_eq_none]

@[simp] theorem length_limbsAt (s : State) (S : Slice) : (s.limbsAt S).length = S.len := by
  simp [State.limbsAt]

@[simp] theorem length_modulus (s : State) : s.modulus.length = s.ctx.k := by simp [State.modulus]

/-! ## A command abandoned by reset (R261, R262) -/

/-- The abandoned slices are the only part of the machine they disturb. -/
theorem abandonSlices_keeps (s : State) (i : Instr) :
    (s.abandonSlices i).ctx = s.ctx ∧ (s.abandonSlices i).params = s.params ∧ s.draws ≤ (s.abandonSlices i).draws ∧
      (s.abandonSlices i).lm.draw = s.lm.draw ∧ (s.lm.wf = true → (s.abandonSlices i).lm.wf = true) := by
  have h : ∀ (rs : List SReg) (u : State),
      let t := rs.foldl (fun t r => t.outLM false (s.slice r).base (s.lengthInLM (s.slice r)) []) u
      t.ctx = u.ctx ∧ t.params = u.params ∧ u.draws ≤ t.draws ∧ t.lm.draw = u.lm.draw ∧
        (u.lm.wf = true → t.lm.wf = true) := by
    intro rs
    induction rs with
    | nil => simp
    | cons r rs ih =>
      intro u
      obtain ⟨h1, h2, h3, h4, h5⟩ := ih (u.outLM false (s.slice r).base (s.lengthInLM (s.slice r)) [])
      refine ⟨h1.trans (by simp), h2.trans (by simp), ?_, h4.trans (by simp), fun hw => h5 (wf_outLM _ _ _ _ hw)⟩
      simp at h3 ⊢
      omega
  exact h _ _

/-- A word outside the slices the abandoned command could write is left alone. -/
theorem read_abandonSlices_outside (s : State) (i : Instr) {a : Nat}
    (h : ∀ r ∈ writtenFields i, a < (s.slice r).base ∨ (s.slice r).base + (s.slice r).len ≤ a) :
    (s.abandonSlices i).lm.read a = s.lm.read a := by
  have hf : ∀ (rs : List SReg) (u : State),
      (∀ r ∈ rs, a < (s.slice r).base ∨ (s.slice r).base + (s.slice r).len ≤ a) →
      (rs.foldl (fun t r => t.outLM false (s.slice r).base (s.lengthInLM (s.slice r)) []) u).lm.read a = u.lm.read a := by
    intro rs
    induction rs with
    | nil => simp
    | cons r rs ih =>
      intro u hr
      have h0 := hr r (by simp)
      have hle : s.lengthInLM (s.slice r) ≤ (s.slice r).len := Nat.min_le_left _ _
      rw [List.foldl_cons, ih _ fun q hq => hr q (by simp [hq])]
      exact read_outLM_outside _ _ (by simp) (by omega)
  exact hf _ _ h

/-- The hidden memories an abandoned command leaves: free where the command works in them, else as they were. -/
theorem abandonHidden_keeps (s : State) (i : Instr) :
    (s.abandonHidden i).lm = s.lm ∧ (s.abandonHidden i).params = s.params ∧
      (writesScratch i = false → (s.abandonHidden i).ctx.scratch = s.ctx.scratch) ∧
      (writesTable i = false → (s.abandonHidden i).ctx.table = s.ctx.table) := by
  unfold State.abandonHidden
  cases writesScratch i <;> cases writesTable i <;> simp

end Sys2Proof.Machine
end

