-- ==== Sys2Proof/Laws/Checks.lean ====
section
/-! SUPPORT. From the shared checks to one command: when it passes them, and which error it raises (R223). -/

namespace Sys2Proof.Machine

variable {i : Instr} {s effect : State} {rs : List SReg} {lengths : Prop}

/-- A command whose slices are accepted passes the public checks. -/
theorem publicCheck_of_accepts (hrs : sliceFields i = rs) (hctx : needsContext i = true → s.ctx.state = .ready)
    (hempty : emptyModulus s i = false) (hlen : lengthsAgree s i = true ↔ lengths) (h : s.accepts rs lengths) :
    s.publicCheck i = none := by
  subst hrs
  rw [publicCheck_eq_none_iff]
  exact ⟨fun h => by simp [hctx h], hempty, fun r hr => (h.1 r hr).1, hlen.2 h.2, fun r hr => (h.1 r hr).2⟩

/-- Steps 4 and 5 of rule R223 for a command that is not held up by the steps before them. -/
theorem sliceErrors_of_command (hexec : exec i s = s.command (s.publicCheck i) effect) (hrs : sliceFields i = rs)
    (hctx : needsContext i = true → s.ctx.state = .ready) (hempty : emptyModulus s i = false)
    (hlen : lengthsAgree s i = true ↔ lengths) : SliceErrors i s rs lengths := by
  subst hrs
  have hn : (needsContext i && decide (s.ctx.state = .uninit)) = false := by
    cases h : needsContext i
    · rfl
    · simp [hctx h]
  constructor
  · intro h
    have h4 : ((sliceFields i).any (fun r => decide ((s.slice r).len = 0)) || !lengthsAgree s i) = true := by
      rw [Bool.or_eq_true]
      rcases h with ⟨r, hr, h0⟩ | h
      · exact Or.inl (List.any_eq_true.2 ⟨r, hr, by simpa using h0⟩)
      · rw [← hlen] at h
        exact Or.inr (by simpa using h)
    rw [Raises, hexec, State.publicCheck, hn, hempty, h4]
    rfl
  · intro h1 h2 ⟨r, hr, h3⟩
    have h4 : ((sliceFields i).any (fun r => decide ((s.slice r).len = 0)) || !lengthsAgree s i) = false := by
      rw [hlen.2 h2]
      simp only [Bool.not_true, Bool.or_false, List.any_eq_false, decide_eq_true_eq]
      intro x hx
      have := h1 x hx
      omega
    have h5 : (sliceFields i).any (fun r => !s.inLM (s.slice r)) = true :=
      List.any_eq_true.2 ⟨r, hr, by simpa [State.inLM] using h3⟩
    rw [Raises, hexec, State.publicCheck, hn, hempty, h4, h5]
    rfl

/-- Steps 2, 4 and 5 of rule R223 for a context command. -/
theorem contextErrors_of_command (hexec : exec i s = s.command (s.publicCheck i) effect) (hrs : sliceFields i = rs)
    (hctx : needsContext i = true) (hempty : emptyModulus s i = false) (hlen : lengthsAgree s i = true ↔ lengths) :
    ContextErrors i s rs lengths := by
  refine ⟨fun h => ?_, fun h => sliceErrors_of_command hexec hrs (fun _ => h) hempty hlen⟩
  rw [Raises, hexec, State.publicCheck, hctx, h]
  rfl

end Sys2Proof.Machine
end

