-- ==== Sys2Proof/Laws/Limbs.lean ====
section
/-! SUPPORT. The arithmetic of limb arrays: what each loop of the command rules computes, as integers. -/

namespace Sys2Proof.Machine

/-! ## `val` and `limbs` (R8) -/

theorem val_lt (a : List Word) : val a < 2 ^ (32 * a.length) := by
  induction a with
  | nil => simp [val]
  | cons l ls ih =>
    have h := l.isLt
    simp only [val, List.length_cons, Nat.mul_add, Nat.pow_add] at *
    generalize 2 ^ (32 * ls.length) = p at *
    omega

@[simp] theorem length_limbs (n v : Nat) : (limbs n v).length = n := by
  induction n generalizing v with
  | zero => rfl
  | succ n ih => simp [limbs, ih]

/-- `val(limbs_n(v)) = v mod 2^(32n)` (R8). -/
theorem val_limbs (n v : Nat) : val (limbs n v) = v % 2 ^ (32 * n) := by
  induction n generalizing v with
  | zero => simp [limbs, val, Nat.mod_one]
  | succ n ih =>
    simp only [limbs, val, ih, BitVec.toNat_ofNat]
    rw [show 32 * (n + 1) = 32 + 32 * n by omega, Nat.pow_add, Nat.mod_mul]

theorem val_limbs_of_lt {n v : Nat} (h : v < 2 ^ (32 * n)) : val (limbs n v) = v := by
  rw [val_limbs, Nat.mod_eq_of_lt h]

theorem val_append (a b : List Word) : val (a ++ b) = val a + 2 ^ (32 * a.length) * val b := by
  induction a with
  | nil => simp [val]
  | cons l ls ih =>
    simp only [List.cons_append, val, ih, List.length_cons]
    rw [show 32 * (ls.length + 1) = 32 + 32 * ls.length by omega, Nat.pow_add]
    ring

@[simp] theorem val_replicate_zero (n : Nat) : val (List.replicate n 0#32) = 0 := by
  induction n with
  | zero => rfl
  | succ n ih => simp [List.replicate_succ, val, ih]

/-- A limb array is determined by its length and its value. -/
theorem eq_of_val_eq {a b : List Word} (hl : a.length = b.length) (hv : val a = val b) : a = b := by
  induction a generalizing b with
  | nil => simpa using hl.symm
  | cons l ls ih =>
    cases b with
    | nil => simp at hl
    | cons k ks =>
      simp only [val] at hv
      have h1 := l.isLt
      have h2 := k.isLt
      have e1 : l = k := BitVec.eq_of_toNat_eq (by omega)
      subst e1
      rw [ih (by simpa using hl) (by omega)]

theorem limbs_val (a : List Word) : limbs a.length (val a) = a :=
  eq_of_val_eq (by simp) (val_limbs_of_lt (val_lt a))

/-! ## The ripples (R123) -/

@[simp] theorem and_allOnes (b : Word) : b &&& allOnes = b := BitVec.and_allOnes (x := b)

theorem rippleAdd_length (k : Word) (a b : List Word) (c : Nat) (h : a.length = b.length) :
    (rippleAdd k a b c).1.length = a.length := by
  induction a generalizing b c with
  | nil => simp [rippleAdd]
  | cons x xs ih =>
    cases b with
    | nil => simp at h
    | cons y ys => simpa [rippleAdd] using ih ys _ (by simpa using h)

/-- `val(s) + c * 2^(32n) = val(a) + val(b)` under the all-one mask (R123), with a carry in. -/
theorem rippleAdd_val (a b : List Word) (c : Nat) (h : a.length = b.length) :
    val (rippleAdd allOnes a b c).1 + (rippleAdd allOnes a b c).2 * 2 ^ (32 * a.length) = val a + val b + c := by
  induction a generalizing b c with
  | nil =>
    cases b with
    | nil => simp [rippleAdd, val]
    | cons y ys => simp at h
  | cons x xs ih =>
    cases b with
    | nil => simp at h
    | cons y ys =>
      have := ih ys ((x.toNat + (y &&& allOnes).toNat + c) / 2 ^ 32) (by simpa using h)
      simp only [rippleAdd, val, List.length_cons, BitVec.toNat_ofNat, and_allOnes] at this ⊢
      rw [show 32 * (xs.length + 1) = 32 + 32 * xs.length by omega, Nat.pow_add]
      have hd := Nat.mod_add_div (x.toNat + y.toNat + c) (2 ^ 32)
      generalize (rippleAdd allOnes xs ys ((x.toNat + y.toNat + c) / 2 ^ 32)) = r at *
      generalize 2 ^ (32 * xs.length) = p at *
      have e : r.2 * (2 ^ 32 * p) = 2 ^ 32 * (r.2 * p) := by ring
      rw [e]
      omega

theorem rippleAdd_carry_le (k : Word) (a b : List Word) (c : Nat) (hc : c ≤ 1) : (rippleAdd k a b c).2 ≤ 1 := by
  induction a generalizing b c with
  | nil => simpa [rippleAdd] using hc
  | cons x xs ih =>
    cases b with
    | nil => simpa [rippleAdd] using hc
    | cons y ys =>
      apply ih
      have h1 := x.isLt
      have h2 := (y &&& k).isLt
      omega

/-- Under the zero mask nothing is added (R123, R129). -/
theorem rippleAdd_zero_mask (a b : List Word) (h : a.length = b.length) : rippleAdd 0 a b 0 = (a, 0) := by
  induction a generalizing b with
  | nil => simp [rippleAdd]
  | cons x xs ih =>
    cases b with
    | nil => simp at h
    | cons y ys =>
      have hx : (x.toNat + (y &&& 0).toNat + 0) / 2 ^ 32 = 0 := by simpa using Nat.div_eq_of_lt x.isLt
      rw [rippleAdd, hx, ih ys (by simpa using h)]
      simp

theorem rippleSub_length (k : Word) (a b : List Word) (w : Nat) (h : a.length = b.length) :
    (rippleSub k a b w).1.length = a.length := by
  induction a generalizing b w with
  | nil => simp [rippleSub]
  | cons x xs ih =>
    cases b with
    | nil => simp at h
    | cons y ys => simpa [rippleSub] using ih ys _ (by simpa using h)

/-- `val(s) - w * 2^(32n) = val(a) - val(b)` under the all-one mask (R123), with a borrow in. -/
theorem rippleSub_val (a b : List Word) (w : Nat) (h : a.length = b.length) (hw : w ≤ 1) :
    val (rippleSub allOnes a b w).1 + val b + w = val a + (rippleSub allOnes a b w).2 * 2 ^ (32 * a.length) := by
  induction a generalizing b w with
  | nil =>
    cases b with
    | nil => simp [rippleSub, val]
    | cons y ys => simp at h
  | cons x xs ih =>
    cases b with
    | nil => simp at h
    | cons y ys =>
      have := ih ys (if (x.toNat : Int) - ((y &&& allOnes).toNat : Int) - (w : Int) < 0 then 1 else 0) (by simpa using h)
        (by split <;> omega)
      simp only [rippleSub, val, List.length_cons, BitVec.toNat_ofInt, and_allOnes] at this ⊢
      rw [show 32 * (xs.length + 1) = 32 + 32 * xs.length by omega, Nat.pow_add]
      have h1 := x.isLt
      have h2 := y.isLt
      generalize (rippleSub allOnes xs ys (if (x.toNat : Int) - (y.toNat : Int) - (w : Int) < 0 then 1 else 0)) = r at *
      generalize 2 ^ (32 * xs.length) = p at *
      have e : r.2 * (2 ^ 32 * p) = 2 ^ 32 * (r.2 * p) := by ring
      rw [e]
      split at this <;> omega

theorem rippleSub_borrow_le (k : Word) (a b : List Word) (w : Nat) (hw : w ≤ 1) : (rippleSub k a b w).2 ≤ 1 := by
  induction a generalizing b w with
  | nil => simpa [rippleSub] using hw
  | cons x xs ih =>
    cases b with
    | nil => simpa [rippleSub] using hw
    | cons y ys =>
      apply ih
      split <;> omega

/-- Under the zero mask nothing is subtracted (R123, R129). -/
theorem rippleSub_zero_mask (a b : List Word) (h : a.length = b.length) : rippleSub 0 a b 0 = (a, 0) := by
  induction a generalizing b with
  | nil => simp [rippleSub]
  | cons x xs ih =>
    cases b with
    | nil => simp at h
    | cons y ys =>
      have hx : ¬ ((x.toNat : Int) - ((y &&& 0).toNat : Int) - ((0 : Nat) : Int) < 0) := by simp
      rw [rippleSub, if_neg hx, ih ys (by simpa using h)]
      simp

/-! ## The comparison (R122) -/

/-- After the loop `lt` says `val(a) < val(b)` and `gt` says `val(b) < val(a)` (R122), borrows in included. -/
theorem compareLoop_spec (a b : List Word) (lt gt : Nat) (h : a.length = b.length) (hl : lt ≤ 1) (hg : gt ≤ 1) :
    compareLoop a b lt gt =
      (if val a < val b + lt then 1 else 0, if val b < val a + gt then 1 else 0) := by
  induction a generalizing b lt gt with
  | nil =>
    cases b with
    | nil =>
      simp only [compareLoop, val]
      rcases (by omega : lt = 0 ∨ lt = 1) with rfl | rfl <;> rcases (by omega : gt = 0 ∨ gt = 1) with rfl | rfl <;> simp
    | cons y ys => simp at h
  | cons x xs ih =>
    cases b with
    | nil => simp at h
    | cons y ys =>
      have h1 := x.isLt
      have h2 := y.isLt
      rw [compareLoop, ih _ _ _ (by simpa using h) (by split <;> omega) (by split <;> omega)]
      simp only [val]
      congr 1
      · by_cases c : (x.toNat : Int) - (y.toNat : Int) - (lt : Int) < 0 <;> simp only [c, if_true, if_false] <;>
          congr 1 <;> simp only [eq_iff_iff] <;> omega
      · by_cases c : (y.toNat : Int) - (x.toNat : Int) - (gt : Int) < 0 <;> simp only [c, if_true, if_false] <;>
          congr 1 <;> simp only [eq_iff_iff] <;> omega

/-! ## Multiplication (R132, R135, R138) -/

theorem mulAddLoop_length (l : Word) (a m : List Word) (c : Nat) (h : a.length = m.length) :
    (mulAddLoop l a m c).1.length = a.length := by
  induction a generalizing m c with
  | nil => simp [mulAddLoop]
  | cons x xs ih =>
    cases m with
    | nil => simp at h
    | cons y ys => simpa [mulAddLoop] using ih ys _ (by simpa using h)

/-- `val(aug') + c * 2^(32n) = val(aug) + val(mc) * l` (R135), with a carry in. -/
theorem mulAddLoop_val (l : Word) (a m : List Word) (c : Nat) (h : a.length = m.length) :
    val (mulAddLoop l a m c).1 + (mulAddLoop l a m c).2 * 2 ^ (32 * a.length) = val a + val m * l.toNat + c := by
  induction a generalizing m c with
  | nil =>
    cases m with
    | nil => simp [mulAddLoop, val]
    | cons y ys => simp at h
  | cons x xs ih =>
    cases m with
    | nil => simp at h
    | cons y ys =>
      have := ih ys ((x.toNat + y.toNat * l.toNat + c) / 2 ^ 32) (by simpa using h)
      simp only [mulAddLoop, val, List.length_cons, BitVec.toNat_ofNat] at this ⊢
      rw [show 32 * (xs.length + 1) = 32 + 32 * xs.length by omega, Nat.pow_add]
      have hd := Nat.mod_add_div (x.toNat + y.toNat * l.toNat + c) (2 ^ 32)
      generalize mulAddLoop l xs ys ((x.toNat + y.toNat * l.toNat + c) / 2 ^ 32) = r at *
      generalize 2 ^ (32 * xs.length) = p at *
      have e : r.2 * (2 ^ 32 * p) = 2 ^ 32 * (r.2 * p) := by ring
      have e2 : (y.toNat + 2 ^ 32 * val ys) * l.toNat = y.toNat * l.toNat + 2 ^ 32 * (val ys * l.toNat) := by ring
      rw [e, e2]
      generalize y.toNat * l.toNat = q at *
      generalize val ys * l.toNat = q' at *
      omega

/-- The carry of the multiply loop stays one limb (R135, R136). -/
theorem mulAddLoop_carry_lt (l : Word) (a m : List Word) (c : Nat) (hc : c < 2 ^ 32) :
    (mulAddLoop l a m c).2 < 2 ^ 32 := by
  induction a generalizing m c with
  | nil => simpa [mulAddLoop] using hc
  | cons x xs ih =>
    cases m with
    | nil => simpa [mulAddLoop] using hc
    | cons y ys =>
      apply ih
      have h1 := x.isLt
      have h2 : y.toNat * l.toNat ≤ (2 ^ 32 - 1) * (2 ^ 32 - 1) :=
        Nat.mul_le_mul (by have := y.isLt; omega) (by have := l.isLt; omega)
      generalize y.toNat * l.toNat = q at *
      omega

theorem mulSubLoop_length (l : Word) (a m : List Word) (c : Int) (h : a.length = m.length) :
    (mulSubLoop l a m c).1.length = a.length := by
  induction a generalizing m c with
  | nil => simp [mulSubLoop]
  | cons x xs ih =>
    cases m with
    | nil => simp at h
    | cons y ys => simpa [mulSubLoop] using ih ys _ (by simpa using h)

/-- `val(min') - c * 2^(32n) = val(min) - val(mc) * l` (R138), with a carry in. -/
theorem mulSubLoop_val (l : Word) (a m : List Word) (c : Int) (h : a.length = m.length) :
    (val (mulSubLoop l a m c).1 : Int) - (mulSubLoop l a m c).2 * 2 ^ (32 * a.length)
      = val a - val m * l.toNat - c := by
  induction a generalizing m c with
  | nil =>
    cases m with
    | nil => simp [mulSubLoop, val]
    | cons y ys => simp at h
  | cons x xs ih =>
    cases m with
    | nil => simp at h
    | cons y ys =>
      have := ih ys (-(((x.toNat : Int) - (y.toNat : Int) * (l.toNat : Int) - c) / 2 ^ 32)) (by simpa using h)
      simp only [mulSubLoop, val, List.length_cons, BitVec.toNat_ofInt] at this ⊢
      rw [show 32 * (xs.length + 1) = 32 + 32 * xs.length by omega, pow_add]
      generalize mulSubLoop l xs ys (-(((x.toNat : Int) - (y.toNat : Int) * (l.toNat : Int) - c) / 2 ^ 32)) = r at *
      generalize (2 : Int) ^ (32 * xs.length) = p at *
      push_cast
      have e : r.2 * (4294967296 * p) = 2 ^ 32 * (r.2 * p) := by ring
      have e2 : ((y.toNat : Int) + 4294967296 * val ys) * l.toNat = y.toNat * l.toNat + 2 ^ 32 * (val ys * l.toNat) := by
        ring
      rw [e, e2]
      generalize (y.toNat : Int) * l.toNat = q at *
      generalize (val ys : Int) * l.toNat = q' at *
      omega

/-- The combined carry and borrow stays a magnitude of one limb (R138). -/
theorem mulSubLoop_carry (l : Word) (a m : List Word) (c : Int) (h0 : 0 ≤ c) (hc : c < 2 ^ 32) :
    0 ≤ (mulSubLoop l a m c).2 ∧ (mulSubLoop l a m c).2 < 2 ^ 32 := by
  induction a generalizing m c with
  | nil => simpa [mulSubLoop] using ⟨h0, hc⟩
  | cons x xs ih =>
    cases m with
    | nil => simpa [mulSubLoop] using ⟨h0, hc⟩
    | cons y ys =>
      have h1 := x.isLt
      have h2 : y.toNat * l.toNat ≤ (2 ^ 32 - 1) * (2 ^ 32 - 1) :=
        Nat.mul_le_mul (by have := y.isLt; omega) (by have := l.isLt; omega)
      have h3 : ((y.toNat : Int) * (l.toNat : Int)) = ((y.toNat * l.toNat : Nat) : Int) := by push_cast; rfl
      apply ih <;> rw [h3] <;> generalize y.toNat * l.toNat = q at * <;> omega

theorem mulRow_length (bj : Word) (a r : List Word) (c : Nat) : (mulRow bj a r c).length = r.length := by
  induction a generalizing r c with
  | nil => cases r <;> simp [mulRow]
  | cons x xs ih =>
    cases r with
    | nil => simp [mulRow]
    | cons y ys => simpa [mulRow] using ih ys _

/-- One row: the result limbs gain `a * bj * 2^(32 j)`, where the limb the carry is written to was zero (R132). -/
theorem mulRow_val (bj : Word) (a r : List Word) (c : Nat) (hc : c < 2 ^ 32) (hl : a.length < r.length)
    (hz : ∀ i, a.length ≤ i → r.getD i 0 = 0) :
    val (mulRow bj a r c) = val r + val a * bj.toNat + c := by
  induction a generalizing r c with
  | nil =>
    cases r with
    | nil => simp at hl
    | cons y ys =>
      have := hz 0 (by simp)
      simp only [List.getD_cons_zero] at this
      subst this
      have h0 : (0 : Word).toNat = 0 := rfl
      simp only [mulRow, val, BitVec.toNat_ofNat, h0]; omega
  | cons x xs ih =>
    cases r with
    | nil => simp at hl
    | cons y ys =>
      have h2 : x.toNat * bj.toNat ≤ (2 ^ 32 - 1) * (2 ^ 32 - 1) :=
        Nat.mul_le_mul (by have := x.isLt; omega) (by have := bj.isLt; omega)
      have h1 := y.isLt
      have := ih ys ((y.toNat + x.toNat * bj.toNat + c) / 2 ^ 32)
        (by generalize x.toNat * bj.toNat = q at *; omega) (by simpa using hl)
        (fun i hi => by simpa using hz (i + 1) (by simpa using hi))
      simp only [mulRow, val, this, BitVec.toNat_ofNat]
      have e2 : (x.toNat + 2 ^ 32 * val xs) * bj.toNat = x.toNat * bj.toNat + 2 ^ 32 * (val xs * bj.toNat) := by ring
      rw [e2]
      have hd := Nat.mod_add_div (y.toNat + x.toNat * bj.toNat + c) (2 ^ 32)
      generalize x.toNat * bj.toNat = q at *
      generalize val xs * bj.toNat = q' at *
      omega

/-- The limbs a row does not reach stay as they were (R132). -/
theorem mulRow_above (bj : Word) (a r : List Word) (c i : Nat) (hi : a.length < i) :
    (mulRow bj a r c).getD i 0 = r.getD i 0 := by
  induction a generalizing r c i with
  | nil =>
    obtain ⟨i, rfl⟩ : ∃ k, i = k + 1 := ⟨i - 1, by simp at hi; omega⟩
    cases r with
    | nil => simp [mulRow]
    | cons y ys => simp [mulRow]
  | cons x xs ih =>
    obtain ⟨i, rfl⟩ : ∃ k, i = k + 1 := ⟨i - 1, by simp at hi; omega⟩
    cases r with
    | nil => simp [mulRow]
    | cons y ys => simpa [mulRow] using ih ys _ i (by simpa using hi)

theorem schoolbook_length (a b r : List Word) : (schoolbook a b r).length = r.length := by
  induction b generalizing r with
  | nil => simp [schoolbook]
  | cons x xs ih =>
    have h := mulRow_length x a r 0
    simp only [schoolbook]
    split
    · next e => simp [e] at h; simp [← h]
    · next r0 rs e => rw [List.length_cons, ih, ← h, e, List.length_cons]

theorem schoolbook_val_aux (a b r : List Word) (hl : a.length + b.length ≤ r.length)
    (hz : ∀ i, a.length ≤ i → r.getD i 0 = 0) :
    val (schoolbook a b r) = val r + val a * val b := by
  induction b generalizing r with
  | nil => simp [schoolbook, val]
  | cons x xs ih =>
    have hl' : a.length < r.length := by simp only [List.length_cons] at hl; omega
    have hv := mulRow_val x a r 0 (by decide) hl' hz
    have hlen := mulRow_length x a r 0
    have hab := fun i => mulRow_above x a r 0 i
    simp only [schoolbook]
    split
    · next e => simp [e] at hlen; omega
    · next r0 rs e =>
      rw [e] at hv hlen hab
      simp only [List.length_cons] at hl hlen
      simp only [val] at hv ⊢
      rw [ih rs (by omega) (fun i hi => by
        have h1 := hab (i + 1) (by omega)
        rw [hz (i + 1) (by omega)] at h1
        simpa using h1)]
      have e2 : val a * (x.toNat + 2 ^ 32 * val xs) = val a * x.toNat + 2 ^ 32 * (val a * val xs) := by ring
      rw [e2]
      generalize val a * val xs = q at *
      generalize val a * x.toNat = q' at *
      omega

/-- `val(res') = val(a) * val(b)` (R132), surplus limbs zero (R133). -/
theorem schoolbook_val (a b : List Word) (n : Nat) (hl : a.length + b.length ≤ n) :
    val (schoolbook a b (List.replicate n 0)) = val a * val b := by
  rw [schoolbook_val_aux a b _ (by simpa using hl)
    (fun i _ => by by_cases h : i < n <;> simp [List.getD, h])]
  simp

/-! ## Residues (R172, R176, R180, R184, R212) -/

/-- `modPow` is the power, reduced. -/
theorem modPow_eq (b m n e : Nat) (h : e < 2 ^ n) : modPow b m n e = b ^ e % m := by
  induction n generalizing e with
  | zero =>
    have : e = 0 := by simpa using h
    simp [modPow, this]
  | succ n ih =>
    rw [modPow, ih _ (by omega), Nat.mul_mod, Nat.pow_mod, Nat.mod_mod, ← Nat.pow_mod, ← Nat.mul_mod]
    congr 1
    rw [← pow_mul, ← pow_add]
    congr 1
    omega

/-- `R * Rinv = 1` modulo an odd `M`. -/
theorem bigR_mul_bigRinv (k m : Nat) (hm : m % 2 = 1) : bigR k * bigRinv k m ≡ 1 [MOD m] := by
  have h1 : bigRinv k m ≡ ((m + 1) / 2) ^ (32 * k) [MOD m] := by
    rw [bigRinv, modPow_eq _ _ _ _ Nat.lt_two_pow_self]
    exact Nat.mod_modEq _ _
  have h2 : 2 * ((m + 1) / 2) ≡ 1 [MOD m] := by
    rw [show 2 * ((m + 1) / 2) = m + 1 by omega]
    simp [Nat.ModEq]
  calc bigR k * bigRinv k m ≡ 2 ^ (32 * k) * ((m + 1) / 2) ^ (32 * k) [MOD m] := Nat.ModEq.mul_left _ h1
    _ = (2 * ((m + 1) / 2)) ^ (32 * k) := by rw [Nat.mul_pow]
    _ ≡ 1 ^ (32 * k) [MOD m] := h2.pow _
    _ = 1 := by simp

/-- `redc` is the one residue `r < M` with `r * R = T` modulo `M` (R180). -/
theorem redc_spec (k m t : Nat) (hm : m % 2 = 1) : redc k m t < m ∧ redc k m t * bigR k ≡ t [MOD m] := by
  refine ⟨Nat.mod_lt _ (by omega), ?_⟩
  calc t * bigRinv k m % m * bigR k ≡ t * bigRinv k m * bigR k [MOD m] := (Nat.mod_modEq _ _).mul_right _
    _ = t * (bigR k * bigRinv k m) := by ring
    _ ≡ t * 1 [MOD m] := (bigR_mul_bigRinv k m hm).mul_left _
    _ = t := by simp

theorem montMul_eq_redc (k m a b : Nat) : montMul k m a b = redc k m (a * b) := rfl

/-- `m * negInvBits m n + 1` is divisible by `2^n`, for odd `m` (R173). -/
theorem negInvBits_spec (m n : Nat) (hm : m % 2 = 1) : negInvBits m n < 2 ^ n ∧ (m * negInvBits m n + 1) % 2 ^ n = 0 := by
  induction n with
  | zero => simp [negInvBits]
  | succ n ih =>
    obtain ⟨h1, h2⟩ := ih
    obtain ⟨q, hq⟩ := Nat.dvd_of_mod_eq_zero h2
    have hp : 0 < 2 ^ n := Nat.two_pow_pos n
    have hqd : (m * negInvBits m n + 1) / 2 ^ n = q := by rw [hq]; exact Nat.mul_div_cancel_left _ hp
    simp only [negInvBits, hqd]
    constructor
    · have : 2 ^ n * (q % 2) ≤ 2 ^ n * 1 := Nat.mul_le_mul_left _ (by omega)
      rw [Nat.pow_succ]; omega
    · have e : m * (negInvBits m n + 2 ^ n * (q % 2)) + 1 = 2 ^ n * (q + m * (q % 2)) := by
        rw [Nat.mul_add, Nat.add_right_comm, hq]; ring
      rw [e, Nat.pow_succ]
      have h3 : (q + m * (q % 2)) % 2 = 0 := by
        rcases Nat.mod_two_eq_zero_or_one q with h | h <;> simp [h, Nat.add_mod, hm]
      obtain ⟨z, hz⟩ := Nat.dvd_of_mod_eq_zero h3
      rw [hz, show 2 ^ n * (2 * z) = 2 ^ n * 2 * z by ring]
      simp

/-- The defining equation of `NINV` (R173). -/
theorem negInverse_spec (m0 : Word) (h : m0.toNat % 2 = 1) : m0.toNat * (negInverse m0).toNat % 2 ^ 32 = 0xFFFFFFFF := by
  obtain ⟨h1, h2⟩ := negInvBits_spec m0.toNat 32 h
  rw [negInverse, BitVec.toNat_ofNat, Nat.mod_eq_of_lt h1]
  omega

/-! ## Predicates as arithmetic (R9) -/

theorem normLimb_iff (d : Word) : normLimb d = true ↔ 2 ^ 31 ≤ d.toNat := by
  have := d.isLt
  rw [normLimb, ← BitVec.testBit_toNat, Nat.testBit, Nat.shiftRight_eq_div_pow]
  simp only [Nat.one_and_eq_mod_two, bne_iff_ne, ne_eq]
  omega

theorem isOdd_iff (a : List Word) : isOdd a = true ↔ val a % 2 = 1 := by
  cases a with
  | nil => simp [isOdd, val]
  | cons l ls =>
    simp only [isOdd, List.headD_cons, val]
    rw [← BitVec.testBit_toNat, Nat.testBit_zero, decide_eq_true_eq]
    omega

/-- A normalized array of `k` limbs has at least the value `2^(32k-1)` (R193). -/
theorem normalized_val {a : List Word} (h : normalized a = true) : 2 ^ (32 * a.length) ≤ 2 * val a := by
  induction a with
  | nil => simp [normalized, normLimb] at h
  | cons l ls ih =>
    cases ls with
    | nil =>
      have := (normLimb_iff l).1 (by simpa [normalized] using h)
      simp [val]; omega
    | cons k ks =>
      have := ih (by simpa [normalized] using h)
      rw [List.length_cons, show 32 * ((k :: ks).length + 1) = 32 + 32 * (k :: ks).length by omega, Nat.pow_add]
      rw [val]
      generalize 2 ^ (32 * (k :: ks).length) = p at *
      omega

/-- The reciprocal of a normalized limb (R142, R143). -/
theorem invert_spec {d : Word} (h : normLimb d = true) : (invert d).toNat + 2 ^ 32 = (2 ^ 64 - 1) / d.toNat := by
  have h1 := (normLimb_iff d).1 h
  have h2 := d.isLt
  have h3 : 2 ^ 32 + 1 ≤ (2 ^ 64 - 1) / d.toNat := (Nat.le_div_iff_mul_le (by omega)).2 (by omega)
  have h4 : (2 ^ 64 - 1) / d.toNat ≤ 2 ^ 33 - 1 :=
    calc (2 ^ 64 - 1) / d.toNat ≤ (2 ^ 64 - 1) / 2 ^ 31 := Nat.div_le_div_left h1 (by decide)
      _ = 2 ^ 33 - 1 := by decide
  rw [invert, BitVec.toNat_ofNat, Nat.mod_eq_of_lt (by omega)]
  omega

end Sys2Proof.Machine
end

