-- ==== Sys2Proof/Laws/Context.lean ====
section
/-! SUPPORT. The arithmetic of the context commands: the modulus of a READY context, powers in Montgomery form, SELECT's
loop. -/

namespace Sys2Proof.Machine

/-- The modulus of a READY context is odd and at least half of `R` (R35, R9). -/
theorem modVal_of_contextReady {s : State} (h : s.contextReady) :
    s.modVal % 2 = 1 ∧ 2 ^ (32 * s.ctx.k) ≤ 2 * s.modVal ∧ s.modVal < 2 ^ (32 * s.ctx.k) := by
  obtain ⟨-, -, -, h3, -⟩ := h
  have h4 : isOdd s.modulus = true ∧ normalized s.modulus = true := by
    simp only [validMod, Bool.and_eq_true, decide_eq_true_eq] at h3
    exact ⟨h3.1.2, h3.2⟩
  have h5 := normalized_val h4.2
  have h6 := val_lt s.modulus
  rw [length_modulus] at h5 h6
  exact ⟨(isOdd_iff _).1 h4.1, h5, h6⟩

/-- `R - M` is `R mod M`, because the modulus is normalized (R193). -/
theorem montIdentity_eq_mod {s : State} (h : s.contextReady) :
    montIdentity s.ctx.k s.modVal = bigR s.ctx.k % s.modVal := by
  obtain ⟨h1, h2, h3⟩ := modVal_of_contextReady h
  have h4 : 2 ^ (32 * s.ctx.k) ≠ 2 * s.modVal := by
    have h5 : 1 ≤ s.ctx.k := h.2.1
    have h6 : 2 ^ (32 * s.ctx.k) = 4 * 2 ^ (32 * s.ctx.k - 2) := by
      rw [show (4 : Nat) = 2 ^ 2 from rfl, ← Nat.pow_add]
      congr 1
      omega
    omega
  rw [montIdentity, bigR, Nat.mod_eq_sub_mod (by omega), Nat.mod_eq_of_lt (by omega)]

/-- One step of rule R196's loop: from a power in Montgomery form to the next. -/
theorem montMul_toMont {k m b i p : Nat} (hm : m % 2 = 1) (hp : p = b ^ i * bigR k % m) :
    montMul k m p (toMont k m b) = b ^ (i + 1) * bigR k % m := by
  subst hp
  have h := bigR_mul_bigRinv k m hm
  show _ ≡ _ [MOD m]
  calc b ^ i * bigR k % m * toMont k m b * bigRinv k m
      ≡ b ^ i * bigR k * (b * bigR k) * bigRinv k m [MOD m] :=
        ((Nat.mod_modEq _ _).mul (Nat.mod_modEq _ _)).mul_right _
    _ = b ^ (i + 1) * bigR k * (bigR k * bigRinv k m) := by ring
    _ ≡ b ^ (i + 1) * bigR k * 1 [MOD m] := h.mul_left _
    _ = _ := by ring

theorem powersFrom_spec {k m b : Nat} (hm : m % 2 = 1) (n i prev : Nat) (hp : prev = b ^ i * bigR k % m) :
    powersFrom k m (toMont k m b) n prev = (List.range n).map fun j => b ^ (i + 1 + j) * bigR k % m := by
  induction n generalizing i prev with
  | zero => rfl
  | succ n ih =>
    rw [powersFrom, ih (i + 1) _ (montMul_toMont hm hp), montMul_toMont hm hp, List.range_succ_eq_map]
    simp only [List.map_cons, List.map_map, Nat.add_zero, List.cons.injEq, true_and]
    refine List.map_congr_left fun j _ => ?_
    show b ^ (i + 1 + 1 + j) * bigR k % m = b ^ (i + 1 + (j + 1)) * bigR k % m
    congr 3
    omega

/-- Row `j` of rule R196's table is `b^j` in Montgomery form. -/
theorem montPowers_spec {k m b : Nat} (hm : m % 2 = 1) (hid : montIdentity k m = bigR k % m) (n : Nat) :
    montPowers k m b n = (List.range n).map fun j => b ^ j * bigR k % m := by
  match n with
  | 0 => rfl
  | 1 => simp [montPowers, hid]
  | n + 2 =>
    rw [montPowers, powersFrom_spec hm n 1 _ (by simp [toMont]), List.range_succ_eq_map, List.range_succ_eq_map]
    simp only [hid, toMont, List.map_cons, List.map_map, pow_zero, one_mul, List.cons.injEq, true_and, pow_one]
    congr 2
    funext j
    show b ^ (1 + 1 + j) * bigR k % m = b ^ (j + 1 + 1) * bigR k % m
    congr 3
    omega

@[simp] theorem length_powersFrom (k m one n prev : Nat) : (powersFrom k m one n prev).length = n := by
  induction n generalizing prev with
  | zero => rfl
  | succ n ih => simp [powersFrom, ih]

@[simp] theorem length_montPowers (k m base n : Nat) : (montPowers k m base n).length = n := by
  match n with
  | 0 => rfl
  | 1 => rfl
  | n + 2 => simp [montPowers]

/-- SELECT's result has the rows' length. -/
theorem length_selectLoop (idx : Word) (i n : Nat) (rows : List (List Word)) (acc : List Word) (ha : acc.length = n)
    (hr : ∀ r ∈ rows, r.length = n) : (selectLoop idx i rows acc).length = n := by
  induction rows generalizing i acc with
  | nil => exact ha
  | cons r rows ih =>
    rw [selectLoop]
    exact ih _ _ (by simp [ha, hr r (by simp)]) fun x hx => hr x (by simp [hx])

/-- The `i`-th piece of pieces of one length laid end to end. -/
theorem take_drop_flatten (L : List (List Word)) (k : Nat) (h : ∀ l ∈ L, l.length = k) (i : Nat) (hi : i < L.length) :
    (L.flatten.drop (i * k)).take k = L[i] := by
  induction L generalizing i with
  | nil => simp at hi
  | cons l L ih =>
    have hl := h l (by simp)
    cases i with
    | zero => simp [hl]
    | succ i =>
      rw [List.flatten_cons, show (i + 1) * k = l.length + i * k by rw [hl]; ring, List.drop_append]
      simp only [Nat.add_sub_cancel_left, List.getElem_cons_succ]
      rw [List.drop_eq_nil_of_le (by omega), List.nil_append]
      exact ih (fun x hx => h x (by simp [hx])) i (by simpa using hi)

/-- Rule R200's loop: the row of the index, or what was there before when no row has that number. -/
theorem selectLoop_spec (idx : Word) (i n : Nat) (rows : List (List Word)) (acc : List Word) (ha : acc.length = n)
    (hr : ∀ r ∈ rows, r.length = n)
    (hz : i ≤ idx.toNat → idx.toNat < i + rows.length → acc = List.replicate n 0) :
    selectLoop idx i rows acc =
      if i ≤ idx.toNat ∧ idx.toNat < i + rows.length then rows.getD (idx.toNat - i) [] else acc := by
  induction rows generalizing i acc with
  | nil => simp [selectLoop]
  | cons r rows ih =>
    have hrl := hr r (by simp)
    have hrs : ∀ x ∈ rows, x.length = n := fun x hx => hr x (by simp [hx])
    rw [selectLoop]
    by_cases c : i = idx.toNat
    · have e : List.zipWith (fun r t => r ||| (t &&& maskOf (decide (i = idx.toNat)))) acc r = r := by
        rw [hz (by omega) (by simp; omega)]
        refine List.ext_getElem (by simp [hrl]) fun j h1 h2 => ?_
        simp [c, maskOf]
      rw [e, ih (i + 1) r hrl hrs (by omega), if_neg (by omega), if_pos (by simp; omega)]
      simp [c]
    · have e : List.zipWith (fun r t => r ||| (t &&& maskOf (decide (i = idx.toNat)))) acc r = acc := by
        refine List.ext_getElem (by simp [hrl, ha]) fun j h1 h2 => ?_
        simp [c, maskOf]
      rw [e, ih (i + 1) acc ha hrs (fun h1 h2 => hz (by omega) (by simp; omega))]
      by_cases d : i + 1 ≤ idx.toNat ∧ idx.toNat < i + 1 + rows.length
      · obtain ⟨k, hk⟩ : ∃ k, idx.toNat = i + (k + 1) := ⟨idx.toNat - i - 1, by omega⟩
        rw [if_pos d, if_pos (by simp; omega)]
        simp [hk, show i + (k + 1) - (i + 1) = k by omega]
      · rw [if_neg d, if_neg (by simp; omega)]

end Sys2Proof.Machine
end

