-- ==== Sys2Proof/Laws/Effect.lean ====
section
/-! SUPPORT. Said once: everything a command can do.
A command but CTXINIT is one transition whose effect is built from outputs to its own destinations and, for the context
commands, from spoiling the scratch and the table. -/

namespace Sys2Proof.Machine

/-- The output `t.outLM ok base len v` lies in a slice the command `i` writes in state `s` (R68), and has its length. -/
def OutputFits (i : Instr) (s : State) (ok : Bool) (base len : Nat) (v : List Word) : Prop :=
  (∃ r ∈ writtenFields i, (s.slice r).base ≤ base ∧ base + len ≤ (s.slice r).base + (s.slice r).len) ∧
    (ok = true → v.length = len)

/-- `P` holds of `s` and is kept by every output the command `i` can make in state `s`. -/
structure KeptByOutputs (i : Instr) (s : State) (P : State → Prop) : Prop where
  start : P s
  outX : ∀ t ok r v, r ∈ destX i → P t → P (t.outX ok r v)
  outLM : ∀ t ok base len v, OutputFits i s ok base len v → P t → P (t.outLM ok base len v)
  scratch : ∀ t, needsContext i = true → P t → P t.spoilScratch
  table : ∀ t a b c, i = .powmod a b c → P t → P t.spoilTable

/-- The command `i` in state `s` is one transition, and what its outputs keep holds of its effect. -/
abbrev ExecEffect (i : Instr) (s : State) (P : State → Prop) : Prop :=
  ∃ effect, exec i s = s.command (s.publicCheck i) effect ∧ (s.publicCheck i = none → P effect)

variable {s : State} {P : State → Prop}

/-- An output of the whole slice of a written field. -/
theorem outputFits_slice {i : Instr} {ok : Bool} {r : SReg} {v : List Word} (hr : r ∈ writtenFields i)
    (hv : ok = true → v.length = (s.slice r).len) : OutputFits i s ok (s.slice r).base (s.slice r).len v :=
  ⟨⟨r, hr, Nat.le_refl _, Nat.le_refl _⟩, hv⟩

/-- A command whose effect keeps `P`, given what passing the checks says. -/
theorem execEffect_of {i : Instr} {effect : State} (h : exec i s = s.command (s.publicCheck i) effect)
    (hP : lengthsAgree s i = true → P effect) : ExecEffect i s P :=
  ⟨effect, h, fun hc => hP ((publicCheck_eq_none_iff s i).1 hc).2.2.2.1⟩

theorem execEffect_cmp {a : XReg} {b c : SReg} (h : KeptByOutputs (.cmp a b c) s P) : ExecEffect (.cmp a b c) s P :=
  execEffect_of rfl fun _ => h.outX _ _ _ _ (by simp [destX]) h.start

theorem keptByOutputs_addMasked {i : Instr} {a : XReg} {b c : SReg} {k : Word} (h : KeptByOutputs i s P)
    (ha : a ∈ destX i) (hb : b ∈ writtenFields i) (hl : (s.slice b).len = (s.slice c).len) :
    P (s.addMasked a (s.slice b) (s.slice c) k) :=
  h.outX _ _ _ _ ha
    (h.outLM _ _ _ _ _ (outputFits_slice hb fun _ => by rw [rippleAdd_length] <;> simp [hl]) h.start)

theorem keptByOutputs_subMasked {i : Instr} {a : XReg} {b c : SReg} {k : Word} (h : KeptByOutputs i s P)
    (ha : a ∈ destX i) (hb : b ∈ writtenFields i) (hl : (s.slice b).len = (s.slice c).len) :
    P (s.subMasked a (s.slice b) (s.slice c) k) :=
  h.outX _ _ _ _ ha
    (h.outLM _ _ _ _ _ (outputFits_slice hb fun _ => by rw [rippleSub_length] <;> simp [hl]) h.start)

theorem execEffect_add {a : XReg} {b c : SReg} (h : KeptByOutputs (.add a b c) s P) : ExecEffect (.add a b c) s P :=
  execEffect_of rfl fun hl =>
    keptByOutputs_addMasked h (by simp [destX]) (by simp [writtenFields]) (by simpa [lengthsAgree] using hl)

theorem execEffect_sub {a : XReg} {b c : SReg} (h : KeptByOutputs (.sub a b c) s P) : ExecEffect (.sub a b c) s P :=
  execEffect_of rfl fun hl =>
    keptByOutputs_subMasked h (by simp [destX]) (by simp [writtenFields]) (by simpa [lengthsAgree] using hl)

theorem execEffect_maskadd {a : XReg} {b c : SReg} {d : XReg} (h : KeptByOutputs (.maskadd a b c d) s P) :
    ExecEffect (.maskadd a b c d) s P :=
  execEffect_of rfl fun hl =>
    keptByOutputs_addMasked h (by simp [destX]) (by simp [writtenFields]) (by simpa [lengthsAgree] using hl)

theorem execEffect_masksub {a : XReg} {b c : SReg} {d : XReg} (h : KeptByOutputs (.masksub a b c d) s P) :
    ExecEffect (.masksub a b c d) s P :=
  execEffect_of rfl fun hl =>
    keptByOutputs_subMasked h (by simp [destX]) (by simp [writtenFields]) (by simpa [lengthsAgree] using hl)

theorem execEffect_mul {a b c : SReg} (h : KeptByOutputs (.mul a b c) s P) : ExecEffect (.mul a b c) s P :=
  execEffect_of rfl fun _ =>
    h.outLM _ _ _ _ _ (outputFits_slice (by simp [writtenFields]) fun _ => by simp [schoolbook_length]) h.start

theorem execEffect_muladd {a : XReg} {b c : SReg} {d : XReg} (h : KeptByOutputs (.muladd a b c d) s P) :
    ExecEffect (.muladd a b c d) s P :=
  execEffect_of rfl fun hl =>
    h.outX _ _ _ _ (by simp [destX]) (h.outLM _ _ _ _ _ (outputFits_slice (by simp [writtenFields]) fun _ => by
      rw [mulAddLoop_length] <;> simp_all [lengthsAgree]) h.start)

theorem execEffect_mulsub {a : XReg} {b c : SReg} {d : XReg} (h : KeptByOutputs (.mulsub a b c d) s P) :
    ExecEffect (.mulsub a b c d) s P :=
  execEffect_of rfl fun hl =>
    h.outX _ _ _ _ (by simp [destX]) (h.outLM _ _ _ _ _ (outputFits_slice (by simp [writtenFields]) fun _ => by
      rw [mulSubLoop_length] <;> simp_all [lengthsAgree]) h.start)

theorem execEffect_inv {a b : XReg} (h : KeptByOutputs (.inv a b) s P) : ExecEffect (.inv a b) s P :=
  execEffect_of (show execInv a b s = _ from rfl) fun _ => h.outX _ _ _ _ (by simp [destX]) h.start

theorem execEffect_div {a b c d e f : XReg} (h : KeptByOutputs (.div a b c d e f) s P) :
    ExecEffect (.div a b c d e f) s P :=
  execEffect_of (show execDiv a b c d e f s = _ from rfl) fun _ =>
    h.outX _ _ _ _ (by simp [destX]) (h.outX _ _ _ _ (by simp [destX]) h.start)

theorem execEffect_reduce {a b : SReg} (h : KeptByOutputs (.reduce a b) s P) : ExecEffect (.reduce a b) s P :=
  execEffect_of rfl fun hl =>
    h.outLM _ _ _ _ _ (outputFits_slice (by simp [writtenFields]) fun _ => by
      simp [lengthsAgree] at hl ⊢
      omega) h.start

theorem execEffect_mtrans {a b : SReg} (h : KeptByOutputs (.mtrans a b) s P) : ExecEffect (.mtrans a b) s P :=
  execEffect_of rfl fun hl =>
    h.scratch _ rfl (h.outLM _ _ _ _ _ (outputFits_slice (by simp [writtenFields]) fun _ => by
      simp_all [lengthsAgree]) h.start)

theorem execEffect_mredc {a : SReg} (h : KeptByOutputs (.mredc a) s P) : ExecEffect (.mredc a) s P :=
  execEffect_of rfl fun hl => by
    have hl : (s.slice a).len = 2 * s.ctx.k := by simpa [lengthsAgree] using hl
    have hw : a ∈ writtenFields (.mredc a) := by simp [writtenFields]
    exact h.scratch _ rfl (h.outLM _ _ _ _ _ ⟨⟨a, hw, by omega, by omega⟩, by simp⟩
      (h.outLM _ _ _ _ _ ⟨⟨a, hw, by omega, by omega⟩, by simp⟩ h.start))

theorem execEffect_mulred {a b c : SReg} (h : KeptByOutputs (.mulred a b c) s P) : ExecEffect (.mulred a b c) s P :=
  execEffect_of rfl fun hl =>
    h.scratch _ rfl (h.outLM _ _ _ _ _ (outputFits_slice (by simp [writtenFields]) fun _ => by
      simp_all [lengthsAgree]) h.start)

theorem execEffect_sqrred {a b : SReg} (h : KeptByOutputs (.sqrred a b) s P) : ExecEffect (.sqrred a b) s P :=
  execEffect_of rfl fun hl =>
    h.scratch _ rfl (h.outLM _ _ _ _ _ (outputFits_slice (by simp [writtenFields]) fun _ => by
      simp_all [lengthsAgree]) h.start)

theorem execEffect_mident {a : SReg} (h : KeptByOutputs (.mident a) s P) : ExecEffect (.mident a) s P :=
  execEffect_of rfl fun hl =>
    h.scratch _ rfl (h.outLM _ _ _ _ _ (outputFits_slice (by simp [writtenFields]) fun _ => by
      simp_all [lengthsAgree]) h.start)

theorem execEffect_mpowers {a b : SReg} (h : KeptByOutputs (.mpowers a b) s P) : ExecEffect (.mpowers a b) s P :=
  execEffect_of rfl fun hl =>
    h.scratch _ rfl (h.outLM _ _ _ _ _ (outputFits_slice (by simp [writtenFields]) fun _ => by
      have hd : (s.slice a).len % s.ctx.k = 0 := by simp_all [lengthsAgree]
      simp only [List.length_flatten, List.map_map, Function.comp_def, length_limbs, List.map_const', List.sum_replicate,
        length_montPowers, smul_eq_mul]
      exact Nat.div_mul_cancel (Nat.dvd_of_mod_eq_zero hd)) h.start)

theorem execEffect_select {a b : SReg} {c : XReg} (h : KeptByOutputs (.select a b c) s P) :
    ExecEffect (.select a b c) s P :=
  execEffect_of rfl fun hl =>
    h.scratch _ rfl (h.outLM _ _ _ _ _ (outputFits_slice (by simp [writtenFields]) fun _ => by
      have hd : (s.slice a).len = s.ctx.k := by simp_all [lengthsAgree]
      rw [hd]
      exact length_selectLoop _ _ _ _ _ (by simp) (by simp [State.tableRows, State.tableRow])) h.start)

theorem execEffect_powmod {a b c : SReg} (h : KeptByOutputs (.powmod a b c) s P) : ExecEffect (.powmod a b c) s P :=
  execEffect_of rfl fun hl =>
    h.table _ _ _ _ rfl (h.scratch _ rfl (h.outLM _ _ _ _ _ (outputFits_slice (by simp [writtenFields]) fun _ => by
      simp_all [lengthsAgree]) h.start))

/-- Every command but CTXINIT: one transition, whose effect keeps what its outputs keep. -/
theorem execEffect (i : Instr) (hi : ∀ a, i ≠ .ctxinit a) (h : KeptByOutputs i s P) : ExecEffect i s P := by
  cases i with
  | cmp a b c => exact execEffect_cmp h
  | add a b c => exact execEffect_add h
  | sub a b c => exact execEffect_sub h
  | maskadd a b c d => exact execEffect_maskadd h
  | masksub a b c d => exact execEffect_masksub h
  | mul a b c => exact execEffect_mul h
  | muladd a b c d => exact execEffect_muladd h
  | mulsub a b c d => exact execEffect_mulsub h
  | inv a b => exact execEffect_inv h
  | div a b c d e f => exact execEffect_div h
  | reduce a b => exact execEffect_reduce h
  | ctxinit a => exact absurd rfl (hi a)
  | mtrans a b => exact execEffect_mtrans h
  | mredc a => exact execEffect_mredc h
  | mulred a b c => exact execEffect_mulred h
  | sqrred a b => exact execEffect_sqrred h
  | mident a => exact execEffect_mident h
  | mpowers a b => exact execEffect_mpowers h
  | select a b c => exact execEffect_select h
  | powmod a b c => exact execEffect_powmod h

/-- CTXINIT is one transition too, with the two value checks behind the public ones. -/
theorem exec_ctxinit (a : SReg) (s : State) :
    exec (.ctxinit a) s =
      s.command ((s.publicCheck (.ctxinit a)).or (modulusCheck (s.modulusRead (s.slice a))))
        (s.install (s.modulusRead (s.slice a))) := rfl

/-- The modulus CTXINIT reads has its slice's length, whatever the host has done. -/
@[simp] theorem length_modulusRead (s : State) (S : Slice) : (s.modulusRead S).length = S.len := by
  unfold State.modulusRead
  split <;> simp

end Sys2Proof.Machine
end

