-- ==== Sys2Proof/Laws/PerInstr.lean ====
section
/-! SUPPORT. Statements about every instruction as syntax, one lemma per constructor: the top byte of a command's word is
its opcode of rule R92. -/

namespace Sys2Proof.Laws.EncodedOpcode

/-- The opcode field of the encoded command is the command's opcode (R90, R92). -/
def Statement (i : Instr) : Prop := opcOf (encode i) = i.opc

theorem opcOf_packWord (opc : Nat) (h : opc < 256) (a b c d e f : Fin 8) : opcOf (packWord opc a b c d e f) = opc := by
  have := a.isLt; have := b.isLt; have := c.isLt; have := d.isLt; have := e.isLt; have := f.isLt
  simp only [opcOf, packWord, BitVec.toNat_ofNat]
  omega

theorem opc_lt (i : Instr) : i.opc < 256 := by
  cases i <;> simp [Instr.opc]

theorem cmp (a : XReg) (b : SReg) (c : SReg) : Statement (.cmp a b c) :=
  opcOf_packWord _ (opc_lt _) _ _ _ _ _ _

theorem add (a : XReg) (b : SReg) (c : SReg) : Statement (.add a b c) :=
  opcOf_packWord _ (opc_lt _) _ _ _ _ _ _

theorem sub (a : XReg) (b : SReg) (c : SReg) : Statement (.sub a b c) :=
  opcOf_packWord _ (opc_lt _) _ _ _ _ _ _

theorem maskadd (a : XReg) (b : SReg) (c : SReg) (d : XReg) : Statement (.maskadd a b c d) :=
  opcOf_packWord _ (opc_lt _) _ _ _ _ _ _

theorem masksub (a : XReg) (b : SReg) (c : SReg) (d : XReg) : Statement (.masksub a b c d) :=
  opcOf_packWord _ (opc_lt _) _ _ _ _ _ _

theorem mul (a : SReg) (b : SReg) (c : SReg) : Statement (.mul a b c) :=
  opcOf_packWord _ (opc_lt _) _ _ _ _ _ _

theorem muladd (a : XReg) (b : SReg) (c : SReg) (d : XReg) : Statement (.muladd a b c d) :=
  opcOf_packWord _ (opc_lt _) _ _ _ _ _ _

theorem mulsub (a : XReg) (b : SReg) (c : SReg) (d : XReg) : Statement (.mulsub a b c d) :=
  opcOf_packWord _ (opc_lt _) _ _ _ _ _ _

theorem inv (a : XReg) (b : XReg) : Statement (.inv a b) :=
  opcOf_packWord _ (opc_lt _) _ _ _ _ _ _

theorem div (a : XReg) (b : XReg) (c : XReg) (d : XReg) (e : XReg) (f : XReg) : Statement (.div a b c d e f) :=
  opcOf_packWord _ (opc_lt _) _ _ _ _ _ _

theorem reduce (a : SReg) (b : SReg) : Statement (.reduce a b) :=
  opcOf_packWord _ (opc_lt _) _ _ _ _ _ _

theorem ctxinit (a : SReg) : Statement (.ctxinit a) :=
  opcOf_packWord _ (opc_lt _) _ _ _ _ _ _

theorem mtrans (a : SReg) (b : SReg) : Statement (.mtrans a b) :=
  opcOf_packWord _ (opc_lt _) _ _ _ _ _ _

theorem mredc (a : SReg) : Statement (.mredc a) :=
  opcOf_packWord _ (opc_lt _) _ _ _ _ _ _

theorem mulred (a : SReg) (b : SReg) (c : SReg) : Statement (.mulred a b c) :=
  opcOf_packWord _ (opc_lt _) _ _ _ _ _ _

theorem sqrred (a : SReg) (b : SReg) : Statement (.sqrred a b) :=
  opcOf_packWord _ (opc_lt _) _ _ _ _ _ _

theorem mident (a : SReg) : Statement (.mident a) :=
  opcOf_packWord _ (opc_lt _) _ _ _ _ _ _

theorem mpowers (a : SReg) (b : SReg) : Statement (.mpowers a b) :=
  opcOf_packWord _ (opc_lt _) _ _ _ _ _ _

theorem select (a : SReg) (b : SReg) (c : XReg) : Statement (.select a b c) :=
  opcOf_packWord _ (opc_lt _) _ _ _ _ _ _

theorem powmod (a : SReg) (b : SReg) (c : SReg) : Statement (.powmod a b c) :=
  opcOf_packWord _ (opc_lt _) _ _ _ _ _ _

end Sys2Proof.Laws.EncodedOpcode
end

