-- ==== Sys2Proof/Machine/Assembly.lean ====
section
/-! DEFINITION. The textual form of a command (R99) and the host directives of test programs (R100).
No step uses them: a program is a list of host transactions (R98). -/

namespace Sys2Proof.Machine

/-- An operand of a command line: `x0` .. `x7` or `s0` .. `s7` (R99). -/
inductive AsmOperand where
  | x (n : XReg)
  | s (n : SReg)
  deriving DecidableEq, Repr

/-- A command line in its parts: the mnemonic in capitals and the used fields in order A to F (R99). -/
structure AsmLine where
  mnemonic : String
  operands : List AsmOperand
  deriving DecidableEq, Repr

/-- The line that writes a command: its mnemonic (R92) and its used fields (R93, R99). -/
def asmLine (i : Instr) : AsmLine :=
  match i with
  | .cmp a b c => ⟨"CMP", [.x a, .s b, .s c]⟩
  | .add a b c => ⟨"ADD", [.x a, .s b, .s c]⟩
  | .sub a b c => ⟨"SUB", [.x a, .s b, .s c]⟩
  | .maskadd a b c d => ⟨"MASKADD", [.x a, .s b, .s c, .x d]⟩
  | .masksub a b c d => ⟨"MASKSUB", [.x a, .s b, .s c, .x d]⟩
  | .mul a b c => ⟨"MUL", [.s a, .s b, .s c]⟩
  | .muladd a b c d => ⟨"MULADD", [.x a, .s b, .s c, .x d]⟩
  | .mulsub a b c d => ⟨"MULSUB", [.x a, .s b, .s c, .x d]⟩
  | .inv a b => ⟨"INV", [.x a, .x b]⟩
  | .div a b c d e f => ⟨"DIV", [.x a, .x b, .x c, .x d, .x e, .x f]⟩
  | .reduce a b => ⟨"REDUCE", [.s a, .s b]⟩
  | .ctxinit a => ⟨"CTXINIT", [.s a]⟩
  | .mtrans a b => ⟨"MTRANS", [.s a, .s b]⟩
  | .mredc a => ⟨"MREDC", [.s a]⟩
  | .mulred a b c => ⟨"MULRED", [.s a, .s b, .s c]⟩
  | .sqrred a b => ⟨"SQRRED", [.s a, .s b]⟩
  | .mident a => ⟨"MIDENT", [.s a]⟩
  | .mpowers a b => ⟨"MPOWERS", [.s a, .s b]⟩
  | .select a b c => ⟨"SELECT", [.s a, .s b, .x c]⟩
  | .powmod a b c => ⟨"POWMOD", [.s a, .s b, .s c]⟩

/-- The command a line stands for: the one whose line it is (R99).
A line that names none, gives other operands, or gives a DIV one register for both results has no word. -/
def commandOf (l : AsmLine) : Option Instr :=
  match l.mnemonic, l.operands with
  | "CMP", [.x a, .s b, .s c] => some (.cmp a b c)
  | "ADD", [.x a, .s b, .s c] => some (.add a b c)
  | "SUB", [.x a, .s b, .s c] => some (.sub a b c)
  | "MASKADD", [.x a, .s b, .s c, .x d] => some (.maskadd a b c d)
  | "MASKSUB", [.x a, .s b, .s c, .x d] => some (.masksub a b c d)
  | "MUL", [.s a, .s b, .s c] => some (.mul a b c)
  | "MULADD", [.x a, .s b, .s c, .x d] => some (.muladd a b c d)
  | "MULSUB", [.x a, .s b, .s c, .x d] => some (.mulsub a b c d)
  | "INV", [.x a, .x b] => some (.inv a b)
  | "DIV", [.x a, .x b, .x c, .x d, .x e, .x f] => if a = b then none else some (.div a b c d e f)
  | "REDUCE", [.s a, .s b] => some (.reduce a b)
  | "CTXINIT", [.s a] => some (.ctxinit a)
  | "MTRANS", [.s a, .s b] => some (.mtrans a b)
  | "MREDC", [.s a] => some (.mredc a)
  | "MULRED", [.s a, .s b, .s c] => some (.mulred a b c)
  | "SQRRED", [.s a, .s b] => some (.sqrred a b)
  | "MIDENT", [.s a] => some (.mident a)
  | "MPOWERS", [.s a, .s b] => some (.mpowers a b)
  | "SELECT", [.s a, .s b, .x c] => some (.select a b c)
  | "POWMOD", [.s a, .s b, .s c] => some (.powmod a b c)
  | _, _ => none

/-- The characters of a line before its comment, which a `;` starts (R99). -/
def beforeComment : List Char → List Char
  | [] => []
  | c :: t => if c = ';' then [] else c :: beforeComment t

/-- The pieces of a line between the characters `isSep` holds for; with no piece between two of them, none is kept. -/
def pieces (isSep : Char → Bool) : List Char → List Char → List (List Char)
  | acc, [] => if acc = [] then [] else [acc.reverse]
  | acc, c :: t =>
    if isSep c then (if acc = [] then pieces isSep [] t else acc.reverse :: pieces isSep [] t)
    else pieces isSep (c :: acc) t

/-- An operand from its two characters, in capitals. -/
def asmOperand : List Char → Option AsmOperand
  | [k, d] =>
    if h : '0'.toNat ≤ d.toNat ∧ d.toNat < '0'.toNat + 8 then
      let n : Fin 8 := ⟨d.toNat - '0'.toNat, by omega⟩
      if k = 'X' then some (.x n) else if k = 'S' then some (.s n) else none
    else none
  | _ => none

/-- The parts of a line of text: capitals and small letters are the same, and white space and commas part the fields (R99). -/
def readLine (text : List Char) : Option AsmLine :=
  match pieces (fun c => c.isWhitespace || c = ',') [] ((beforeComment text).map Char.toUpper) with
  | [] => none
  | m :: ops => (ops.mapM asmOperand).map fun os => ⟨String.ofList m, os⟩

/-- The command a line of text stands for (R99). -/
def assemble (text : List Char) : Option Instr := (readLine text).bind commandOf

/-! ## Programs as host transactions (R100) -/

/-- `xset xN, v`. -/
def xset (n : XReg) (v : Word) : List HostOp := [.regWrite ⟨0x08 + n.val, by omega⟩ v]

/-- `sset sN, base, len`: `len * 2^16 + base`. -/
def sset (n : SReg) (base len : BitVec 16) : List HostOp := [.regWrite ⟨0x10 + n.val, by omega⟩ (len ++ base)]

/-- `lmw a, v0, v1, ...`. -/
def lmw (a : Nat) : List Word → List HostOp
  | [] => []
  | v :: vs => .lmWrite a v :: lmw (a + 1) vs

/-- A command line: its word is written to CMD and the host waits. -/
def commandLine (i : Instr) : List HostOp := [.regWrite 0x00 (encode i), .wait]

end Sys2Proof.Machine
end

