-- ==== Sys2Proof/Laws/Encoding.lean ====
section
/-! SUPPORT. The fields of a packed command word, and what a row's mask and match say about a word (R90, R93). -/

namespace Sys2Proof

/-- Rule R90's sum, before it becomes a word. -/
theorem toNat_packWord (opc : Nat) (h : opc < 256) (a b c d e f : Fin 8) :
    (packWord opc a b c d e f).toNat =
      opc * 2 ^ 24 + a.val * 2 ^ 21 + b.val * 2 ^ 18 + c.val * 2 ^ 15 + d.val * 2 ^ 12 + e.val * 2 ^ 9 + f.val * 2 ^ 6 := by
  rw [packWord, BitVec.toNat_ofNat, Nat.mod_eq_of_lt]
  omega

theorem fieldA_packWord (opc : Nat) (h : opc < 256) (a b c d e f : Fin 8) : fieldA (packWord opc a b c d e f) = a := by
  simp only [fieldA, fieldAt, toNat_packWord opc h, Fin.ext_iff]
  omega

theorem fieldB_packWord (opc : Nat) (h : opc < 256) (a b c d e f : Fin 8) : fieldB (packWord opc a b c d e f) = b := by
  simp only [fieldB, fieldAt, toNat_packWord opc h, Fin.ext_iff]
  omega

theorem fieldC_packWord (opc : Nat) (h : opc < 256) (a b c d e f : Fin 8) : fieldC (packWord opc a b c d e f) = c := by
  simp only [fieldC, fieldAt, toNat_packWord opc h, Fin.ext_iff]
  omega

theorem fieldD_packWord (opc : Nat) (h : opc < 256) (a b c d e f : Fin 8) : fieldD (packWord opc a b c d e f) = d := by
  simp only [fieldD, fieldAt, toNat_packWord opc h, Fin.ext_iff]
  omega

theorem fieldE_packWord (opc : Nat) (h : opc < 256) (a b c d e f : Fin 8) : fieldE (packWord opc a b c d e f) = e := by
  simp only [fieldE, fieldAt, toNat_packWord opc h, Fin.ext_iff]
  omega

theorem fieldF_packWord (opc : Nat) (h : opc < 256) (a b c d e f : Fin 8) : fieldF (packWord opc a b c d e f) = f := by
  simp only [fieldF, fieldAt, toNat_packWord opc h, Fin.ext_iff]
  omega

/-- A row's word decodes exactly when its unused low bits are zero (R91, R94). -/
theorem whenUnusedZero_eq_ok_iff {w : Word} {n : Nat} {i j : Instr} :
    whenUnusedZero w n i = .ok j ↔ w.toNat % 2 ^ n = 0 ∧ i = j := by
  unfold whenUnusedZero
  split <;> simp_all

/-- The top byte of a 32-bit word, masked in place. -/
theorem and_topByte (x : Nat) (hx : x < 2 ^ 32) : x &&& 255 * 2 ^ 24 = x / 2 ^ 24 * 2 ^ 24 := by
  rw [show (255 : Nat) * 2 ^ 24 = 255 <<< 24 from rfl, ← Nat.shiftRight_eq_div_pow, ← Nat.shiftLeft_eq]
  apply Nat.eq_of_testBit_eq
  intro i
  rw [Nat.testBit_and, Nat.testBit_shiftLeft, Nat.testBit_shiftLeft, Nat.testBit_shiftRight]
  have h255 : ∀ j : Fin 8, Nat.testBit 255 j = true := by decide
  by_cases h : 24 ≤ i
  · by_cases h2 : i < 32
    · have := h255 ⟨i - 24, by omega⟩
      simp only at this
      simp [this, h]
    · have : x.testBit i = false :=
        Nat.testBit_lt_two_pow (lt_of_lt_of_le hx (Nat.pow_le_pow_right (by omega) (by omega)))
      simp [this, h]
  · simp [h]

/-- What a row of rule R93 says with its mask (top byte and lowest `n` bits) and match (its opcode in the top byte). -/
theorem and_mask_eq_match_iff (w m k : Word) {o n : Nat} (hm : m.toNat = o * 2 ^ 24)
    (hk : k.toNat = 255 * 2 ^ 24 ||| (2 ^ n - 1)) (hn : n ≤ 24) :
    w &&& k = m ↔ opcOf w = o ∧ w.toNat % 2 ^ n = 0 := by
  have hlt : w.toNat % 2 ^ n < 2 ^ 24 :=
    lt_of_lt_of_le (Nat.mod_lt _ (by positivity)) (Nat.pow_le_pow_right (by omega) hn)
  rw [← BitVec.toNat_inj, BitVec.toNat_and, hm, hk, Nat.and_or_distrib_left, and_topByte _ w.isLt,
    Nat.and_two_pow_sub_one_eq_mod, ← Nat.shiftLeft_eq, ← Nat.shiftLeft_add_eq_or_of_lt hlt, Nat.shiftLeft_eq, opcOf]
  omega

/-- Rule R99: reading back the line that writes a command gives the command. -/
theorem Machine.commandOf_asmLine (i : Instr) (h : i.wellFormed = true) :
    Machine.commandOf (Machine.asmLine i) = some i := by
  cases i <;> simp_all [Instr.wellFormed, Machine.asmLine, Machine.commandOf]

end Sys2Proof
end

