-- ==== Sys2Proof/Laws/Step.lean ====
section
/-! SUPPORT. Which part of the machine one step runs (R20, R22): the engine, or the host's next transaction. -/

namespace Sys2Proof.Machine

/-- While BUSY with the host silent the engine moves. -/
theorem step_engine_silent {s : State} (hb : s.busy = true) (h : s.input = []) : step s = engineStep s := by
  simp [step, hb, h]

/-- While BUSY with the host waiting the engine moves, and the wait goes on. -/
theorem step_engine_waiting {s : State} {rest : List HostOp} (hb : s.busy = true) (h : s.input = .wait :: rest) :
    step s = engineStep s := by
  simp [step, hb, h]

/-- While BUSY the host acts against rule R266. -/
theorem step_host_busy {s : State} {op : HostOp} {rest : List HostOp} (hb : s.busy = true) (h : s.input = op :: rest)
    (hop : op ≠ .wait) : step s = ({ s with input := rest } : State).hostBusy op := by
  cases op <;> simp_all [step]

/-- While IDLE the host makes its next transaction. -/
theorem step_host_idle {s : State} {op : HostOp} {rest : List HostOp} (hb : s.busy = false) (h : s.input = op :: rest) :
    step s = ({ s with input := rest } : State).hostIdle op := by
  simp [step, hb, h]

/-- The engine's step for a word that decodes. -/
theorem engineStep_ok {s : State} {i : Instr} (h : decode s.cmd = .ok i) : engineStep s = settle (exec i s) := by
  rw [engineStep, h]

/-- The engine's step for an ILLEGAL word. -/
theorem engineStep_illegal {s : State} {r : IllegalWord} (h : decode s.cmd = .illegal r) :
    engineStep s = .next (s.raise .illegal).settleSD := by
  rw [engineStep, h]
  rfl

/-- What the step adds around a command changes no outcome. -/
theorem settle_eq_next_iff {o : Host.Outcome State Fault Refusal} {t : State} :
    settle o = .next t ↔ ∃ e, o = .next e ∧ t = e.settleSD := by
  cases o <;> simp [settle, eq_comm]

end Sys2Proof.Machine
end

