-- ==== Sys2Proof/Tests/Slice0.lean ====
section
/-! SUPPORT. Small tests: well-formedness, decoding of written-out words, one command at a time against the vectors of
spec/95_test_vectors.md, and a witness for the hypotheses of every obligation. -/

namespace Sys2Proof.Tests

-- One theorem at a time: each kernel check has a thread of its own otherwise, and their stacks add up.
set_option Elab.async false

open Sys2Proof Sys2Proof.Machine

/-! ## Helpers -/

/-- The descriptor word of rule R25. -/
def desc (base len : Nat) : Word := BitVec.ofNat 32 (len * 2 ^ 16 + base)

/-- Write descriptors: register, base, length. -/
def slices (l : List (SReg × Nat × Nat)) (s : State) : State := l.foldl (fun s p => s.setSD p.1 (desc p.2.1 p.2.2)) s

/-- The reset state with `p` in slice 0 at 0x10, `q` in slice 1 at 0x20, slice 2 of `n` limbs at 0x30, and `X1 = x`. -/
def withOperands (p q : List Word) (n : Nat) (x : Word) : State :=
  (slices [(0, 0x10, p.length), (1, 0x20, q.length), (2, 0x30, n)] ((State.reset.writeLM 0x10 p).writeLM 0x20 q)).setX 1 x

/-- The same after a CTXINIT of the modulus `m`. -/
def withContext (m p q : List Word) (n : Nat) (x : Word) : State := (withOperands p q n x).install m

/-- Slice 1 names the same slice as slice 0. -/
def sameSlice (s : State) : State := s.setSD 1 (s.getSD 0)

/-- The command ends in a next state of which `p` holds. -/
def gives (i : Instr) (s : State) (p : State → Bool) : Bool :=
  match exec i s with
  | .next t => p t
  | .fault _ => false
  | .refused _ => false

/-- One step ends in a next state of which `p` holds. -/
def steps (s : State) (p : State → Bool) : Bool :=
  match step s with
  | .next t => p t
  | .fault _ => false
  | .refused _ => false

/-- The source's modulus `[80000001]`, and the vectors' two-limb and three-limb moduli. -/
def mod1 : List Word := [0x80000001]
def mod2 : List Word := [0xFFFFFFC5, 0xFFFFFFFF]
def mod3 : List Word := [0x89ABCDEF, 0x01234567, 0xF0000000]

/-! ## Well-formedness -/

/-- The one ill-formed shape: a DIV whose destinations are one register (R93, R96). -/
theorem test_wellFormed_refuses_div_same_destination :
    (Instr.div 3 3 0 1 2 4).wellFormed = false ∧ (Instr.div 3 4 3 3 3 3).wellFormed = true := by decide

/-! ## Decoding (spec/95_test_vectors.md 2.1, and R90 for the rest) -/

theorem test_decode_cmp : decode 0x01608000 = .ok (.cmp 3 0 1) := by decide +kernel

theorem test_decode_add : decode 0x02008000 = .ok (.add 0 0 1) := by decide +kernel

theorem test_decode_sub : decode 0x03210000 = .ok (.sub 1 0 2) := by decide +kernel

theorem test_decode_maskadd : decode 0x04411000 = .ok (.maskadd 2 0 2 1) := by decide +kernel

theorem test_decode_masksub : decode 0x05057000 = .ok (.masksub 0 1 2 7) := by decide +kernel

theorem test_decode_mul : decode 0x06408000 = .ok (.mul 2 0 1) := by decide +kernel

theorem test_decode_muladd : decode 0x07C08000 = .ok (.muladd 6 0 1 0) := by decide +kernel

theorem test_decode_mulsub : decode 0x08FFF000 = .ok (.mulsub 7 7 7 7) := by decide +kernel

theorem test_decode_inv : decode 0x09B00000 = .ok (.inv 5 4) := by decide +kernel

theorem test_decode_div : decode 0x0A053940 = .ok (.div 0 1 2 3 4 5) := by decide +kernel

theorem test_decode_reduce : decode 0x10040000 = .ok (.reduce 0 1) := by decide +kernel

theorem test_decode_ctxinit : decode 0x20E00000 = .ok (.ctxinit 7) := by decide +kernel

theorem test_decode_mtrans : decode 0x21240000 = .ok (.mtrans 1 1) := by decide +kernel

theorem test_decode_mredc : decode 0x22600000 = .ok (.mredc 3) := by decide +kernel

theorem test_decode_mulred : decode 0x23408000 = .ok (.mulred 2 0 1) := by decide +kernel

theorem test_decode_sqrred : decode 0x24900000 = .ok (.sqrred 4 4) := by decide +kernel

theorem test_decode_mident : decode 0x25400000 = .ok (.mident 2) := by decide +kernel

theorem test_decode_mpowers : decode 0x26200000 = .ok (.mpowers 1 0) := by decide +kernel

theorem test_decode_select : decode 0x27440000 = .ok (.select 2 1 0) := by decide +kernel

theorem test_decode_powmod : decode 0x28FF8000 = .ok (.powmod 7 7 7) := by decide +kernel

/-- The ILLEGAL words of spec/95_test_vectors.md 2.1: unassigned opcodes. -/
theorem test_decode_unassigned_opcodes :
    ([0x00000000, 0xFFFFFFFF, 0x0B000000, 0x11000000, 0x29000000] : List Word).all
      (fun w => decode w == .illegal .unassignedOpcode) = true := by decide +kernel

/-- The same section: a bit in an unused field or in `Z`. -/
theorem test_decode_unused_bits :
    ([0x02008001, 0x02009000, 0x20E00001, 0x20E40000] : List Word).all
      (fun w => decode w == .illegal .unusedFieldNotZero) = true := by decide +kernel

/-- The same section: DIV with `A = B`; and DIV with `A = 0`, `B = 1` and the rest zero is legal. -/
theorem test_decode_div_destinations :
    decode 0x0A000000 = .illegal .divSameDestination ∧ decode 0x0AFFFFC0 = .illegal .divSameDestination ∧
      decode 0x0A040000 = .ok (.div 0 1 0 0 0 0) := by decide +kernel

/-- The table's word of INV, through the host's entry. -/
theorem test_decodeTableWord : decodeTableWord 32 0x09B00000 = some (.inv 5 4) ∧ decodeTableWord 32 0 = none := by
  decide +kernel

/-! ## One command (spec/95_test_vectors.md 2.2 to 2.5) -/

theorem test_cmp_high_limb_decides :
    gives (.cmp 3 0 1) (withOperands [1, 0] [0, 1] 0 0)
      (fun t => t.err == .none && !t.busy && t.getX 3 == 0xFFFFFFFF) = true := by decide +kernel

theorem test_cmp_is_unsigned :
    gives (.cmp 3 0 1) (withOperands [0xFFFFFFFF] [0] 0 0)
      (fun t => t.err == .none && !t.busy && t.getX 3 == 1) = true := by decide +kernel

theorem test_add_carry_crosses_two_limbs :
    gives (.add 0 0 1) (withOperands [0xFFFFFFFF, 0, 5] [1, 0xFFFFFFFF, 0] 0 0)
      (fun t => t.err == .none && !t.busy && t.operand 0 == [0, 0, 6] && t.getX 0 == 0) = true := by decide +kernel

theorem test_add_doubles_an_identical_slice :
    gives (.add 0 0 1) (sameSlice (withOperands [0x80000000, 1] [] 0 0))
      (fun t => t.err == .none && !t.busy && t.operand 0 == [0, 3] && t.getX 0 == 0) = true := by decide +kernel

theorem test_sub_borrows_out :
    gives (.sub 0 0 1) (withOperands [0, 0] [1, 0] 0 0)
      (fun t => t.err == .none && !t.busy && t.operand 0 == [0xFFFFFFFF, 0xFFFFFFFF] && t.getX 0 == 0xFFFFFFFF) = true := by decide +kernel

theorem test_sub_absorbs_the_borrow :
    gives (.sub 0 0 1) (withOperands [0, 1] [1, 0] 0 0)
      (fun t => t.err == .none && !t.busy && t.operand 0 == [0xFFFFFFFF, 0] && t.getX 0 == 0) = true := by decide +kernel

theorem test_maskadd_zero_mask :
    gives (.maskadd 1 0 1 1) (withOperands [5, 6] [0xFFFFFFFF, 0xFFFFFFFF] 0 0)
      (fun t => t.err == .none && !t.busy && t.operand 0 == [5, 6] && t.getX 1 == 0) = true := by decide +kernel

/-- The mask register is also the destination (R24). -/
theorem test_maskadd_one_mask :
    gives (.maskadd 1 0 1 1) (withOperands [5, 6] [0xFFFFFFFF, 0xFFFFFFFF] 0 0xFFFFFFFF)
      (fun t => t.err == .none && !t.busy && t.operand 0 == [4, 6] && t.getX 1 == 1) = true := by decide +kernel

theorem test_masksub_one_mask :
    gives (.masksub 0 0 1 1) (withOperands [5, 6] [0xFFFFFFFF, 0xFFFFFFFF] 0 0xFFFFFFFF)
      (fun t => t.err == .none && !t.busy && t.operand 0 == [6, 6] && t.getX 0 == 0xFFFFFFFF) = true := by decide +kernel

/-- An invalid mask is no error, and the subtrahend stays (R131, R270). -/
theorem test_masksub_invalid_mask_ends_well :
    gives (.masksub 0 0 1 1) (withOperands [5, 6] [0xFFFFFFFF, 0xFFFFFFFF] 0 1)
      (fun t => t.err == .none && !t.busy && t.operand 1 == [0xFFFFFFFF, 0xFFFFFFFF] && t.getX 1 == 1) = true := by decide +kernel

theorem test_mul_zeroes_the_surplus_limb :
    gives (.mul 2 0 1) (withOperands [0xFFFFFFFF, 0xFFFFFFFF] [0xFFFFFFFF, 0xFFFFFFFF] 5 0)
      (fun t => t.err == .none && !t.busy && t.operand 2 == [1, 0, 0xFFFFFFFE, 0xFFFFFFFF, 0]) = true := by decide +kernel

theorem test_mul_unequal_lengths :
    gives (.mul 2 0 1) (withOperands [2, 3] [4] 3 0)
      (fun t => t.err == .none && !t.busy && t.operand 2 == [8, 0xC, 0]) = true := by decide +kernel

theorem test_muladd_largest_overflow :
    gives (.muladd 6 0 1 1) (withOperands [0xFFFFFFFF, 0xFFFFFFFF] [0xFFFFFFFF, 0xFFFFFFFF] 0 0xFFFFFFFF)
      (fun t => t.err == .none && !t.busy && t.operand 0 == [0, 0xFFFFFFFF] && t.getX 6 == 0xFFFFFFFF) = true := by decide +kernel

theorem test_muladd_identical_slice :
    gives (.muladd 6 0 1 1) (sameSlice (withOperands [2, 0] [] 0 3))
      (fun t => t.err == .none && !t.busy && t.operand 0 == [8, 0] && t.getX 6 == 0) = true := by decide +kernel

theorem test_mulsub_most_negative_overflow :
    gives (.mulsub 6 0 1 1) (withOperands [0, 0] [0xFFFFFFFF, 0xFFFFFFFF] 0 0xFFFFFFFF)
      (fun t => t.err == .none && !t.busy && t.operand 0 == [0xFFFFFFFF, 0] && t.getX 6 == 1) = true := by decide +kernel

theorem test_mulsub_identical_slice :
    gives (.mulsub 6 0 1 1) (sameSlice (withOperands [2, 0] [] 0 3))
      (fun t => t.err == .none && !t.busy && t.operand 0 == [0xFFFFFFFC, 0xFFFFFFFF] && t.getX 6 == 0xFFFFFFFF) = true := by decide +kernel

theorem test_inv_smallest_divisor :
    gives (.inv 5 1) (withOperands [] [] 0 0x80000000)
      (fun t => t.err == .none && !t.busy && t.getX 5 == 0xFFFFFFFF) = true := by decide +kernel

theorem test_inv_in_place :
    gives (.inv 1 1) (withOperands [] [] 0 0xB504F333)
      (fun t => t.err == .none && !t.busy && t.getX 1 == 0x6A09E669) = true := by decide +kernel

/-- The destinations are the numerator's registers (R24). -/
theorem test_div_needs_three_corrections :
    gives (.div 2 3 2 3 4 5) ((((State.reset.setX 2 0x8F5C0A17).setX 3 0xFFFFFFFC).setX 4 0x8F5C0A19).setX 5 0xC924F4B2)
      (fun t => t.err == .none && !t.busy && t.getX 2 == 0xFFFFFFFE && t.getX 3 == 0x1EB8142E) = true := by decide +kernel

theorem test_div_largest_numerator :
    gives (.div 0 1 2 3 4 5) ((((State.reset.setX 2 0x80000000).setX 3 0xFFFFFFFF).setX 4 0x80000001).setX 5 0xFFFFFFFC)
      (fun t => t.err == .none && !t.busy && t.getX 0 == 0xFFFFFFFF && t.getX 1 == 0x80000000) = true := by decide +kernel

theorem test_reduce_largest_dividend :
    gives (.reduce 0 1) (withOperands [0xFFFFFFFF, 0xFFFFFFFF, 0xFFFFFFFF, 0xFFFFFFFF] mod2 0 0)
      (fun t => t.err == .none && !t.busy && t.operand 0 == [0xD98, 0, 0, 0]) = true := by decide +kernel

theorem test_reduce_shortest_shape :
    gives (.reduce 0 1) (withOperands [0x11111111, 0x22222222, 0x33333333] [1, 0x80000000] 0 0)
      (fun t => t.err == .none && !t.busy && t.operand 0 == [0xAAAAAAAB, 0x22222221, 0]) = true := by decide +kernel

theorem test_ctxinit_installs_the_constants :
    gives (.ctxinit 0) (withOperands mod3 [] 0 0)
      (fun t => t.err == .none && !t.busy && t.ctx.state == .ready && t.ctx.k == 3 && t.modulus == mod3 && t.ctx.ms.readLimbs 0 4 == [0xCDEF0000, 0x456789AB, 0x00000123, 0x0000F000] && t.ctx.dinv == 0x11111111 && t.ctx.ninv == 0xF010FEF1) = true := by decide +kernel

/-- A modulus both even and unnormalized; the earlier context stays (R36, R172). -/
theorem test_ctxinit_tests_even_first :
    gives (.ctxinit 0) (withContext mod1 [0x7FFFFFFE] [] 0 0)
      (fun t => t.err == .modEven && t.ctx.state == .ready && t.modulus == mod1) = true := by decide +kernel

/-- In place (R176). -/
theorem test_mtrans_two_limbs :
    gives (.mtrans 0 0) (withContext mod2 [0x9ABCDEF0, 0x12345678] [] 0 0)
      (fun t => t.err == .none && !t.busy && t.operand 0 == [0xA987623C, 0x320FEDCB]) = true := by decide +kernel

theorem test_mtrans_three_limbs :
    gives (.mtrans 2 0) (withContext mod3 [0xE4DB013D, 0x38E38E38, 0x69AA6C70] [] 3 0)
      (fun t => t.err == .none && !t.busy && t.operand 2 == [0x894E3775, 0x3E2612FF, 0x87D9807D]) = true := by decide +kernel

theorem test_mredc_low_half :
    gives (.mredc 0) (withContext mod2 [0x11111111, 0x22222222, 0x33333333, 0x44444444] [] 0 0)
      (fun t => t.err == .none && !t.busy && t.lm.readLimbs 0x10 2 == [0x9FF6BE4C, 0x703C2ACF]) = true := by decide +kernel

theorem test_mredc_wants_two_k_limbs :
    gives (.mredc 0) (withContext mod2 [1, 2, 3] [] 0 0)
      (fun t => t.err == .len && t.operand 0 == [1, 2, 3]) = true := by decide +kernel

theorem test_mulred_two_limbs :
    gives (.mulred 2 0 1) (withContext mod2 [0xA987623C, 0x320FEDCB] [0x19D, 0] 2 0)
      (fun t => t.err == .none && !t.busy && t.operand 2 == [0xA2B3AFDF, 0x5E6F8091]) = true := by decide +kernel

/-- All three slices are one slice (R268). -/
theorem test_mulred_largest_residue :
    gives (.mulred 0 0 0) (withContext mod2 [0xFFFFFFC4, 0xFFFFFFFF] [] 0 0)
      (fun t => t.err == .none && !t.busy && t.operand 0 == [0xA08AD8C4, 0xCBEEA4E1]) = true := by decide +kernel

theorem test_sqrred_two_limbs :
    gives (.sqrred 2 0) (withContext mod2 [0xA987623C, 0x320FEDCB] [] 2 0)
      (fun t => t.err == .none && !t.busy && t.operand 2 == [0x81432329, 0xD561A1A6]) = true := by decide +kernel

theorem test_mident_three_limbs :
    gives (.mident 2) (withContext mod3 [] [] 3 0)
      (fun t => t.err == .none && !t.busy && t.operand 2 == [0x76543211, 0xFEDCBA98, 0x0FFFFFFF]) = true := by decide +kernel

theorem test_mpowers_four_rows :
    gives (.mpowers 2 0) (withContext mod2 [3, 1] [] 8 0)
      (fun t => t.err == .none && !t.busy && t.operand 2 == [0x3B, 0, 0xB1, 0x3B, 0xFAC, 0x162, 0x809A, 0x13D2]) = true := by decide +kernel

theorem test_mpowers_one_row :
    gives (.mpowers 2 0) (withContext mod1 [2] [] 1 0)
      (fun t => t.err == .none && !t.busy && t.operand 2 == [0x7FFFFFFF]) = true := by decide +kernel

theorem test_select_last_row :
    gives (.select 2 0 1) (withContext mod1 [0x7FFFFFFF, 0x7FFFFFFD, 0x7FFFFFF9, 0x7FFFFFF1] [] 1 3)
      (fun t => t.err == .none && !t.busy && t.operand 2 == [0x7FFFFFF1]) = true := by decide +kernel

theorem test_select_no_such_row :
    gives (.select 2 0 1) (withContext mod1 [0x7FFFFFFF, 0x7FFFFFFD, 0x7FFFFFF9, 0x7FFFFFF1] [] 1 4)
      (fun t => t.err == .none && !t.busy && t.operand 2 == [0]) = true := by decide +kernel

theorem test_powmod_scenario :
    gives (.powmod 2 0 1) (withContext mod1 [2] [0xA] 1 0)
      (fun t => t.err == .none && !t.busy && t.operand 2 == [0x400]) = true := by decide +kernel

theorem test_powmod_long_exponent :
    gives (.powmod 2 0 1) (withContext mod2 [3, 1] [0xFFFFFFFF, 0xFFFFFFFF, 0xFFFFFFFF] 2 0)
      (fun t => t.err == .none && !t.busy && t.operand 2 == [0x8D61AFBF, 0x6A6E9B58]) = true := by decide +kernel

/-- Spec/95_test_vectors.md P5: lengths 1 and 2 with the longer slice outside LM report the length. -/
theorem test_len_comes_before_range :
    gives (.add 0 0 1) (slices [(0, 1, 1), (1, 0xFFFF, 2)] State.reset) (fun t => t.err == .len) = true ∧
    gives (.add 0 0 0) (slices [(0, 0xFFFF, 2)] State.reset) (fun t => t.err == .range) = true := by decide +kernel

/-! ## One step -/

/-- Spec/95_test_vectors.md P2: a written INV word runs, from reset. -/
theorem test_step_runs_inv :
    steps ((State.reset.setX 4 0xB504F333).withFetchWord 32 0x09B00000)
      (fun t => t.getX 5 == 0x6A09E669 && !t.busy && t.statusWord == 0) = true := by decide +kernel

/-- Spec/95_test_vectors.md P5: the STATUS words of `ERR_MOD_EVEN` with a READY context, and of ILLEGAL. -/
theorem test_status_words :
    gives (.ctxinit 0) (withContext mod1 [0x80000000] [] 0 0) (fun t => t.statusWord == 0x62) = true ∧
    steps (State.reset.withFetchWord 32 0x02008001) (fun t => t.statusWord == 0x10) = true := by decide +kernel

/-- R29 with R25: SD7 stands at offset 0x17 and keeps all 32 bits. -/
theorem test_host_writes_sd7 :
    steps { State.reset with input := [.regWrite 0x17 0xFFFFFFFF] }
      (fun t => t.getSD 7 == 0xFFFFFFFF && t.getSD 6 == 0 && t.input == []) = true := by decide +kernel

/-- R100: `xset x4` is a write to offset 0x0C. -/
theorem test_host_writes_x4 :
    steps { State.reset with input := [.regWrite 0x0C 7] } (fun t => t.getX 4 == 7 && t.getX 5 == 0) = true := by
  decide +kernel
/-! ## Witnesses: the hypotheses of every obligation are met, each clause at a boundary value -/

/-- Slices 0 and 1 end at the last word of LM (R227's largest legal base), slice 2 is the last word but four. -/
def atTheEnd (p q : List Word) (n : Nat) (x : Word) : State :=
  (slices [(0, 4096 - p.length, p.length), (1, 2048 - q.length, q.length), (2, 1024 - n, n)]
    ((State.reset.writeLM (4096 - p.length) p).writeLM (2048 - q.length) q)).setX 1 x

/-- Lengths of 1 for slice 0 and `l` for slices 1 and 2, inside LM. -/
def withLengths (l0 l1 l2 : Nat) : State := slices [(0, 0, l0), (1, 0x100, l1), (2, 0x200, l2)] State.reset

/-- Slices of `l0`, `l1`, `l2` limbs, slice 0 starting at the last address a descriptor can name. -/
def outside (l0 l1 l2 : Nat) : State := slices [(0, 0xFFFF, l0), (1, 0x100, l1), (2, 0x200, l2)] State.reset

/-- A step's hypotheses: a command in flight, and the host waiting or silent. -/
def inFlight (word : Word) (input : List HostOp) (s : State) : State := { s.issue word with input := input }

theorem test_witness_DecodeOfEncodeIsTheCommand :
    (Instr.div 7 0 7 7 7 7).wellFormed = true := by decide +kernel

theorem test_witness_EncodeOfDecodeIsTheWord :
    decode 0x08FFF000 = .ok (.mulsub 7 7 7 7) ∧ decode 0x0A040000 = .ok (.div 0 1 0 0 0 0) := by decide +kernel

theorem test_witness_DecodableWordsAreTheTableRows :
    (0x28FF8000 : Word) &&& 0xFF007FFF = 0x28000000 ∧ fieldA 0x0A040000 ≠ fieldB 0x0A040000 ∧
      fieldA 0x0AFFFFC0 = fieldB 0x0AFFFFC0 := by decide +kernel

theorem test_witness_StepRunsTheDecodedCommand :
    (inFlight 0x28408000 [] State.reset).busy = true ∧ (inFlight 0x28408000 [] State.reset).input = [] ∧
      (inFlight 0x28408000 [.wait, .reset] State.reset).input = .wait :: [.reset] ∧
      decode (inFlight 0x28408000 [] State.reset).cmd = .ok (.powmod 2 0 1) := by decide +kernel

theorem test_witness_CmdWriteWhileIdleIssuesTheCommand :
    State.reset.busy = false ∧ decode 0x20E00000 = .ok (.ctxinit 7) ∧ decode 0xFF000000 = .illegal .unassignedOpcode ∧
      ({ State.reset with input := [.regWrite 0 0x20E00000, .wait] } : State).input =
        .regWrite 0 0x20E00000 :: .wait :: [] ∧
      ({ State.reset with input := [.regWrite 0 0xFF000000] } : State).input = .regWrite 0 0xFF000000 :: [] := by
  decide +kernel

theorem test_witness_IllegalWordRaisesErrIllegal :
    (inFlight 0 [] State.reset).busy = true ∧ decode (inFlight 0 [] State.reset).cmd = .illegal .unassignedOpcode ∧
      decode (inFlight 0x02008001 [] State.reset).cmd = .illegal .unusedFieldNotZero ∧
      decode (inFlight 0x0AFFFFC0 [] State.reset).cmd = .illegal .divSameDestination := by decide +kernel

theorem test_witness_IdleEngineWaits :
    State.reset.busy = false ∧ State.reset.input = [] := by decide +kernel

/-- Every offset falls under exactly one clause; the boundaries are 0x05, 0x07, 0x08, 0x0F, 0x10, 0x17, 0x18, 0x1F. -/
theorem test_witness_RegisterWindowReads :
    State.reset.busy = false ∧
      ∀ off : Fin 32,
        ([decide (off = 0), decide (off = 1), decide (off = 2), decide (off = 3), decide (off = 4),
          decide (0x05 ≤ off.val ∧ off.val ≤ 0x07), decide (∃ r : XReg, off.val = 0x08 + r.val),
          decide (∃ r : SReg, off.val = 0x10 + r.val), decide (0x18 ≤ off.val)].filter id).length = 1 := by decide +kernel

/-- Every offset but CMD falls under exactly one clause. -/
theorem test_witness_RegisterWindowWrites :
    State.reset.busy = false ∧
      ∀ off : Fin 32, off ≠ 0 →
        ([decide (∃ r : XReg, off.val = 0x08 + r.val), decide (∃ r : SReg, off.val = 0x10 + r.val),
          decide (1 ≤ off.val ∧ off.val ≤ 7), decide (0x18 ≤ off.val)].filter id).length = 1 := by decide +kernel

theorem test_witness_LimbMemoryHoldsWhatTheHostWrote :
    State.reset.busy = false ∧ 4095 < State.reset.params.lmWords ∧
      ({ State.reset with input := [.lmRead 4095] } : State).input = .lmRead 4095 :: [] ∧
      ({ State.reset with input := [.lmWrite 4095 7, .lmRead 4095] } : State).input = .lmWrite 4095 7 :: .lmRead 4095 :: [] := by decide +kernel

theorem test_witness_HostAccessOutsideLimbMemoryStops :
    State.reset.params.lmWords ≤ 4096 ∧
      ({ State.reset with input := [.lmRead 4096] } : State).input = .lmRead 4096 :: [] ∧
      ({ State.reset with input := [.lmWrite 4096 7] } : State).input = .lmWrite 4096 7 :: [] := by decide +kernel

theorem test_witness_CmdWriteWhileBusyIsDropped :
    (inFlight 0x09B00000 [.regWrite 0 0x09B00000] State.reset).busy = true ∧
      (inFlight 0x09B00000 [.regWrite 0 0x09B00000] State.reset).input = .regWrite 0 0x09B00000 :: [] := by decide +kernel

theorem test_witness_DescriptorWriteWhileBusy :
    (inFlight 0x09B00000 [.regWrite 0x17 5] State.reset).busy = true ∧ (0x17 : Fin 32).val = 0x10 + (7 : SReg).val ∧
      (inFlight 0x09B00000 [.regWrite 0x17 5] State.reset).input = [.regWrite 0x17 5] ∧
      decode (inFlight 0x09B00000 [.regWrite 0x17 5] State.reset).cmd = .ok (.inv 5 4) := by decide +kernel

theorem test_witness_ReadsWhileBusy :
    (inFlight 0x09B00000 [.regRead 1] State.reset).busy = true ∧
      (inFlight 0x09B00000 [.regRead 1] State.reset).input = .regRead 1 :: [] ∧
      (inFlight 0x09B00000 [.regRead 0x1F] State.reset).input = .regRead 0x1F :: [] ∧ (0x1F : Fin 32) ≠ 1 ∧
      (inFlight 0x09B00000 [.lmRead 4095] State.reset).input = .lmRead 4095 :: [] ∧
      4095 < (inFlight 0x09B00000 [.lmRead 4095] State.reset).params.lmWords := by decide +kernel

theorem test_witness_WritesWhileBusyTouchOnlyTheirWord :
    (inFlight 0x09B00000 [.regWrite 0x0F 5] State.reset).busy = true ∧ (0x0F : Fin 32).val = 0x08 + (7 : XReg).val ∧
      (inFlight 0x09B00000 [.regWrite 0x0F 5] State.reset).input = .regWrite 0x0F 5 :: [] ∧
      (inFlight 0x09B00000 [.lmWrite 4095 5] State.reset).input = .lmWrite 4095 5 :: [] ∧
      4095 < (inFlight 0x09B00000 [.lmWrite 4095 5] State.reset).params.lmWords := by decide +kernel

theorem test_witness_ResetMeetsTheInvariant :
    Params.reference.legal = true ∧ ({ lmWords := 65536, kmax := 32767 } : Params).legal = true ∧
      ({ lmWords := 1, kmax := 1 } : Params).legal = true := by decide +kernel

theorem test_witness_ResetInputKeepsLimbMemoryWhileIdle :
    (withContext mod1 [1] [2] 1 0).busy = false ∧
      ({ withContext mod1 [1] [2] 1 0 with input := [.reset] } : State).input = .reset :: [] := by decide +kernel

theorem test_witness_ResetWhileBusyDisturbsOnlyTheWrittenSlices :
    (inFlight 0x02008000 [.reset] (withOperands [1] [2] 0 0)).busy = true ∧
      (inFlight 0x02008000 [.reset] (withOperands [1] [2] 0 0)).input = .reset :: [] ∧
      decode (inFlight 0x02008000 [.reset] (withOperands [1] [2] 0 0)).cmd = .ok (.add 0 0 1) ∧
      (∀ r ∈ writtenFields (.add 0 0 1), ¬ (withOperands [1] [2] 0 0).inSlice r 0x11) ∧
      (∀ r ∈ writtenFields (.add 0 0 1), ¬ (withOperands [1] [2] 0 0).inSlice r 0x0F) ∧
      writesScratch (.add 0 0 1) = false ∧ writesTable (.mident 2) = false ∧
      decode (inFlight 0xFF000000 [.reset] State.reset).cmd = .illegal .unassignedOpcode ∧
      (inFlight 0xFF000000 [.reset] State.reset).busy = true := by decide +kernel

/-- A READY context, the engine idle and with an ADD in flight. -/
theorem test_witness_StepKeepsTheInvariant :
    (withContext mod2 [1] [2] 1 0).Inv ∧ (inFlight 0x02008000 [] (withContext mod2 [1] [2] 1 0)).Inv ∧
      (∃ t, step (inFlight 0x02008000 [] (withContext mod2 [1] [2] 1 0)) = .next t) := ⟨by decide +kernel, by decide +kernel, ⟨_, rfl⟩⟩

theorem test_witness_ErrorChangesNothingElse :
    (∃ t, exec (.add 0 0 0) State.reset = .next t ∧ t.err ≠ .none) := ⟨_, rfl, by decide⟩

theorem test_witness_ErrorsByCommand :
    (∃ t, exec (.add 0 0 0) State.reset = .next t ∧ t.err ≠ .none) ∧
      (∃ t, exec (.ctxinit 0) State.reset = .next t ∧ t.err ≠ .none) ∧
      ∃ t, exec (.mident 0) State.reset = .next t ∧ t.err ≠ .none := ⟨⟨_, rfl, by decide⟩, ⟨_, rfl, by decide⟩, ⟨_, rfl, by decide⟩⟩

theorem test_witness_ContextCommandsNeedAContext :
    State.reset.ctx.state = .uninit ∧ needsContext (.select 0 0 0) = true := by decide +kernel

theorem test_witness_BrokenContractIsNoError :
    (withOperands [1] [2] 0 5).publicCheck (.maskadd 0 0 1 1) = none ∧ validMask 5 = false ∧
      ∀ a, Instr.maskadd 0 0 1 1 ≠ .ctxinit a := ⟨by decide +kernel, by decide, by simp⟩

/-- Two states that differ in LM and in `X1` only, and the CTXINIT of slice 0 in both. -/
theorem test_witness_ErrorsDependOnPublicValuesOnly :
    (withOperands [1] [2] 0 0).sd = (withOperands [7] [9] 0 1).sd ∧ (withOperands [1] [2] 0 0).lm ≠ (withOperands [7] [9] 0 1).lm ∧
      (withOperands [1] [2] 0 0).ctx.state = (withOperands [7] [9] 0 1).ctx.state ∧
      (withOperands [1] [2] 0 0).ctx.k = (withOperands [7] [9] 0 1).ctx.k ∧
      (withOperands [1] [2] 0 0).params = (withOperands [7] [9] 0 1).params ∧
      isOdd ((withOperands [1] [2] 0 0).modulusRead ⟨0x10, 1⟩) = isOdd ((withOperands [7] [9] 0 1).modulusRead ⟨0x10, 1⟩) ∧
      normalized ((withOperands [1] [2] 0 0).modulusRead ⟨0x10, 1⟩) =
        normalized ((withOperands [7] [9] 0 1).modulusRead ⟨0x10, 1⟩) := by decide +kernel

theorem test_witness_CommandsWriteOnlyTheirDestinationRegisters :
    (∃ t, exec (.div 0 1 2 3 4 5) State.reset = .next t) ∧ (7 : XReg) ∉ destX (.div 0 1 2 3 4 5) := ⟨⟨_, rfl⟩, by decide⟩

theorem test_witness_CommandsWriteOnlyTheirWrittenSlices :
    (∃ t, exec (.add 0 0 1) (withOperands [1] [2] 0 0) = .next t) ∧
      (∀ r ∈ writtenFields (.add 0 0 1), ¬ (withOperands [1] [2] 0 0).inSlice r 0x11) ∧
      ∀ r ∈ writtenFields (.add 0 0 1), ¬ (withOperands [1] [2] 0 0).inSlice r 0x0F := ⟨⟨_, rfl⟩, by decide +kernel, by decide +kernel⟩

theorem test_witness_OnlyCtxinitWritesTheContextConstants :
    (∃ t, exec (.mident 2) (withContext mod1 [] [] 1 0) = .next t) ∧ (∃ t, exec (.inv 0 0) State.reset = .next t) ∧
      writesScratch (.inv 0 0) = false ∧ (∀ a, Instr.mident 2 ≠ .ctxinit a) ∧ (∀ a b c, Instr.mident 2 ≠ .powmod a b c) ∧
      (∃ t, exec (.ctxinit 7) State.reset = .next t ∧ t.err ≠ .none) := ⟨⟨_, rfl⟩, ⟨_, rfl⟩, rfl, by simp, by simp, ⟨_, rfl, by decide⟩⟩

/-- Steps 4 and 5 of rule R223 and the accepting clause, each met by a state: `zero` has an empty slice, `short` lengths
that do not fit, `out` a slice outside LM, and `ok` is accepted and undisturbed. -/
abbrev ClausesMet (rs : List SReg) (lengths : State → Prop) (zero short out ok : State) : Prop :=
  ((∃ r ∈ rs, (zero.slice r).len = 0) ∧ ¬ lengths short) ∧
  ((∀ r ∈ rs, 1 ≤ (out.slice r).len) ∧ lengths out ∧ (∃ r ∈ rs, out.params.lmWords < (out.slice r).base + (out.slice r).len)) ∧
  (ok.accepts rs (lengths ok) ∧ ok.undisturbed)

/-- The same for a context command, with `State.reset` for the UNINIT clause. -/
abbrev ContextClausesMet (rs : List SReg) (lengths : State → Prop) (zero short out ok : State) : Prop :=
  (State.reset.ctx.state = .uninit ∧ zero.ctx.state = .ready ∧ short.ctx.state = .ready ∧ out.ctx.state = .ready) ∧
  ClausesMet rs lengths zero short out ok ∧ ok.contextReady

/-- Operands at the very end of LM, and the same slice named twice. -/
def kernelOk : State := atTheEnd [3, 4] [1, 2] 1 0
def kernelSame : State := sameSlice (atTheEnd [3, 4] [] 1 0)

/-- The largest residue of `mod2` in slice 1, one of `mod2`'s length in slice 2, slice 0 of `n` limbs, context READY. -/
def contextOk (n : Nat) (c : List Word) : State :=
  ((atTheEnd (List.replicate n 0) [0xFFFFFFC4, 0xFFFFFFFF] c.length 1).writeLM (1024 - c.length) c).install mod2

/-- READY states with `mod1` whose slices have the given lengths, inside and outside LM. -/
def readyLengths (l0 l1 l2 : Nat) : State := (withLengths l0 l1 l2).install mod1
def readyOutside (l0 l1 l2 : Nat) : State := (outside l0 l1 l2).install mod1

/-! Limb Kernel and REDUCE. -/

theorem test_witness_CmpComparesUnsigned :
    ClausesMet [0, 1] (fun s => (s.slice 0).len = (s.slice 1).len)
        (State.reset) (withLengths 1 2 1) (outside 1 1 1) (kernelOk) ∧
      kernelOk.operandVal 1 < kernelOk.operandVal 0 ∧
      (withOperands [1] [2] 1 0).operandVal 0 < (withOperands [1] [2] 1 0).operandVal 1 ∧
      (withOperands [2] [2] 1 0).operandVal 0 = (withOperands [2] [2] 1 0).operandVal 1 := ⟨by decide +kernel, by decide +kernel, by decide +kernel, by decide +kernel⟩

theorem test_witness_AddSumsInPlaceAndReportsTheCarry :
    ClausesMet [0, 1] (fun s => (s.slice 0).len = (s.slice 1).len)
        (State.reset) (withLengths 1 2 1) (outside 1 1 1) (kernelOk) ∧
      kernelOk.unmixed 0 1 ∧
      kernelSame.unmixed 0 1 ∧
      kernelSame.accepts [0, 1] ((kernelSame.slice 0).len = (kernelSame.slice 1).len) := ⟨by decide +kernel, by decide +kernel, by decide +kernel, by decide +kernel⟩

theorem test_witness_SubDiffersInPlaceAndReportsTheBorrow :
    ClausesMet [0, 1] (fun s => (s.slice 0).len = (s.slice 1).len)
        (State.reset) (withLengths 1 2 1) (outside 1 1 1) (kernelOk) ∧
      kernelOk.unmixed 0 1 ∧
      kernelSame.unmixed 0 1 ∧
      kernelSame.accepts [0, 1] ((kernelSame.slice 0).len = (kernelSame.slice 1).len) := ⟨by decide +kernel, by decide +kernel, by decide +kernel, by decide +kernel⟩

theorem test_witness_MaskaddAddsUnderItsMask :
    ClausesMet [0, 1] (fun s => (s.slice 0).len = (s.slice 1).len)
        (State.reset) (withLengths 1 2 1) (outside 1 1 1) (kernelOk) ∧
      kernelOk.unmixed 0 1 ∧
      kernelSame.unmixed 0 1 ∧
      kernelSame.accepts [0, 1] ((kernelSame.slice 0).len = (kernelSame.slice 1).len) ∧
      kernelOk.getX 1 = 0 ∧
      (kernelOk.setX 1 0xFFFFFFFF).getX 1 = 0xFFFFFFFF := ⟨by decide +kernel, by decide +kernel, by decide +kernel, by decide +kernel, by decide +kernel, by decide +kernel⟩

theorem test_witness_MasksubSubtractsUnderItsMask :
    ClausesMet [0, 1] (fun s => (s.slice 0).len = (s.slice 1).len)
        (State.reset) (withLengths 1 2 1) (outside 1 1 1) (kernelOk) ∧
      kernelOk.unmixed 0 1 ∧
      kernelSame.unmixed 0 1 ∧
      kernelSame.accepts [0, 1] ((kernelSame.slice 0).len = (kernelSame.slice 1).len) ∧
      kernelOk.getX 1 = 0 ∧
      (kernelOk.setX 1 0xFFFFFFFF).getX 1 = 0xFFFFFFFF := ⟨by decide +kernel, by decide +kernel, by decide +kernel, by decide +kernel, by decide +kernel, by decide +kernel⟩

theorem test_witness_MulIsTheExactProduct :
    ClausesMet [0, 1, 2] (fun s => (s.slice 1).len + (s.slice 2).len ≤ (s.slice 0).len)
        (State.reset) (withLengths 2 2 1) (outside 3 2 1) (atTheEnd [0, 0, 0] [1, 2] 1 0) ∧
      (atTheEnd [0, 0, 0] [1, 2] 1 0).apart 0 1 ∧
      (atTheEnd [0, 0, 0] [1, 2] 1 0).apart 0 2 := ⟨by decide +kernel, by decide +kernel, by decide +kernel⟩

theorem test_witness_MuladdAccumulatesAndReportsTheOverflow :
    ClausesMet [0, 1] (fun s => (s.slice 0).len = (s.slice 1).len)
        (State.reset) (withLengths 1 2 1) (outside 1 1 1) (kernelOk) ∧
      kernelOk.unmixed 0 1 ∧
      kernelSame.unmixed 0 1 ∧
      kernelSame.accepts [0, 1] ((kernelSame.slice 0).len = (kernelSame.slice 1).len) := ⟨by decide +kernel, by decide +kernel, by decide +kernel, by decide +kernel⟩

theorem test_witness_MulsubSubtractsAndReportsTheSignedOverflow :
    ClausesMet [0, 1] (fun s => (s.slice 0).len = (s.slice 1).len)
        (State.reset) (withLengths 1 2 1) (outside 1 1 1) (kernelOk) ∧
      kernelOk.unmixed 0 1 ∧
      kernelSame.unmixed 0 1 ∧
      kernelSame.accepts [0, 1] ((kernelSame.slice 0).len = (kernelSame.slice 1).len) := ⟨by decide +kernel, by decide +kernel, by decide +kernel, by decide +kernel⟩

theorem test_witness_InvIsTheReciprocal :
    (withOperands [] [] 0 0x80000000).undisturbed ∧
      2 ^ 31 ≤ ((withOperands [] [] 0 0x80000000).getX 1).toNat := by decide +kernel

/-- The largest numerator of the divisor 0x80000001, with its reciprocal. -/
def divOk : State := (((State.reset.setX 2 0x80000000).setX 3 0xFFFFFFFF).setX 4 0x80000001).setX 5 0xFFFFFFFC

theorem test_witness_DivIsQuotientAndRemainder :
    (0 : XReg) ≠ 1 ∧
      divOk.undisturbed ∧
      2 ^ 31 ≤ (divOk.getX 4).toNat ∧
      (divOk.getX 5).toNat + 2 ^ 32 = (2 ^ 64 - 1) / (divOk.getX 4).toNat ∧
      (divOk.getX 2).toNat < (divOk.getX 4).toNat := by decide +kernel

/-- A three-limb dividend at the end of LM and a two-limb divisor. -/
def reduceOk : State := atTheEnd [5, 6, 7] [1, 0x80000000] 1 0

theorem test_witness_ReduceLeavesTheRemainder :
    ClausesMet [0, 1] (fun s => (s.slice 1).len < (s.slice 0).len)
        (State.reset) (withLengths 2 2 1) (outside 2 1 1) (reduceOk) ∧
      reduceOk.apart 0 1 ∧
      normalized (reduceOk.operand 1) = true ∧
      isOdd (reduceOk.operand 1) = true := ⟨by decide +kernel, by decide +kernel, by decide +kernel, by decide +kernel⟩

/-! Context commands; the operands are `M - 1`, the largest residue. -/

/-- A one-limb modulus in the last word of LM. -/
def modulusAtEnd (m : Word) : State := atTheEnd [m] [] 1 0

theorem test_witness_CtxinitChecksThenInstallsTheContext :
    (State.reset.slice 0).len = 0 ∧
      ((withLengths 129 1 1).slice 0).len = 129 ∧ (withLengths 129 1 1).params.kmax = 128 ∧
      ((withLengths 128 1 1).slice 0).len = 128 ∧ (withLengths 128 1 1).legalSlice 0 ∧
      ((outside 1 1 1).slice 0).len = 1 ∧ (outside 1 1 1).params.lmWords < ((outside 1 1 1).slice 0).base + ((outside 1 1 1).slice 0).len ∧
      (modulusAtEnd 0x80000000).legalSlice 0 ∧ (modulusAtEnd 0x80000000).undisturbed ∧
      (modulusAtEnd 0x7FFFFFFF).legalSlice 0 ∧ (modulusAtEnd 0x7FFFFFFF).undisturbed ∧
      (modulusAtEnd 0x80000001).legalSlice 0 ∧ (modulusAtEnd 0x80000001).undisturbed ∧
      isOdd ((modulusAtEnd 0x80000000).operand 0) = false ∧
      isOdd ((modulusAtEnd 0x7FFFFFFF).operand 0) = true ∧ normalized ((modulusAtEnd 0x7FFFFFFF).operand 0) = false ∧
      isOdd ((modulusAtEnd 0x80000001).operand 0) = true ∧ normalized ((modulusAtEnd 0x80000001).operand 0) = true := by decide +kernel

theorem test_witness_MtransMapsIntoMontgomeryForm :
    ContextClausesMet [0, 1] (fun s => (s.slice 0).len = s.ctx.k ∧ (s.slice 1).len = s.ctx.k)
        (readyLengths 0 0 0) (readyLengths 1 2 1) (readyOutside 1 1 1) (contextOk 2 [1, 0]) ∧
      (contextOk 2 [1, 0]).unmixed 0 1 ∧
      (contextOk 2 [1, 0]).operandVal 1 < (contextOk 2 [1, 0]).modVal := ⟨by decide +kernel, by decide +kernel, by decide +kernel⟩

/-- The largest argument of MREDC, `M * R - 1`. -/
def mredcOk : State := (atTheEnd [0xFFFFFFFF, 0xFFFFFFFF, 0xFFFFFFC4, 0xFFFFFFFF] [] 1 0).install mod2

theorem test_witness_MredcLandsTheReducedValue :
    ContextClausesMet [0] (fun s => (s.slice 0).len = 2 * s.ctx.k)
        (readyLengths 0 0 0) (readyLengths 1 1 1) (readyOutside 2 1 1) (mredcOk) ∧
      mredcOk.operandVal 0 < mredcOk.modVal * 2 ^ (32 * mredcOk.ctx.k) := ⟨by decide +kernel, by decide +kernel⟩

theorem test_witness_MulredMultipliesInMontgomeryForm :
    ContextClausesMet [0, 1, 2] (fun s => (s.slice 0).len = s.ctx.k ∧ (s.slice 1).len = s.ctx.k ∧ (s.slice 2).len = s.ctx.k)
        (readyLengths 0 0 0) (readyLengths 1 1 2) (readyOutside 1 1 1) (contextOk 2 [1, 0]) ∧
      (contextOk 2 [1, 0]).unmixed 0 1 ∧
      (contextOk 2 [1, 0]).unmixed 0 2 ∧
      (contextOk 2 [1, 0]).unmixed 1 2 ∧
      (contextOk 2 [1, 0]).operandVal 1 < (contextOk 2 [1, 0]).modVal ∧
      (contextOk 2 [1, 0]).operandVal 2 < (contextOk 2 [1, 0]).modVal := ⟨by decide +kernel, by decide +kernel, by decide +kernel, by decide +kernel, by decide +kernel, by decide +kernel⟩

theorem test_witness_SqrredIsMulredOfTheValueWithItself :
    ContextClausesMet [0, 1] (fun s => (s.slice 0).len = s.ctx.k ∧ (s.slice 1).len = s.ctx.k)
        (readyLengths 0 0 0) (readyLengths 1 2 1) (readyOutside 1 1 1) (contextOk 2 [1, 0]) ∧
      (contextOk 2 [1, 0]).unmixed 0 1 ∧
      (contextOk 2 [1, 0]).operandVal 1 < (contextOk 2 [1, 0]).modVal := ⟨by decide +kernel, by decide +kernel, by decide +kernel⟩

theorem test_witness_MidentIsTheMontgomeryOne :
    ContextClausesMet [0] (fun s => (s.slice 0).len = s.ctx.k)
        (readyLengths 0 0 0) (readyLengths 2 1 1) (readyOutside 1 1 1) (contextOk 2 [1, 0]) := by decide +kernel

theorem test_witness_MpowersFillsTheTableWithPowers :
    ContextClausesMet [0, 1] (fun s => (s.slice 1).len = s.ctx.k ∧ s.ctx.k ≤ (s.slice 0).len ∧ (s.slice 0).len % s.ctx.k = 0)
        (readyLengths 0 0 0) (readyLengths 1 2 1) (readyOutside 3 1 1) (contextOk 4 [1, 0]) ∧
      (contextOk 4 [1, 0]).apart 0 1 ∧
      (contextOk 4 [1, 0]).operandVal 1 < (contextOk 4 [1, 0]).modVal ∧
      1 < ((contextOk 4 [1, 0]).slice 0).len / (contextOk 4 [1, 0]).ctx.k := ⟨by decide +kernel, by decide +kernel, by decide +kernel, by decide +kernel⟩

/-- A table of two rows in slice 1 and the index of its last row in `X1`. -/
def selectOk : State := (atTheEnd [0, 0] [1, 2, 3, 4] 2 1).install mod2

theorem test_witness_SelectCopiesTheIndexedRow :
    ContextClausesMet [0, 1] (fun s => (s.slice 0).len = s.ctx.k ∧ s.ctx.k ≤ (s.slice 1).len ∧ (s.slice 1).len % s.ctx.k = 0)
        (readyLengths 0 0 0) (readyLengths 2 1 1) (readyOutside 1 3 1) (selectOk) ∧
      selectOk.apart 0 1 ∧
      (selectOk.getX 1).toNat = 1 ∧ (selectOk.slice 1).len / selectOk.ctx.k = 2 ∧
      ((selectOk.setX 1 2).getX 1).toNat = (selectOk.slice 1).len / selectOk.ctx.k := ⟨by decide +kernel, by decide +kernel, by decide +kernel, by decide +kernel⟩

/-- A work area of `2K` limbs whose high half is zero: slice 0 is its low half, slice 2 all of it. -/
def roundTripOk : State := (slices [(0, 4092, 2), (2, 4092, 4)] (atTheEnd [7, 8, 0, 0] [0xFFFFFFC4, 0xFFFFFFFF] 2 0)).install mod2

theorem test_witness_MontgomeryRoundTrip :
    roundTripOk.contextReady ∧
      roundTripOk.undisturbed ∧
      roundTripOk.accepts [0, 1, 2] ((roundTripOk.slice 0).len = roundTripOk.ctx.k ∧ (roundTripOk.slice 1).len = roundTripOk.ctx.k ∧ (roundTripOk.slice 2).len = 2 * roundTripOk.ctx.k) ∧
      (roundTripOk.slice 2).base = (roundTripOk.slice 0).base ∧
      roundTripOk.unmixed 0 1 ∧
      roundTripOk.operandVal 1 < roundTripOk.modVal ∧
      roundTripOk.lm.readLimbs ((roundTripOk.slice 0).base + roundTripOk.ctx.k) roundTripOk.ctx.k = List.replicate roundTripOk.ctx.k 0 := by decide +kernel

theorem test_witness_PowmodIsModularExponentiation :
    ContextClausesMet [0, 1, 2] (fun s => (s.slice 0).len = s.ctx.k ∧ (s.slice 1).len = s.ctx.k)
        (readyLengths 0 0 0) (readyLengths 1 2 1) (readyOutside 1 1 1) (contextOk 2 [5, 6, 7]) ∧
      (contextOk 2 [5, 6, 7]).unmixed 0 1 ∧
      (contextOk 2 [5, 6, 7]).unmixed 0 2 ∧
      (contextOk 2 [5, 6, 7]).unmixed 1 2 ∧
      (contextOk 2 [5, 6, 7]).operandVal 1 < (contextOk 2 [5, 6, 7]).modVal := ⟨by decide +kernel, by decide +kernel, by decide +kernel, by decide +kernel, by decide +kernel⟩

/-! The reference algorithms. -/

theorem test_witness_CorrectedEstimateIsTheQuotient :
    2 ^ 31 ≤ (0x80000001 : Word).toNat ∧
      (0xFFFFFFFC : Word).toNat + 2 ^ 32 = (2 ^ 64 - 1) / (0x80000001 : Word).toNat ∧
      (0x80000000 : Word).toNat < (0x80000001 : Word).toNat := by decide +kernel

theorem test_witness_WordwiseReductionIsRedc :
    validMod mod2 = true ∧
      [0xFFFFFFFF, 0xFFFFFFFF, 0xFFFFFFC4, 0xFFFFFFFF].length = 2 * mod2.length ∧
      (mod2.headD 0).toNat * (0xA08AD8F3 : Word).toNat % 2 ^ 32 = 0xFFFFFFFF ∧
      val [0xFFFFFFFF, 0xFFFFFFFF, 0xFFFFFFC4, 0xFFFFFFFF] < val mod2 * bigR mod2.length := by decide +kernel

theorem test_witness_FusedMultiplyReduceIsMontgomeryProduct :
    validMod mod2 = true ∧
      ([0xFFFFFFC4, 0xFFFFFFFF] : List Word).length = mod2.length ∧
      (mod2.headD 0).toNat * (0xA08AD8F3 : Word).toNat % 2 ^ 32 = 0xFFFFFFFF ∧
      val [0xFFFFFFC4, 0xFFFFFFFF] < val mod2 := by decide +kernel

theorem test_witness_FixedWindowMethodIsModularPower :
    validMod mod3 = true ∧
      1 ≤ ([0xA] : List Word).length ∧
      2 < val mod3 := by decide +kernel

/-- Spec/95_test_vectors.md 2.2 and 2.4: the reference algorithms on the vectors they are stated for. -/
theorem test_reference_algorithms :
    divReference 0x8F5C0A17 0xFFFFFFFC 0x8F5C0A19 0xC924F4B2 = (0xFFFFFFFE, 0x1EB8142E) ∧
    redcReference mod2 0xA08AD8F3 [0x11111111, 0x22222222, 0x33333333, 0x44444444] = [0x9FF6BE4C, 0x703C2ACF] ∧
    fusedReference mod2 0xA08AD8F3 [0xFFFFFFC4, 0xFFFFFFFF] [0xFFFFFFC4, 0xFFFFFFFF] = [0xA08AD8C4, 0xCBEEA4E1] ∧
    windowReference 1 0x80000001 2 0xA 1 = 0x400 := by decide +kernel

/-- A state for every hypothesis of the kernel's read-back law, MUL's result slice the last words of LM's first kilo. -/
theorem test_witness_KernelResultsReadBackAsIntegers :
    (atTheEnd [5, 6] [7, 8] 4 3).accepts [0, 1]
        (((atTheEnd [5, 6] [7, 8] 4 3).slice 0).len = ((atTheEnd [5, 6] [7, 8] 4 3).slice 1).len) ∧
      (atTheEnd [5, 6] [7, 8] 4 3).undisturbed ∧ (atTheEnd [5, 6] [7, 8] 4 3).unmixed 0 1 ∧
      (atTheEnd [5, 6] [7, 8] 4 3).legalSlice 2 ∧ (atTheEnd [5, 6] [7, 8] 4 3).apart 2 0 ∧
      (atTheEnd [5, 6] [7, 8] 4 3).apart 2 1 ∧
      ((atTheEnd [5, 6] [7, 8] 4 3).slice 0).len + ((atTheEnd [5, 6] [7, 8] 4 3).slice 1).len ≤
        ((atTheEnd [5, 6] [7, 8] 4 3).slice 2).len :=
  ⟨by decide +kernel, by decide +kernel, by decide +kernel, by decide +kernel, by decide +kernel, by decide +kernel,
    by decide +kernel⟩

/-- Rule R151 at its lengths 1 and 8, every limb at its largest: the law's hypothesis met, and the law itself. -/
theorem test_kernel_agrees :
    ([0xFFFFFFFF] : List Word).length = ([0xFFFFFFFF] : List Word).length ∧
    KernelAgrees [0xFFFFFFFF] [0xFFFFFFFF] 0xFFFFFFFF ∧ KernelAgrees [0] [1] 1 ∧
    KernelAgrees (List.replicate 8 0) (List.replicate 8 0xFFFFFFFF) 0xFFFFFFFF :=
  ⟨rfl, by decide +kernel, by decide +kernel, by decide +kernel⟩

/-- R262 (spec/70_reset_and_hazards.md): the reset input keeps LM, and an abandoned MIDENT frees no word of the table. -/
theorem test_reset_keeps :
    steps { State.reset.writeLM 0x10 [7] with input := [.reset] } (fun t => t.lm.read 0x10 == 7) = true ∧
    steps (inFlight 0x25400000 [.reset] State.reset) (fun t => t.ctx.table == State.reset.ctx.table) = true := by
  decide +kernel

/-- R99, R101: lines of text and their words; R101's table of examples gives the first and the last. -/
theorem test_assemble :
    (assemble "CMP     x3, s0, s1            ; x3 <- compare".toList).map encode = some 0x01608000 ∧
    (assemble "maskadd X0,S0,S1,X2".toList).map encode = some 0x0400A000 ∧
    (assemble "DIV x0, x1, x2, x3, x4, x5".toList).map encode = some 0x0A053940 ∧
    assemble "DIV x0, x0, x2, x3, x4, x5".toList = none ∧
    assemble "MUL x2, s0, s1".toList = none ∧
    assemble "CTXINIT s8".toList = none :=
  ⟨by decide +kernel, by decide +kernel, by decide +kernel, by decide +kernel, by decide +kernel, by decide +kernel⟩

/-- R100: the transactions of program P1's first lines (spec/95_test_vectors.md 3). -/
theorem test_directives :
    lmw 0x10 [0xFFFFFF00, 0xFFFFFFFF] ++ sset 0 0x10 2 ++ xset 2 7 ++ commandLine (.add 0 0 1) =
      [.lmWrite 0x10 0xFFFFFF00, .lmWrite 0x11 0xFFFFFFFF, .regWrite 0x10 0x00020010, .regWrite 0x0A 7,
        .regWrite 0x00 0x02008000, .wait] := by decide +kernel

end Sys2Proof.Tests
end

/-! PROOFS. The ends of a command (R222, R233), the reset values (R41), and the invariant of the machine.
What the invariant says apart from the engine (`State.Sound`) is kept by every named operation on the state, hence by every
command; what it says of the engine is settled once for the end of a command and once for each host transaction. -/

namespace Sys2Proof.Machine

/-! ## How a command ends -/

/-- Every command is one transition, an error or an effect (R22, R222), and its effect has every property that its outputs
keep and that a context installed by a CTXINIT that passes all its checks has. -/
theorem exec_eq_command {i : Instr} {s : State} {P : State → Prop} (hk : KeptByOutputs i s P)
    (hinstall : ∀ a, s.publicCheck (.ctxinit a) = none → modulusCheck (s.modulusRead (s.slice a)) = none →
      P (s.install (s.modulusRead (s.slice a)))) :
    ∃ found effect, exec i s = s.command found effect ∧ (found = none → P effect) := by
  by_cases hi : ∃ a, i = .ctxinit a
  · obtain ⟨a, rfl⟩ := hi
    refine ⟨_, _, exec_ctxinit a s, fun hnone => ?_⟩
    obtain ⟨hpublic, hmod⟩ := Option.or_eq_none_iff.1 hnone
    exact hinstall a hpublic hmod
  · obtain ⟨effect, hexec, heff⟩ := execEffect i (fun a ha => hi ⟨a, ha⟩) hk
    exact ⟨_, effect, hexec, heff⟩

theorem keptByOutputs_true (i : Instr) (s : State) : KeptByOutputs i s fun _ => True := by
  constructor <;> intros <;> trivial

/-- Settles O23: of a command's two ends, the one with an error is `raise`, which leaves the rest of the state alone. -/
theorem errorChangesNothingElse : Obligations.ErrorChangesNothingElse := by
  intro i s t h herr
  obtain ⟨found, effect, hc, -⟩ := exec_eq_command (keptByOutputs_true i s) fun _ _ _ => trivial
  rw [hc, command_eq_next_iff] at h
  obtain ⟨e, -, rfl⟩ | ⟨-, rfl⟩ := h
  · rfl
  · exact absurd (State.succeed_err effect) herr

/-- Settles O27: a command but CTXINIT has no check beside the public ones, so passing them it succeeds. -/
theorem brokenContractIsNoError : Obligations.BrokenContractIsNoError := by
  intro i s hcheck hi
  obtain ⟨effect, h, -⟩ := execEffect i hi (keptByOutputs_true i s)
  rw [hcheck, command_none] at h
  exact ⟨effect.succeed, h, effect.succeed_err, effect.succeed_busy⟩

/-! ## Reset -/

@[simp] theorem State.getX_resetWith (p : Params) (r : XReg) : (State.resetWith p).getX r = 0 := by
  simp [State.getX, State.resetWith]

@[simp] theorem State.getSD_resetWith (p : Params) (r : SReg) : (State.resetWith p).getSD r = 0 := by
  simp [State.getSD, State.resetWith]

/-- Settles O18: field by field from `State.resetWith`. -/
theorem resetLeavesTheStatedValues : Obligations.ResetLeavesTheStatedValues :=
  ⟨rfl, fun p => ⟨rfl, rfl, rfl, rfl, rfl, rfl, rfl, State.getX_resetWith p, State.getSD_resetWith p⟩⟩

/-- The reset state of a block with legal parameters meets the invariant: its memories have draws 0 to 4, of 5. -/
theorem inv_resetWith {p : Params} (hp : p.legal = true) : (State.resetWith p).Inv := by
  have hmem : (State.resetWith p).memoriesWf := ⟨rfl, rfl, rfl, rfl, rfl⟩
  have hctx : (State.resetWith p).ctx.ok p.kmax := ⟨fun h => (nomatch h), fun _ => ⟨rfl, rfl, rfl⟩⟩
  have heng : (State.resetWith p).engineOk := ⟨fun _ => rfl, fun _ => ⟨rfl, rfl⟩⟩
  have hdraws : (State.resetWith p).drawsCounted := by
    simp [State.drawsCounted, State.resetWith, Memory.unspecified]
  exact ⟨hp, hmem, hctx, heng, hdraws⟩

/-- Settles O21, of which the first half is the reference parameters' case. -/
theorem resetMeetsTheInvariant : Obligations.ResetMeetsTheInvariant :=
  ⟨inv_resetWith (by decide), fun _ => inv_resetWith⟩

/-! ## Memories whose draw has been counted -/

/-- The memory is in canonical form and its draw number is below the count `n` of draws. -/
structure Memory.Counted (m : Memory) (n : Nat) : Prop where
  wf : m.wf = true
  draw_lt : m.draw < n

namespace Memory.Counted

theorem mono {m : Memory} {n k : Nat} (h : m.Counted n) (hk : n ≤ k) : m.Counted k := ⟨h.wf, h.draw_lt.trans_le hk⟩

theorem unspecified {d n : Nat} (h : d < n) : (Memory.unspecified d).Counted n := ⟨wf_unspecified d, h⟩

theorem write {m : Memory} {n : Nat} (h : m.Counted n) (a : Nat) (v : Word) : (m.write a v).Counted n :=
  ⟨wf_write a v h.wf, h.draw_lt⟩

theorem writeLimbs {m : Memory} {n : Nat} (h : m.Counted n) (a : Nat) (vs : List Word) :
    (m.writeLimbs a vs).Counted n :=
  ⟨wf_writeLimbs a vs h.wf, (draw_writeLimbs m a vs).symm ▸ h.draw_lt⟩

end Memory.Counted

/-! ## The invariant apart from the engine -/

/-- What the invariant says of the parameters, the memories and the context. -/
structure State.Sound (s : State) : Prop where
  params : s.params.legal = true
  ctx : s.ctx.ok s.params.kmax
  lm : s.lm.Counted s.draws
  m : s.ctx.m.Counted s.draws
  ms : s.ctx.ms.Counted s.draws
  scratch : s.ctx.scratch.Counted s.draws
  table : s.ctx.table.Counted s.draws

theorem State.inv_iff (s : State) : s.Inv ↔ s.Sound ∧ s.engineOk ∧ ∀ d ∈ s.disturbance, d < s.draws := by
  constructor
  · rintro ⟨hp, ⟨w1, w2, w3, w4, w5⟩, hc, he, d1, d2, d3, d4, d5, hd⟩
    exact ⟨⟨hp, hc, ⟨w1, d1⟩, ⟨w2, d2⟩, ⟨w3, d3⟩, ⟨w4, d4⟩, ⟨w5, d5⟩⟩, he, hd⟩
  · rintro ⟨⟨hp, hc, ⟨w1, d1⟩, ⟨w2, d2⟩, ⟨w3, d3⟩, ⟨w4, d4⟩, ⟨w5, d5⟩⟩, he, hd⟩
    exact ⟨hp, ⟨w1, w2, w3, w4, w5⟩, hc, he, d1, d2, d3, d4, d5, hd⟩

namespace State.Sound

variable {s t : State}

/-- A change outside the parameters and the context is sound where it leaves LM in canonical form. -/
theorem of_ctx_eq (h : s.Sound) (hp : t.params = s.params) (hc : t.ctx = s.ctx) (hd : s.draws ≤ t.draws)
    (hl : t.lm.Counted t.draws) : t.Sound where
  params := hp ▸ h.params
  ctx := hp ▸ hc ▸ h.ctx
  lm := hl
  m := hc ▸ h.m.mono hd
  ms := hc ▸ h.ms.mono hd
  scratch := hc ▸ h.scratch.mono hd
  table := hc ▸ h.table.mono hd

/-- A change that leaves LM alone too. -/
theorem of_lm_eq (h : s.Sound) (hp : t.params = s.params) (hc : t.ctx = s.ctx) (hd : s.draws ≤ t.draws)
    (hl : t.lm = s.lm) : t.Sound :=
  h.of_ctx_eq hp hc hd (hl ▸ h.lm.mono hd)

theorem outX (h : s.Sound) (ok : Bool) (r : XReg) (v : Word) : (s.outX ok r v).Sound :=
  h.of_lm_eq (by simp) (by simp) (by cases ok <;> simp) (by simp)

theorem outLM (h : s.Sound) (ok : Bool) (base len : Nat) (v : List Word) : (s.outLM ok base len v).Sound := by
  have hd : s.draws ≤ (s.outLM ok base len v).draws := by cases ok <;> simp
  refine h.of_ctx_eq (by simp) (by simp) hd ?_
  rw [State.outLM_lm]
  exact (h.lm.mono hd).writeLimbs _ _

theorem spoilScratch (h : s.Sound) : s.spoilScratch.Sound :=
  have hd : s.draws ≤ s.draws + 1 := Nat.le_succ _
  { params := h.params, ctx := h.ctx, lm := h.lm.mono hd, m := h.m.mono hd, ms := h.ms.mono hd
    scratch := .unspecified (Nat.lt_succ_self _), table := h.table.mono hd }

theorem spoilTable (h : s.Sound) : s.spoilTable.Sound :=
  have hd : s.draws ≤ s.draws + 1 := Nat.le_succ _
  { params := h.params, ctx := h.ctx, lm := h.lm.mono hd, m := h.m.mono hd, ms := h.ms.mono hd
    scratch := h.scratch.mono hd, table := .unspecified (Nat.lt_succ_self _) }

theorem raise (h : s.Sound) (e : ErrCode) : (s.raise e).Sound := h.of_lm_eq rfl rfl le_rfl rfl

theorem settleSD (h : s.Sound) : s.settleSD.Sound := h.of_lm_eq (by simp) (by simp) (by simp) (by simp)

/-- Every output of every command is sound. -/
theorem keptByOutputs (h : s.Sound) (i : Instr) : KeptByOutputs i s State.Sound where
  start := h
  outX _ ok r v _ ht := ht.outX ok r v
  outLM _ ok base len v _ ht := ht.outLM ok base len v
  scratch _ _ ht := ht.spoilScratch
  table _ _ _ _ _ ht := ht.spoilTable

end State.Sound

/-! ## The context CTXINIT installs (R35, R172, R173) -/

/-- The installed modulus reads back. -/
theorem readLimbs_install_m (s : State) (mm : List Word) : (s.install mm).ctx.m.readLimbs 0 mm.length = mm :=
  Memory.readLimbs_writeLimbs _ _ _

theorem read_install_m (s : State) {mm : List Word} {i : Nat} (hi : i < mm.length) :
    (s.install mm).ctx.m.read i = mm.getD i 0 := by
  have h : ((s.install mm).ctx.m.readLimbs 0 mm.length).getD i 0 = (s.install mm).ctx.m.read (0 + i) :=
    Memory.getD_readLimbs _ hi
  rw [readLimbs_install_m, Nat.zero_add] at h
  exact h.symm

/-- `MS = M * 2^16`: the shifted modulus fits its `K + 1` limbs. -/
theorem val_install_ms (s : State) (mm : List Word) :
    val ((s.install mm).ctx.ms.readLimbs 0 (mm.length + 1)) = val mm * 2 ^ 16 := by
  have hread : (s.install mm).ctx.ms.readLimbs 0 (mm.length + 1) = limbs (mm.length + 1) (val mm * 2 ^ 16) :=
    Memory.readLimbs_writeLimbs_of_length (length_limbs _ _)
  have hfit : val mm * 2 ^ 16 < 2 ^ (32 * (mm.length + 1)) := by
    rw [Nat.mul_succ, Nat.pow_add]
    exact Nat.mul_lt_mul'' (val_lt mm) (by decide)
  rw [hread, val_limbs_of_lt hfit]

/-- A modulus that passes CTXINIT's checks leaves a context with rule R35's equations. -/
theorem install_readyOk (s : State) {mm : List Word} {kmax : Nat} (h1 : 1 ≤ mm.length) (hk : mm.length ≤ kmax)
    (hmod : modulusCheck mm = none) : (s.install mm).ctx.readyOk kmax := by
  obtain ⟨hodd, hnorm⟩ := (modulusCheck_eq_none_iff mm).1 hmod
  have htop : (s.install mm).ctx.m.read (mm.length - 1) = mm.getLastD 0 := by
    rw [read_install_m s (by omega), List.getLastD_eq_getLast?, List.getLast?_eq_getElem?, List.getD_eq_getElem?_getD]
  have hlow : (s.install mm).ctx.m.read 0 = mm.headD 0 := by
    rw [read_install_m s (by omega), List.headD_eq_head?_getD, List.head?_eq_getElem?, List.getD_eq_getElem?_getD]
  have hlowOdd : (mm.headD 0).toNat % 2 = 1 := by
    simpa [val] using (isOdd_iff [mm.headD 0]).1 hodd
  refine ⟨h1, hk, ?_, ?_, ?_, ?_⟩
  · show validMod ((s.install mm).ctx.m.readLimbs 0 mm.length) = true
    simp [readLimbs_install_m, validMod, h1, hodd, hnorm]
  · show val ((s.install mm).ctx.ms.readLimbs 0 (mm.length + 1)) =
      val ((s.install mm).ctx.m.readLimbs 0 mm.length) * 2 ^ 16
    rw [val_install_ms, readLimbs_install_m]
  · show (invert (mm.getLastD 0)).toNat + 2 ^ 32 = (2 ^ 64 - 1) / ((s.install mm).ctx.m.read (mm.length - 1)).toNat
    rw [htop]
    exact invert_spec hnorm
  · show ((s.install mm).ctx.m.read 0).toNat * (negInverse (mm.headD 0)).toNat % 2 ^ 32 = 0xFFFFFFFF
    rw [hlow]
    exact negInverse_spec _ hlowOdd

theorem State.Sound.install {s : State} (h : s.Sound) {mm : List Word} (h1 : 1 ≤ mm.length)
    (hk : mm.length ≤ s.params.kmax) (hmod : modulusCheck mm = none) : (s.install mm).Sound where
  params := h.params
  ctx := ⟨fun _ => install_readyOk s h1 hk hmod, fun hu => nomatch hu⟩
  lm := h.lm.mono (Nat.le_add_right _ 3)
  m := (Memory.Counted.unspecified (show s.draws < s.draws + 3 by omega)).writeLimbs 0 _
  ms := (Memory.Counted.unspecified (show s.draws + 1 < s.draws + 3 by omega)).writeLimbs 0 _
  scratch := .unspecified (show s.draws + 2 < s.draws + 3 by omega)
  table := h.table.mono (Nat.le_add_right _ 3)

/-! ## Commands and the engine's step -/

/-- A CTXINIT that passes the public checks reads between 1 and `KMAX` limbs (R223 steps 3 and 4). -/
theorem length_modulusRead_of_publicCheck {s : State} {a : SReg} (h : s.publicCheck (.ctxinit a) = none) :
    1 ≤ (s.modulusRead (s.slice a)).length ∧ (s.modulusRead (s.slice a)).length ≤ s.params.kmax := by
  obtain ⟨-, -, hne, hlen, -⟩ := (publicCheck_eq_none_iff _ _).1 h
  rw [length_modulusRead]
  exact ⟨hne a (by simp [sliceFields]), by simpa [lengthsAgree] using hlen⟩

/-- The context a CTXINIT installs once it has passed all its checks is sound. -/
theorem State.Sound.install_modulusRead {s : State} (h : s.Sound) {a : SReg}
    (hpublic : s.publicCheck (.ctxinit a) = none) (hmod : modulusCheck (s.modulusRead (s.slice a)) = none) :
    (s.install (s.modulusRead (s.slice a))).Sound := by
  obtain ⟨h1, hk⟩ := length_modulusRead_of_publicCheck hpublic
  exact h.install h1 hk hmod

/-- The end of a command in a sound state, by error or by success, followed by the late descriptor writes. -/
theorem inv_settleSD_raise {s : State} (h : s.Sound) (e : ErrCode) : (s.raise e).settleSD.Inv := by
  refine (State.inv_iff _).2 ⟨(h.raise e).settleSD, ?_, ?_⟩
  · simp [State.engineOk]
  · simp

theorem engineStep_keeps_inv {s t : State} (h : s.Inv) (hstep : engineStep s = .next t) : t.Inv := by
  obtain ⟨hs, -, -⟩ := (State.inv_iff s).1 h
  cases hd : decode s.cmd with
  | illegal r =>
    rw [engineStep_illegal hd] at hstep
    cases hstep
    exact inv_settleSD_raise hs .illegal
  | ok i =>
    rw [engineStep_ok hd, settle_eq_next_iff] at hstep
    obtain ⟨e, hexec, rfl⟩ := hstep
    obtain ⟨found, effect, hc, heff⟩ := exec_eq_command (hs.keptByOutputs i) fun _ => hs.install_modulusRead
    rw [hc, command_eq_next_iff] at hexec
    obtain ⟨code, -, rfl⟩ | ⟨hnone, rfl⟩ := hexec
    · exact inv_settleSD_raise hs code
    · exact inv_settleSD_raise (heff hnone) .none

/-! ## The reset input -/

theorem State.Sound.resetRegisters {s : State} (h : s.Sound) : s.resetRegisters.Sound where
  params := h.params
  ctx := ⟨fun hr => (nomatch hr), fun _ => ⟨rfl, rfl, rfl⟩⟩
  lm := h.lm.mono (Nat.le_add_right _ 2)
  m := .unspecified (show s.draws < s.draws + 2 by omega)
  ms := .unspecified (show s.draws + 1 < s.draws + 2 by omega)
  scratch := h.scratch.mono (Nat.le_add_right _ 2)
  table := h.table.mono (Nat.le_add_right _ 2)

theorem State.Sound.abandonSlices {s : State} (h : s.Sound) (i : Instr) : (s.abandonSlices i).Sound := by
  obtain ⟨hctx, hp, hd, hdraw, hwf⟩ := abandonSlices_keeps s i
  exact h.of_ctx_eq hp hctx hd ⟨hwf h.lm.wf, hdraw ▸ (h.lm.mono hd).draw_lt⟩

theorem State.Sound.abandonHidden {s : State} (h : s.Sound) (i : Instr) : (s.abandonHidden i).Sound := by
  unfold State.abandonHidden
  cases writesScratch i <;> cases writesTable i
  · exact h
  · exact h.spoilTable
  · exact h.spoilScratch
  · exact h.spoilScratch.spoilTable

theorem State.Sound.abandon {s : State} (h : s.Sound) : s.abandon.Sound := by
  unfold State.abandon
  split
  · exact h
  · exact (h.abandonSlices _).abandonHidden _

theorem inv_resetRegisters {s : State} (h : s.Sound) : s.resetRegisters.Inv :=
  (State.inv_iff _).2 ⟨h.resetRegisters, by simp [State.engineOk], by simp⟩

/-- The reset input, in either engine state, leaves an idle machine that meets the invariant. -/
theorem inv_resetInput {s : State} (h : s.Sound) : s.resetInput.Inv := by
  unfold State.resetInput
  split
  · exact inv_resetRegisters h.abandon
  · exact inv_resetRegisters h

/-! ## The host's transactions -/

/-- A transaction that touches neither the context nor the engine's flags keeps the invariant, where it leaves LM in
canonical form, its disturbance mark is a counted draw, and only a BUSY machine gets a mark or a late write. -/
theorem State.Inv.of_ctx_eq {s t : State} (h : s.Inv) (hp : t.params = s.params) (hc : t.ctx = s.ctx)
    (hd : s.draws ≤ t.draws) (hl : t.lm.Counted t.draws) (hb : t.busy = s.busy) (he : t.err = s.err)
    (hx : ∀ d ∈ t.disturbance, d < t.draws)
    (hidle : s.busy = false → t.disturbance = s.disturbance ∧ t.sdLate = s.sdLate) : t.Inv := by
  obtain ⟨hs, ⟨herr, hleft⟩, -⟩ := (State.inv_iff s).1 h
  refine (State.inv_iff t).2 ⟨hs.of_ctx_eq hp hc hd hl, ⟨fun ht => he ▸ herr (hb ▸ ht), fun ht => ?_⟩, hx⟩
  obtain ⟨h1, h2⟩ := hidle (hb ▸ ht)
  rw [h1, h2]
  exact hleft (hb ▸ ht)

/-- A guarded transaction that answers a next state met its guard. -/
theorem next_of_ite_fault {p : Prop} [Decidable p] {u t : State} {r : Fault}
    (h : (if p then .next u else .fault r : Host.Outcome State Fault Refusal) = .next t) : p ∧ u = t := by
  split_ifs at h with hp
  exact ⟨hp, Host.Outcome.next.inj h⟩

namespace State.Inv

variable {s t : State}

theorem sound (h : s.Inv) : s.Sound := ((State.inv_iff s).1 h).1

theorem counted_lm (h : s.Inv) : s.lm.Counted s.draws := h.sound.lm

theorem disturbance_lt (h : s.Inv) : ∀ d ∈ s.disturbance, d < s.draws := ((State.inv_iff s).1 h).2.2

theorem reply (h : s.Inv) (v : Word) : (s.reply v).Inv :=
  h.of_ctx_eq rfl rfl le_rfl h.counted_lm rfl rfl h.disturbance_lt fun _ => ⟨rfl, rfl⟩

theorem drawn (h : s.Inv) : s.drawn.Inv :=
  have hd : s.draws ≤ s.draws + 1 := Nat.le_succ _
  h.of_ctx_eq rfl rfl hd (h.counted_lm.mono hd) rfl rfl (fun d hm => (h.disturbance_lt d hm).trans_le hd)
    fun _ => ⟨rfl, rfl⟩

theorem setX (h : s.Inv) (r : XReg) (v : Word) : (s.setX r v).Inv :=
  h.of_ctx_eq rfl rfl le_rfl h.counted_lm rfl rfl h.disturbance_lt fun _ => ⟨rfl, rfl⟩

theorem setSD (h : s.Inv) (r : SReg) (v : Word) : (s.setSD r v).Inv :=
  h.of_ctx_eq rfl rfl le_rfl h.counted_lm rfl rfl h.disturbance_lt fun _ => ⟨rfl, rfl⟩

theorem lmWrite (h : s.Inv) (a : Nat) (v : Word) : ({ s with lm := s.lm.write a v } : State).Inv :=
  h.of_ctx_eq rfl rfl le_rfl (h.counted_lm.write a v) rfl rfl h.disturbance_lt fun _ => ⟨rfl, rfl⟩

/-- Issuing a command clears `ERR`. -/
theorem issue (h : s.Inv) (w : Word) : (s.issue w).Inv :=
  (State.inv_iff _).2 ⟨h.sound.of_lm_eq rfl rfl le_rfl rfl,
    ⟨fun _ => rfl, fun hb => (nomatch hb)⟩, fun _ hm => (nomatch hm)⟩

/-- The disturbance mark is the draw just counted; only a BUSY machine gets one. -/
theorem disturb (h : s.Inv) (hb : s.busy = true) : s.disturb.Inv :=
  have hd : s.draws ≤ s.draws + 1 := Nat.le_succ _
  h.of_ctx_eq rfl rfl hd (h.counted_lm.mono hd) rfl rfl (by simp) fun hb' => by simp [hb] at hb'

/-- A descriptor write waits only while BUSY. -/
theorem lateSD (h : s.Inv) (hb : s.busy = true) (l : List (SReg × Word)) : ({ s with sdLate := l } : State).Inv :=
  h.of_ctx_eq rfl rfl le_rfl h.counted_lm rfl rfl h.disturbance_lt fun hb' => by simp [hb] at hb'

theorem resetInput (h : s.Inv) : s.resetInput.Inv := inv_resetInput h.sound

theorem windowWrite (h : s.Inv) (off : Fin 32) (v : Word) : (s.windowWrite off v).Inv := by
  unfold State.windowWrite
  split_ifs
  · exact h.issue v
  · exact h.setX _ v
  · exact h.setSD _ v
  · exact h

theorem windowWriteBusy (h : s.Inv) (hb : s.busy = true) (off : Fin 32) (v : Word) : (s.windowWriteBusy off v).Inv := by
  unfold State.windowWriteBusy
  split_ifs
  · exact (h.setX _ _).disturb hb
  · exact h.lateSD hb _
  · exact h

theorem hostIdle (h : s.Inv) {op : HostOp} (hop : s.hostIdle op = .next t) : t.Inv := by
  cases op with
  | regRead off => cases hop; exact h.reply _
  | regWrite off v => cases hop; exact h.windowWrite off v
  | lmRead a =>
    obtain ⟨-, rfl⟩ := next_of_ite_fault hop
    exact h.reply _
  | lmWrite a v =>
    obtain ⟨-, rfl⟩ := next_of_ite_fault hop
    exact h.lmWrite a v
  | wait => cases hop; exact h.reply _
  | reset => cases hop; exact h.resetInput

theorem hostBusy (h : s.Inv) (hb : s.busy = true) {op : HostOp} (hop : s.hostBusy op = .next t) : t.Inv := by
  cases op with
  | regRead off =>
    simp only [State.hostBusy] at hop
    split_ifs at hop <;> cases hop
    · exact h.reply _
    · exact (h.reply _).drawn
  | regWrite off v => cases hop; exact h.windowWriteBusy hb off v
  | lmRead a =>
    obtain ⟨-, rfl⟩ := next_of_ite_fault hop
    exact (h.reply _).drawn
  | lmWrite a v =>
    obtain ⟨-, rfl⟩ := next_of_ite_fault hop
    exact (h.lmWrite a _).disturb hb
  | wait => cases hop; exact h
  | reset => cases hop; exact h.resetInput

end State.Inv

/-! ## One step -/

/-- A step that answers a next state is the engine's, a breach by the host while BUSY, a transaction while IDLE, or no move
at all (R22, R239). -/
theorem step_cases {s t : State} (h : step s = .next t) :
    (s.busy = true ∧ engineStep s = .next t) ∨
    (∃ op rest, s.input = op :: rest ∧ s.busy = true ∧ ({ s with input := rest } : State).hostBusy op = .next t) ∨
    (∃ op rest, s.input = op :: rest ∧ s.busy = false ∧ ({ s with input := rest } : State).hostIdle op = .next t) ∨
    (s.input = [] ∧ s.busy = false ∧ t = s) := by
  obtain hb | hb := Bool.eq_false_or_eq_true s.busy
  · cases hi : s.input with
    | nil => exact .inl ⟨hb, step_engine_silent hb hi ▸ h⟩
    | cons op rest =>
      by_cases hw : op = .wait
      · subst hw
        exact .inl ⟨hb, step_engine_waiting hb hi ▸ h⟩
      · exact .inr (.inl ⟨op, rest, rfl, hb, step_host_busy hb hi hw ▸ h⟩)
  · cases hi : s.input with
    | nil => exact .inr (.inr (.inr ⟨rfl, hb, by simpa [step, hb, hi, eq_comm] using h⟩))
    | cons op rest => exact .inr (.inr (.inl ⟨op, rest, rfl, hb, step_host_idle hb hi ▸ h⟩))

/-- Settles O22: the engine's step and every transaction of the host keep the invariant. -/
theorem stepKeepsTheInvariant : Obligations.StepKeepsTheInvariant := by
  intro s t h hstep
  obtain ⟨-, he⟩ | ⟨op, rest, -, hb, ho⟩ | ⟨op, rest, -, -, ho⟩ | ⟨-, -, rfl⟩ := step_cases hstep
  · exact engineStep_keeps_inv h he
  · exact State.Inv.hostBusy (s := { s with input := rest }) h hb ho
  · exact State.Inv.hostIdle (s := { s with input := rest }) h ho
  · exact h

end Sys2Proof.Machine

/-! PROOFS. The state as the host and the commands see it (R21 to R33): what a step runs, the register window and the
transactions of the host, the reset input, the frame of a command in the registers and the context, DIV and CTXINIT. -/

namespace Sys2Proof.Machine

variable {s t : State} {rest : List HostOp}

/-! ## The step -/

/-- While BUSY with the host waiting or silent the engine moves. -/
theorem step_engine (hb : s.busy = true) (h : s.input = [] ∨ ∃ rest, s.input = .wait :: rest) :
    step s = engineStep s := by
  obtain h | ⟨rest, h⟩ := h
  · exact step_engine_silent hb h
  · exact step_engine_waiting hb h

/-- Settles O5. -/
theorem stepRunsTheDecodedCommand : Obligations.StepRunsTheDecodedCommand :=
  fun _ _ hb hin hd => (step_engine hb hin).trans (engineStep_ok hd)

/-- Settles O8. -/
theorem idleEngineWaits : Obligations.IdleEngineWaits := by
  intro s hb hin
  simp [step, hb, hin]

/-- Settles O6: the state after the write is `issue`, whose next step is the engine's. -/
theorem cmdWriteWhileIdleIssuesTheCommand : Obligations.CmdWriteWhileIdleIssuesTheCommand := by
  intro s w rest hb hin
  refine ⟨({ s with input := rest } : State).issue w, rfl, step_host_idle hb hin, fun hrest => ?_⟩
  rw [step_engine rfl hrest]
  exact ⟨fun i hd => engineStep_ok hd, fun r hd => engineStep_illegal hd⟩

/-! ## The register window -/

theorem ErrCode.code_lt (e : ErrCode) : e.code < 16 := by
  cases e <;> decide

theorem State.toNat_statusWord (s : State) :
    s.statusWord.toNat = s.busy.toNat + 2 * s.ctxReady.toNat + 16 * s.err.code := by
  have := s.err.code_lt
  have := s.busy.toNat_lt
  have := s.ctxReady.toNat_lt
  rw [State.statusWord, BitVec.toNat_ofNat, Nat.mod_eq_of_lt (by omega)]

/-- Bit 0 of STATUS is BUSY (R31). -/
theorem State.getLsbD_statusWord_zero (s : State) : s.statusWord.getLsbD 0 = s.busy := by
  rw [← BitVec.testBit_toNat, Nat.testBit_zero, s.toNat_statusWord]
  cases s.busy <;> simp <;> omega

/-- Bit 1 of STATUS is CTX_READY (R31). -/
theorem State.getLsbD_statusWord_one (s : State) : s.statusWord.getLsbD 1 = s.ctxReady := by
  rw [← BitVec.testBit_toNat, Nat.testBit_succ, Nat.testBit_zero, s.toNat_statusWord]
  cases s.busy <;> cases s.ctxReady <;> simp <;> omega

/-- Settles O9: the fields of STATUS are summands that do not overlap. -/
theorem statusWordHasItsFields : Obligations.StatusWordHasItsFields := by
  intro s
  have herr := s.err.code_lt
  have hbusy := s.busy.toNat_lt
  have hready := s.ctxReady.toNat_lt
  rw [s.getLsbD_statusWord_zero, s.getLsbD_statusWord_one, s.toNat_statusWord]
  exact ⟨Iff.rfl, decide_eq_true_iff, by omega, by omega, by omega⟩

/-- The register a window offset names. -/
theorem fileIndex_eq {off : Fin 32} {lo : Nat} {r : Fin 8} (h : off.val = lo + r.val) : fileIndex off lo = r := by
  apply Fin.ext
  have := r.isLt
  simp only [fileIndex]
  omega

theorem State.toNat_ctxkWord (s : State) : s.ctxkWord.toNat = s.ctx.k % 2 ^ 16 := by
  rw [State.ctxkWord, BitVec.toNat_ofNat]
  omega

theorem State.windowRead_x (s : State) {off : Fin 32} {r : XReg} (h : off.val = 0x08 + r.val) :
    s.windowRead off = s.getX r := by
  have := r.isLt
  simp only [State.windowRead]
  rw [if_neg (by omega), if_neg (by omega), if_neg (by omega), if_neg (by omega), if_pos (by omega), fileIndex_eq h]

theorem State.windowRead_sd (s : State) {off : Fin 32} {r : SReg} (h : off.val = 0x10 + r.val) :
    s.windowRead off = s.getSD r := by
  have := r.isLt
  simp only [State.windowRead]
  rw [if_neg (by omega), if_neg (by omega), if_neg (by omega), if_neg (by omega), if_neg (by omega), if_pos (by omega),
    fileIndex_eq h]

/-- CMD and the reserved offsets read 0 (R29). -/
theorem State.windowRead_zero (s : State) {off : Fin 32}
    (h : off.val = 0 ∨ (5 ≤ off.val ∧ off.val ≤ 7) ∨ 0x18 ≤ off.val) : s.windowRead off = 0 := by
  simp only [State.windowRead]
  rw [if_neg (by omega), if_neg (by omega), if_neg (by omega), if_neg (by omega), if_neg (by omega), if_neg (by omega)]

/-- Settles O10: the datum is `windowRead`, read off at each kind of offset. -/
theorem registerWindowReads : Obligations.RegisterWindowReads := by
  intro s off rest hb hin
  refine ⟨s.windowRead off, step_host_idle hb hin, ?_, ?_, ?_, ?_, ?_, ?_, ?_, ?_, ?_⟩
  · rintro rfl; rfl
  · rintro rfl; rfl
  · rintro rfl; exact s.toNat_ctxkWord
  · rintro rfl; rfl
  · rintro rfl; rfl
  · exact fun h => s.windowRead_zero (.inr (.inl h))
  · exact fun r h => s.windowRead_x h
  · exact fun r h => s.windowRead_sd h
  · exact fun h => s.windowRead_zero (.inr (.inr h))

theorem State.windowWrite_x (s : State) {off : Fin 32} {r : XReg} (h : off.val = 0x08 + r.val) (v : Word) :
    s.windowWrite off v = s.setX r v := by
  have := r.isLt
  rw [State.windowWrite, if_neg (by omega), if_pos (by omega), fileIndex_eq h]

theorem State.windowWrite_sd (s : State) {off : Fin 32} {r : SReg} (h : off.val = 0x10 + r.val) (v : Word) :
    s.windowWrite off v = s.setSD r v := by
  have := r.isLt
  rw [State.windowWrite, if_neg (by omega), if_neg (by omega), if_pos (by omega), fileIndex_eq h]

/-- Writes to read-only and reserved offsets are ignored (R29). -/
theorem State.windowWrite_ignored (s : State) {off : Fin 32} (h : (1 ≤ off.val ∧ off.val ≤ 7) ∨ 0x18 ≤ off.val)
    (v : Word) : s.windowWrite off v = s := by
  rw [State.windowWrite, if_neg (by omega), if_neg (by omega), if_neg (by omega)]

/-- Settles O11: the write is `windowWrite`, case by case. -/
theorem registerWindowWrites : Obligations.RegisterWindowWrites := by
  intro s off v rest hb hin
  have hstep : step s = .next (({ s with input := rest } : State).windowWrite off v) := step_host_idle hb hin
  rw [hstep]
  refine ⟨fun r h => ?_, fun r h => ?_, fun h => ?_, fun h => ?_⟩
  · rw [State.windowWrite_x _ h]
  · rw [State.windowWrite_sd _ h]
  · rw [State.windowWrite_ignored _ (.inl h)]
  · rw [State.windowWrite_ignored _ (.inr h)]

/-! ## The host's accesses to LM, and its reads while BUSY -/

theorem step_idle_lmRead {a : Nat} (hb : s.busy = false) (ha : a < s.params.lmWords) (h : s.input = .lmRead a :: rest) :
    step s = .next { s with input := rest, hostData := some (s.lm.read a) } :=
  (step_host_idle hb h).trans (if_pos ha)

theorem step_idle_lmWrite {a : Nat} {v : Word} (hb : s.busy = false) (ha : a < s.params.lmWords)
    (h : s.input = .lmWrite a v :: rest) : step s = .next { s with input := rest, lm := s.lm.write a v } :=
  (step_host_idle hb h).trans (if_pos ha)

/-- Settles O12: a read answers the word, and after a write the read law of memory gives every word. -/
theorem limbMemoryHoldsWhatTheHostWrote : Obligations.LimbMemoryHoldsWhatTheHostWrote := by
  intro s a rest hb ha
  refine ⟨step_idle_lmRead hb ha, fun v hin => ⟨_, step_idle_lmWrite hb ha hin, ?_, rfl, fun later hrest => ?_⟩⟩
  · exact fun b => s.lm.read_write a b v
  · rw [step_idle_lmRead (s := { s with input := rest, lm := s.lm.write a v }) hb ha hrest, Memory.read_write_same]

/-- Settles O13: in either engine state the access fails its guard. -/
theorem hostAccessOutsideLimbMemoryStops : Obligations.HostAccessOutsideLimbMemoryStops := by
  intro s a v rest ha
  have hout : ¬ a < s.params.lmWords := Nat.not_lt.2 ha
  cases hb : s.busy with
  | false => exact ⟨fun h => (step_host_idle hb h).trans (if_neg hout), fun h => (step_host_idle hb h).trans (if_neg hout)⟩
  | true =>
    exact ⟨fun h => (step_host_busy hb h (by simp)).trans (if_neg hout),
      fun h => (step_host_busy hb h (by simp)).trans (if_neg hout)⟩

/-- Settles O16: STATUS is exact, every other read answers the free word of a new draw. -/
theorem readsWhileBusy : Obligations.ReadsWhileBusy := by
  intro s rest hb
  refine ⟨fun h => ⟨step_host_busy hb h (by simp), s.getLsbD_statusWord_zero.trans hb⟩, fun off hoff h => ?_,
    fun a ha h => ?_⟩
  · have hne : ¬ off.val = 0x01 := fun e => hoff (Fin.ext e)
    exact ⟨s.freeX, s.draws + 1, (step_host_busy hb h (by simp)).trans (if_neg hne)⟩
  · exact ⟨s.freeX, s.draws + 1, (step_host_busy hb h (by simp)).trans (if_pos ha)⟩

/-! ## The reset input -/

@[simp] theorem State.getX_resetRegisters (s : State) (r : XReg) : s.resetRegisters.getX r = 0 := by
  simp [State.getX]

@[simp] theorem State.getSD_resetRegisters (s : State) (r : SReg) : s.resetRegisters.getSD r = 0 := by
  simp [State.getSD]

theorem State.resetInput_idle (hb : s.busy = false) : s.resetInput = s.resetRegisters := by
  simp [State.resetInput, hb]

theorem State.resetInput_busy (hb : s.busy = true) : s.resetInput = s.abandon.resetRegisters := by
  simp [State.resetInput, hb]

theorem State.abandon_ok {i : Instr} (h : decode s.cmd = .ok i) :
    s.abandon = (s.abandonSlices i).abandonHidden i := by
  rw [State.abandon, h]

theorem State.abandon_illegal {r : IllegalWord} (h : decode s.cmd = .illegal r) : s.abandon = s := by
  rw [State.abandon, h]

/-- What a reset leaves alone of a command in flight: LM outside its written slices, and the hidden memories it does not
work in (R261, R262). -/
theorem abandon_keeps {i : Instr} (h : decode s.cmd = .ok i) :
    (∀ a, (∀ r ∈ writtenFields i, ¬ s.inSlice r a) → s.abandon.lm.read a = s.lm.read a) ∧
      (writesScratch i = false → s.abandon.ctx.scratch = s.ctx.scratch) ∧
      (writesTable i = false → s.abandon.ctx.table = s.ctx.table) := by
  obtain ⟨hctx, -⟩ := abandonSlices_keeps s i
  obtain ⟨hlm, -, hscratch, htable⟩ := abandonHidden_keeps (s.abandonSlices i) i
  rw [State.abandon_ok h, hlm, ← hctx]
  refine ⟨fun a ha => read_abandonSlices_outside s i fun r hr => ?_, hscratch, htable⟩
  have hout := ha r hr
  omega

/-- Settles O19: the reset input while IDLE is `resetRegisters`. -/
theorem resetInputKeepsLimbMemoryWhileIdle : Obligations.ResetInputKeepsLimbMemoryWhileIdle := by
  intro s rest hb hin
  refine ⟨({ s with input := rest } : State).resetRegisters, ?_, rfl, rfl, rfl, rfl, rfl, rfl, State.getX_resetRegisters _,
    State.getSD_resetRegisters _, fun _ => rfl, rfl, rfl⟩
  rw [step_host_idle hb hin, State.hostIdle, State.resetInput_idle (s := { s with input := rest }) hb]

/-- Settles O20: the reset input while BUSY is `resetRegisters` after `abandon`. -/
theorem resetWhileBusyDisturbsOnlyTheWrittenSlices : Obligations.ResetWhileBusyDisturbsOnlyTheWrittenSlices := by
  intro s rest hb hin
  refine ⟨({ s with input := rest } : State).abandon.resetRegisters, ?_, rfl, rfl, rfl, rfl, rfl, rfl,
    State.getX_resetRegisters _, State.getSD_resetRegisters _, ?_, ?_⟩
  · rw [step_host_busy hb hin (by simp), State.hostBusy, State.resetInput_busy (s := { s with input := rest }) hb]
  · exact fun i hd => abandon_keeps (s := { s with input := rest }) hd
  · intro r hd
    rw [State.abandon_illegal (s := { s with input := rest }) hd]
    exact ⟨rfl, rfl, rfl⟩

/-! ## The end and the frame of a command -/

/-- Settles O26: both ends of a command clear `BUSY`. -/
theorem everyCommandEnds : Obligations.EveryCommandEnds := by
  intro i s
  obtain ⟨found, effect, hexec, -⟩ := exec_eq_command (keptByOutputs_true i s) fun _ _ _ => trivial
  cases found with
  | none => exact ⟨_, hexec, effect.succeed_busy⟩
  | some e => exact ⟨_, hexec, s.raise_busy e⟩

/-- From `s` to `t` no descriptor, no `X` register outside `xs`, no parameter and nothing the host has put beside the
machine has changed (R270). -/
structure RegisterFrame (xs : List XReg) (s t : State) : Prop where
  sd : t.sd = s.sd
  x : ∀ r, r ∉ xs → t.getX r = s.getX r
  params : t.params = s.params
  cmd : t.cmd = s.cmd
  sdLate : t.sdLate = s.sdLate
  hostData : t.hostData = s.hostData
  input : t.input = s.input

/-- A change that touches no register at all. -/
theorem RegisterFrame.of_x_eq {xs : List XReg} {u : State} (h : RegisterFrame xs s t) (hx : u.x = t.x) (hsd : u.sd = t.sd)
    (hp : u.params = t.params) (hc : u.cmd = t.cmd) (hl : u.sdLate = t.sdLate) (hd : u.hostData = t.hostData)
    (hi : u.input = t.input) : RegisterFrame xs s u :=
  ⟨hsd.trans h.sd, fun r hr => (State.getX_congr hx r).trans (h.x r hr), hp.trans h.params, hc.trans h.cmd,
    hl.trans h.sdLate, hd.trans h.hostData, hi.trans h.input⟩

theorem RegisterFrame.refl (xs : List XReg) (s : State) : RegisterFrame xs s s :=
  ⟨rfl, fun _ _ => rfl, rfl, rfl, rfl, rfl, rfl⟩

/-- An output to a register of `xs` keeps the frame. -/
theorem RegisterFrame.outX {xs : List XReg} {r : XReg} (h : RegisterFrame xs s t) (hr : r ∈ xs) (ok : Bool) (v : Word) :
    RegisterFrame xs s (t.outX ok r v) where
  sd := (t.outX_sd ok r v).trans h.sd
  x q hq := by
    have hne : q ≠ r := fun e => hq (e ▸ hr)
    rw [State.getX_outX, if_neg hne, h.x q hq]
  params := (t.outX_params ok r v).trans h.params
  cmd := (t.outX_cmd ok r v).trans h.cmd
  sdLate := (t.outX_sdLate ok r v).trans h.sdLate
  hostData := (t.outX_hostData ok r v).trans h.hostData
  input := (t.outX_input ok r v).trans h.input

theorem keptByOutputs_registerFrame (i : Instr) (s : State) : KeptByOutputs i s (RegisterFrame (destX i) s) where
  start := .refl _ s
  outX _ ok _ v hr h := h.outX hr ok v
  outLM _ _ _ _ _ _ h := h.of_x_eq (by simp) (by simp) (by simp) (by simp) (by simp) (by simp) (by simp)
  scratch _ _ h := h.of_x_eq rfl rfl rfl rfl rfl rfl rfl
  table _ _ _ _ _ h := h.of_x_eq rfl rfl rfl rfl rfl rfl rfl

/-- A command changes only its destination registers, whichever way it ends. -/
theorem exec_registerFrame {i : Instr} (h : exec i s = .next t) : RegisterFrame (destX i) s t := by
  have hs := RegisterFrame.refl (destX i) s
  obtain ⟨found, effect, hexec, heff⟩ := exec_eq_command (keptByOutputs_registerFrame i s)
    fun _ _ _ => hs.of_x_eq rfl rfl rfl rfl rfl rfl rfl
  rw [hexec, command_eq_next_iff] at h
  obtain ⟨e, -, rfl⟩ | ⟨hnone, rfl⟩ := h
  · exact hs.of_x_eq rfl rfl rfl rfl rfl rfl rfl
  · exact (heff hnone).of_x_eq rfl rfl rfl rfl rfl rfl rfl

/-- Settles O29, field by field of the frame. -/
theorem commandsWriteOnlyTheirDestinationRegisters : Obligations.CommandsWriteOnlyTheirDestinationRegisters := by
  intro i s t hexec
  have h := exec_registerFrame hexec
  exact ⟨State.getSD_congr h.sd, h.x, h.params, h.cmd, h.sdLate, h.hostData, h.input⟩

/-! ## The frame of a command in the context -/

/-- From `c` to `d` the command `i`, no CTXINIT, has left the context's constants alone, all of it unless it is a context
command, and the power table unless it is POWMOD (R37 to R39, R270). -/
structure ContextFrame (i : Instr) (c d : Context) : Prop where
  constants : SameConstants c d
  all : writesScratch i = false → d = c
  table : (∀ a b e, i ≠ .powmod a b e) → d.table = c.table

theorem ContextFrame.refl (i : Instr) (c : Context) : ContextFrame i c c :=
  ⟨⟨rfl, rfl, rfl, rfl, rfl, rfl⟩, fun _ => rfl, fun _ => rfl⟩

theorem writesScratch_of_needsContext {i : Instr} (h : needsContext i = true) : writesScratch i = true := by
  cases i <;> simp_all [needsContext, writesScratch]

theorem keptByOutputs_contextFrame (i : Instr) (s : State) :
    KeptByOutputs i s fun t => ContextFrame i s.ctx t.ctx where
  start := .refl i s.ctx
  outX t ok r v _ h := (t.outX_ctx ok r v).symm ▸ h
  outLM t ok base len v _ h := (t.outLM_ctx ok base len v).symm ▸ h
  scratch _ hi h := ⟨h.constants, fun hn => by simp [writesScratch_of_needsContext hi] at hn, h.table⟩
  table _ a b c hi h := ⟨h.constants, fun hn => by simp [hi, writesScratch] at hn, fun hn => absurd hi (hn a b c)⟩

/-- A command but CTXINIT keeps the frame, whichever way it ends. -/
theorem exec_contextFrame {i : Instr} (hi : ∀ a, i ≠ .ctxinit a) (h : exec i s = .next t) :
    ContextFrame i s.ctx t.ctx := by
  obtain ⟨effect, hexec, heff⟩ := execEffect i hi (keptByOutputs_contextFrame i s)
  rw [hexec, command_eq_next_iff] at h
  obtain ⟨e, -, rfl⟩ | ⟨hnone, rfl⟩ := h
  · exact .refl i s.ctx
  · exact heff hnone

/-- Settles O31: an error and a command but CTXINIT keep the frame, a CTXINIT that succeeds installs all but the table. -/
theorem onlyCtxinitWritesTheContextConstants : Obligations.OnlyCtxinitWritesTheContextConstants := by
  intro i s t hexec
  by_cases hi : ∃ a, i = .ctxinit a
  · obtain ⟨a, rfl⟩ := hi
    rw [exec_ctxinit, command_eq_next_iff] at hexec
    obtain ⟨e, -, rfl⟩ | ⟨-, rfl⟩ := hexec
    · have h := ContextFrame.refl (.ctxinit a) s.ctx
      exact ⟨fun _ => h.constants, fun _ => rfl, h.table⟩
    · refine ⟨fun h => ?_, fun h => ?_, fun _ => rfl⟩
      · exact absurd h (by simp)
      · exact absurd h (by simp [writesScratch])
  · have hne : ∀ a, i ≠ .ctxinit a := fun a ha => hi ⟨a, ha⟩
    have h := exec_contextFrame hne hexec
    refine ⟨fun _ => h.constants, ?_, h.table⟩
    rintro (hn | herr)
    · exact h.all hn
    · rw [errorChangesNothingElse i s t hexec herr]

/-! ## A descriptor write while BUSY -/

theorem State.windowWriteBusy_sd (s : State) {off : Fin 32} {r : SReg} (h : off.val = 0x10 + r.val) (v : Word) :
    s.windowWriteBusy off v = { s with sdLate := s.sdLate ++ [(r, v)] } := by
  have := r.isLt
  rw [State.windowWriteBusy, if_neg (by omega), if_pos (by omega), fileIndex_eq h]

/-- The youngest of the late descriptor writes holds after the settling. -/
theorem State.getSD_settleSD_of_append {l : List (SReg × Word)} {r : SReg} {v : Word} (h : s.sdLate = l ++ [(r, v)]) :
    s.settleSD.getSD r = v := by
  simp [State.getSD, h]

theorem step_busy_sdWrite {off : Fin 32} {r : SReg} {v : Word} (hb : s.busy = true) (hoff : off.val = 0x10 + r.val)
    (h : s.input = .regWrite off v :: rest) :
    step s = .next { s with input := rest, sdLate := s.sdLate ++ [(r, v)] } :=
  (step_host_busy hb h (by simp)).trans (congrArg _ (State.windowWriteBusy_sd _ hoff v))

/-- With the host silent, the command in flight runs on the descriptors as they are, and the youngest late write holds once
it has ended. -/
theorem step_command_then_late_write {i : Instr} {l : List (SReg × Word)} {r : SReg} {v : Word} (hb : s.busy = true)
    (hin : s.input = []) (hd : decode s.cmd = .ok i) (hl : s.sdLate = l ++ [(r, v)]) :
    ∃ e u, exec i s = .next e ∧ step s = .next u ∧
      u.getSD r = v ∧ u.lm = e.lm ∧ u.x = e.x ∧ u.ctx = e.ctx ∧ u.err = e.err := by
  obtain ⟨e, hexec, -⟩ := everyCommandEnds i s
  have hlate : e.sdLate = l ++ [(r, v)] := (exec_registerFrame hexec).sdLate.trans hl
  refine ⟨e, e.settleSD, hexec, ?_, State.getSD_settleSD_of_append hlate, by simp, by simp, by simp, by simp⟩
  rw [step_engine_silent hb hin, engineStep_ok hd, hexec, settle]

/-- Settles O15: the write waits behind those before it, and the step after it is the command's. -/
theorem descriptorWriteWhileBusyTakesEffectAfterTheCommand :
    Obligations.DescriptorWriteWhileBusyTakesEffectAfterTheCommand := by
  intro s r off v i hb hoff hin hd
  obtain ⟨e, u, hexec, hrun, hu⟩ := step_command_then_late_write
    (s := { s with input := [], sdLate := s.sdLate ++ [(r, v)] }) hb rfl hd rfl
  exact ⟨_, e, u, step_busy_sdWrite hb hoff hin, fun _ => rfl, hexec, hrun, hu⟩

/-! ## DIV -/

/-- DIV has no slice and needs no context, so no check can stop it (R229). -/
theorem publicCheck_div (s : State) (a b c d e f : XReg) : s.publicCheck (.div a b c d e f) = none :=
  (publicCheck_eq_none_iff _ _).2 (by simp [needsContext, emptyModulus, sliceFields, lengthsAgree])

/-- The reciprocal is the only word that satisfies rule R143's equation. -/
theorem eq_invert {d v : Word} (hd : normLimb d = true) (hv : v.toNat + 2 ^ 32 = (2 ^ 64 - 1) / d.toNat) :
    v = invert d := by
  have := invert_spec hd
  exact BitVec.eq_of_toNat_eq (by omega)

/-- Within its contract DIV writes quotient and remainder of the two-limb numerator (R145). -/
theorem exec_div_of_contract {a b c d e f : XReg}
    (h : s.inContract (divContract (s.getX c) (s.getX e) (s.getX f)) = true) :
    exec (.div a b c d e f) s = .next ((s.setX a
      (BitVec.ofNat 32 (((s.getX c).toNat * 2 ^ 32 + (s.getX d).toNat) / (s.getX e).toNat))).setX b
      (BitVec.ofNat 32 (((s.getX c).toNat * 2 ^ 32 + (s.getX d).toNat) % (s.getX e).toNat))).succeed := by
  rw [exec, execDiv, publicCheck_div, h]
  rfl

/-- Quotient and remainder of a two-limb numerator, its high limb below the divisor, are words (R145). -/
theorem toNat_div_mod_of_high_lt {n1 d : Word} (n0 : Word) (h : n1.toNat < d.toNat) :
    (BitVec.ofNat 32 ((n1.toNat * 2 ^ 32 + n0.toNat) / d.toNat)).toNat = (n1.toNat * 2 ^ 32 + n0.toNat) / d.toNat ∧
      (BitVec.ofNat 32 ((n1.toNat * 2 ^ 32 + n0.toNat) % d.toNat)).toNat =
        (n1.toNat * 2 ^ 32 + n0.toNat) % d.toNat := by
  have hn0 := n0.isLt
  have hd := d.isLt
  have hquot : (n1.toNat * 2 ^ 32 + n0.toNat) / d.toNat < 2 ^ 32 := Nat.div_lt_of_lt_mul (by omega)
  have hrem : (n1.toNat * 2 ^ 32 + n0.toNat) % d.toNat < d.toNat := Nat.mod_lt _ (by omega)
  simp only [BitVec.toNat_ofNat]
  exact ⟨Nat.mod_eq_of_lt hquot, Nat.mod_eq_of_lt (by omega)⟩

/-- Settles O41: rule R143's equation makes `X[F]` the reciprocal, so the contract holds. -/
theorem divIsQuotientAndRemainder : Obligations.DivIsQuotientAndRemainder := by
  intro a b c d e f s _ hs htop hinv hlt
  have hnorm : normLimb (s.getX e) = true := (normLimb_iff _).2 htop
  have hok : s.inContract (divContract (s.getX c) (s.getX e) (s.getX f)) = true :=
    (inContract_eq_true_iff _ _).2 ⟨by simp [divContract, hnorm, eq_invert hnorm hinv, hlt], hs⟩
  obtain ⟨hquot, hrem⟩ := toNat_div_mod_of_high_lt (s.getX d) hlt
  refine ⟨_, _, ?_, ?_, exec_div_of_contract hok⟩
  · rw [hquot, hrem, Nat.mul_comm]
    exact Nat.div_add_mod _ _
  · rw [hrem]
    exact Nat.mod_lt _ (by omega)

/-! ## CTXINIT -/

/-- Steps 3 to 5 of rule R223 for CTXINIT. -/
theorem publicCheck_ctxinit (s : State) (a : SReg) :
    s.publicCheck (.ctxinit a) =
      if (s.slice a).len = 0 then some .modEmpty
      else if s.params.kmax < (s.slice a).len then some .len
      else if s.params.lmWords < (s.slice a).base + (s.slice a).len then some .range
      else none := by
  simp only [State.publicCheck, needsContext, emptyModulus, sliceFields, lengthsAgree, State.inLM]
  split_ifs <;> simp_all

theorem raises_ctxinit_of_publicCheck {a : SReg} {e : ErrCode} (h : s.publicCheck (.ctxinit a) = some e) :
    Raises (.ctxinit a) s e := by
  rw [Raises, exec_ctxinit, h]
  rfl

/-- CTXINIT past the public checks, the host keeping rule R266: the outcome of its test of the operand decides. -/
theorem exec_ctxinit_undisturbed {a : SReg} (hp : s.publicCheck (.ctxinit a) = none) (hs : s.undisturbed) :
    exec (.ctxinit a) s = s.command (modulusCheck (s.operand a)) (s.install (s.operand a)) := by
  have hread : s.modulusRead (s.slice a) = s.operand a := by rw [State.modulusRead, hs]
  rw [exec_ctxinit, hp, hread]
  rfl

/-- The low limb of an odd modulus is odd. -/
theorem headD_odd {mm : List Word} (h : isOdd mm = true) : (mm.headD 0).toNat % 2 = 1 := by
  simpa [val] using (isOdd_iff [mm.headD 0]).1 h

/-- Settles O43: the checks in their order, then the constants of the installed context. -/
theorem ctxinitChecksThenInstallsTheContext : Obligations.CtxinitChecksThenInstallsTheContext := by
  intro a s
  refine ⟨fun h0 => ?_, fun h1 hk => ?_, fun h1 hk hr => ?_, ?_⟩
  · exact raises_ctxinit_of_publicCheck (by rw [publicCheck_ctxinit, if_pos h0])
  · exact raises_ctxinit_of_publicCheck (by rw [publicCheck_ctxinit, if_neg (by omega), if_pos hk])
  · exact raises_ctxinit_of_publicCheck
      (by rw [publicCheck_ctxinit, if_neg (by omega), if_neg (by omega), if_pos hr])
  · rintro ⟨h1, hr⟩ hk hs
    have hp : s.publicCheck (.ctxinit a) = none := by
      rw [publicCheck_ctxinit, if_neg (by omega), if_neg (by omega), if_neg (by omega)]
    have hexec := exec_ctxinit_undisturbed hp hs
    refine ⟨fun heven => ?_, fun hodd hun => ?_, fun hodd hnorm => ?_⟩
    · rw [Raises, hexec, modulusCheck, heven]
      rfl
    · rw [Raises, hexec, modulusCheck, hodd, hun]
      rfl
    · have hlen : (s.operand a).length = (s.slice a).len := length_limbsAt s _
      rw [(modulusCheck_eq_none_iff _).2 ⟨hodd, hnorm⟩, command_none] at hexec
      exact ⟨(s.install (s.operand a)).succeed, ⟨hexec, rfl, rfl⟩, rfl, hlen, readLimbs_install_m s _,
        val_install_ms s _, invert_spec hnorm, negInverse_spec _ (headD_odd hodd), rfl, rfl, rfl⟩

end Sys2Proof.Machine

/-! PROOFS. The frame of a command in LM (R270): outside the slices of its written column every output leaves LM alone. -/

namespace Sys2Proof.Machine

/-- From `s` to `t` no word of LM outside the slices the command `i` writes has changed (R68, R270). -/
def LimbFrame (i : Instr) (s t : State) : Prop :=
  ∀ a, (∀ r ∈ writtenFields i, ¬ s.inSlice r a) → t.lm.read a = s.lm.read a

variable {i : Instr} {s t u : State}

/-- A change that does not touch LM at all. -/
theorem LimbFrame.of_lm_eq (h : LimbFrame i s t) (hlm : u.lm = t.lm) : LimbFrame i s u :=
  fun a ha => (congrArg (·.read a) hlm).trans (h a ha)

theorem LimbFrame.refl (i : Instr) (s : State) : LimbFrame i s s := fun _ _ => rfl

/-- A slice output lies in a written slice, so a word outside the written slices is outside the output. -/
theorem LimbFrame.outLM {ok : Bool} {base len : Nat} {v : List Word} (h : LimbFrame i s t)
    (hfit : OutputFits i s ok base len v) : LimbFrame i s (t.outLM ok base len v) := by
  intro a ha
  obtain ⟨⟨r, hr, hlow, hhigh⟩, hv⟩ := hfit
  have hout := ha r hr
  exact (read_outLM_outside t ok hv (by omega)).trans (h a ha)

theorem keptByOutputs_limbFrame (i : Instr) (s : State) : KeptByOutputs i s (LimbFrame i s) where
  start := .refl i s
  outX t ok r v _ h := h.of_lm_eq (t.outX_lm ok r v)
  outLM _ _ _ _ _ hfit h := h.outLM hfit
  scratch _ _ h := h.of_lm_eq rfl
  table _ _ _ _ _ h := h.of_lm_eq rfl

/-- Settles O30: an error leaves LM alone, and so does the context a CTXINIT installs; every other effect is made of
outputs to the written slices. -/
theorem commandsWriteOnlyTheirWrittenSlices : Obligations.CommandsWriteOnlyTheirWrittenSlices := by
  intro i s t h
  have hs := LimbFrame.refl i s
  obtain ⟨found, effect, hexec, heff⟩ := exec_eq_command (keptByOutputs_limbFrame i s)
    fun _ _ _ => hs.of_lm_eq rfl
  rw [hexec, command_eq_next_iff] at h
  obtain ⟨e, -, rfl⟩ | ⟨hnone, rfl⟩ := h
  · exact hs.of_lm_eq rfl
  · exact (heff hnone).of_lm_eq rfl

end Sys2Proof.Machine

/-! PROOFS. The encoding (R90 to R101): decoding and encoding are inverse, the decodable words are the rows of rule R93's
table, and an ILLEGAL word in flight ends with its error. -/

namespace Sys2Proof

open Machine
open Laws.EncodedOpcode (opcOf_packWord opc_lt)

variable {w : Word} {i : Instr}

/-! ## A row of the table as functions of its command -/

/-- How many of the lowest bits of a command's word its row leaves unused, `Z` among them (R91, R93). -/
def Instr.unusedBits : Instr → Nat
  | .cmp _ _ _ => 15
  | .add _ _ _ => 15
  | .sub _ _ _ => 15
  | .maskadd _ _ _ _ => 12
  | .masksub _ _ _ _ => 12
  | .mul _ _ _ => 15
  | .muladd _ _ _ _ => 12
  | .mulsub _ _ _ _ => 12
  | .inv _ _ => 18
  | .div _ _ _ _ _ _ => 6
  | .reduce _ _ => 18
  | .ctxinit _ => 21
  | .mtrans _ _ => 18
  | .mredc _ => 21
  | .mulred _ _ _ => 15
  | .sqrred _ _ => 18
  | .mident _ => 21
  | .mpowers _ _ => 18
  | .select _ _ _ => 15
  | .powmod _ _ _ => 15

/-- The command of the same row as `i` with the register fields of the word `w` (R90, R93). -/
def Instr.withFieldsOf (i : Instr) (w : Word) : Instr :=
  match i with
  | .cmp _ _ _ => .cmp (fieldA w) (fieldB w) (fieldC w)
  | .add _ _ _ => .add (fieldA w) (fieldB w) (fieldC w)
  | .sub _ _ _ => .sub (fieldA w) (fieldB w) (fieldC w)
  | .maskadd _ _ _ _ => .maskadd (fieldA w) (fieldB w) (fieldC w) (fieldD w)
  | .masksub _ _ _ _ => .masksub (fieldA w) (fieldB w) (fieldC w) (fieldD w)
  | .mul _ _ _ => .mul (fieldA w) (fieldB w) (fieldC w)
  | .muladd _ _ _ _ => .muladd (fieldA w) (fieldB w) (fieldC w) (fieldD w)
  | .mulsub _ _ _ _ => .mulsub (fieldA w) (fieldB w) (fieldC w) (fieldD w)
  | .inv _ _ => .inv (fieldA w) (fieldB w)
  | .div _ _ _ _ _ _ => .div (fieldA w) (fieldB w) (fieldC w) (fieldD w) (fieldE w) (fieldF w)
  | .reduce _ _ => .reduce (fieldA w) (fieldB w)
  | .ctxinit _ => .ctxinit (fieldA w)
  | .mtrans _ _ => .mtrans (fieldA w) (fieldB w)
  | .mredc _ => .mredc (fieldA w)
  | .mulred _ _ _ => .mulred (fieldA w) (fieldB w) (fieldC w)
  | .sqrred _ _ => .sqrred (fieldA w) (fieldB w)
  | .mident _ => .mident (fieldA w)
  | .mpowers _ _ => .mpowers (fieldA w) (fieldB w)
  | .select _ _ _ => .select (fieldA w) (fieldB w) (fieldC w)
  | .powmod _ _ _ => .powmod (fieldA w) (fieldB w) (fieldC w)

@[simp] theorem Instr.opc_withFieldsOf (i : Instr) (w : Word) : (i.withFieldsOf w).opc = i.opc := by
  cases i <;> rfl

@[simp] theorem Instr.unusedBits_withFieldsOf (i : Instr) (w : Word) : (i.withFieldsOf w).unusedBits = i.unusedBits := by
  cases i <;> rfl

@[simp] theorem Instr.withFieldsOf_withFieldsOf (i : Instr) (v w : Word) :
    (i.withFieldsOf v).withFieldsOf w = i.withFieldsOf w := by
  cases i <;> rfl

theorem Instr.six_le_unusedBits (i : Instr) : 6 ≤ i.unusedBits := by
  cases i <;> simp [Instr.unusedBits]

/-! ## What decoding answers -/

/-- The row of the command a word decodes to is the row of the word, and the command has the word's fields. -/
theorem row_of_decode (h : decode w = .ok i) :
    opcOf w = i.opc ∧ w.toNat % 2 ^ i.unusedBits = 0 ∧ i.wellFormed = true ∧ i.withFieldsOf w = i := by
  unfold decode at h
  split at h
  case h_10 ho => -- DIV
    split at h
    · cases h
    · next hdiv =>
      obtain ⟨hz, rfl⟩ := whenUnusedZero_eq_ok_iff.1 h
      exact ⟨ho, hz, decide_eq_true fun hab => hdiv ⟨hz, hab⟩, rfl⟩
  case h_21 => cases h -- no row's opcode
  all_goals
    next ho =>
    obtain ⟨hz, rfl⟩ := whenUnusedZero_eq_ok_iff.1 h
    exact ⟨ho, hz, rfl, rfl⟩

/-- A word with the opcode of a row is looked at by that row alone. -/
theorem decode_of_opc (ho : opcOf w = i.opc) (hwf : (i.withFieldsOf w).wellFormed = true) :
    decode w = whenUnusedZero w i.unusedBits (i.withFieldsOf w) := by
  cases i
  case div =>
    have hab : fieldA w ≠ fieldB w := of_decide_eq_true hwf
    rw [decode, ho]
    exact if_neg fun h => hab h.2
  all_goals rw [decode, ho]; rfl

/-- Rule R94 said once: a word is a command exactly when its opcode is the command's, the bits the row leaves unused are
zero, the command is well formed, and its fields are the word's. -/
theorem decode_eq_ok_iff :
    decode w = .ok i ↔
      opcOf w = i.opc ∧ w.toNat % 2 ^ i.unusedBits = 0 ∧ i.wellFormed = true ∧ i.withFieldsOf w = i := by
  refine ⟨row_of_decode, fun ⟨ho, hz, hwf, hf⟩ => ?_⟩
  rw [decode_of_opc ho (by rwa [hf]), whenUnusedZero_eq_ok_iff]
  exact ⟨hz, hf⟩

/-! ## What the word of a command holds -/

theorem opcOf_encode (i : Instr) : opcOf (encode i) = i.opc := by
  cases i <;> exact opcOf_packWord _ (opc_lt _) _ _ _ _ _ _

/-- The fields below the used ones, and `Z`, are zero in a command's word (R91). -/
theorem toNat_encode_mod (i : Instr) : (encode i).toNat % 2 ^ i.unusedBits = 0 := by
  have h := opc_lt i
  cases i <;> simp only [encode, toNat_packWord _ h, Instr.unusedBits, Fin.val_zero] <;> omega

/-- The used fields of a command's word are the command's registers (R90). -/
theorem withFieldsOf_encode (i : Instr) : i.withFieldsOf (encode i) = i := by
  have h := opc_lt i
  cases i <;> simp only [Instr.withFieldsOf, encode, fieldA_packWord _ h, fieldB_packWord _ h, fieldC_packWord _ h,
    fieldD_packWord _ h, fieldE_packWord _ h, fieldF_packWord _ h]

/-- Settles O1: the word of a command has the command's opcode, zeros below its used fields, and its registers in them. -/
theorem decodeOfEncodeIsTheCommand : Obligations.DecodeOfEncodeIsTheCommand :=
  fun i hwf => decode_eq_ok_iff.2 ⟨opcOf_encode i, toNat_encode_mod i, hwf, withFieldsOf_encode i⟩

/-! ## The word a command's fields make -/

/-- A word with `Z = 0` is made of its opcode and its six fields (R90). -/
theorem packWord_fields (hz : w.toNat % 2 ^ 6 = 0) :
    packWord (opcOf w) (fieldA w) (fieldB w) (fieldC w) (fieldD w) (fieldE w) (fieldF w) = w := by
  have hw := w.isLt
  apply BitVec.eq_of_toNat_eq
  rw [toNat_packWord _ (by rw [opcOf]; omega)]
  simp only [opcOf, fieldA, fieldB, fieldC, fieldD, fieldE, fieldF, fieldAt]
  omega

/-- A field that lies in the zero bits at the bottom of a word is zero. -/
theorem fieldAt_eq_zero {n lo : Nat} (hz : w.toNat % 2 ^ n = 0) (hlo : lo + 3 ≤ n) : fieldAt w lo = 0 := by
  have h8 : 2 ^ lo * 8 ∣ w.toNat := by
    rw [show 2 ^ lo * 8 = 2 ^ (lo + 3) from (pow_add 2 lo 3).symm]
    exact (pow_dvd_pow 2 hlo).trans (Nat.dvd_of_mod_eq_zero hz)
  exact Fin.ext (Nat.mod_eq_zero_of_dvd (Nat.dvd_div_of_mul_dvd h8))

/-- A word whose opcode is a row's and whose unused bits are zero is the word of the command its fields name. -/
theorem encode_withFieldsOf (ho : opcOf w = i.opc) (hz : w.toNat % 2 ^ i.unusedBits = 0) :
    encode (i.withFieldsOf w) = w := by
  have hw := packWord_fields (Nat.mod_eq_zero_of_dvd
    ((pow_dvd_pow 2 i.six_le_unusedBits).trans (Nat.dvd_of_mod_eq_zero hz)))
  have hunused {lo : Nat} (hlo : lo + 3 ≤ i.unusedBits) : fieldAt w lo = 0 := fieldAt_eq_zero hz hlo
  rw [ho, ← i.opc_withFieldsOf w] at hw
  cases i
  case div => exact hw
  all_goals
    simp only [Instr.unusedBits] at hunused
    simpa only [Instr.withFieldsOf, encode, fieldB, fieldC, fieldD, fieldE, fieldF, hunused, Nat.reduceAdd, Nat.reduceLeDiff]
      using hw

/-- Settles O2: the command is made of the word's fields, and those fields make the word. -/
theorem encodeOfDecodeIsTheWord : Obligations.EncodeOfDecodeIsTheWord := by
  intro w i h
  obtain ⟨ho, hz, hwf, hf⟩ := decode_eq_ok_iff.1 h
  exact ⟨hf ▸ encode_withFieldsOf ho hz, hwf⟩

/-! ## The table of rule R93 -/

/-- The `match` and the `mask` of a command's row: the opcode, and the bits of the opcode and of the unused fields. -/
def Instr.row (i : Instr) : Word × Word :=
  (BitVec.ofNat 32 (i.opc * 2 ^ 24), BitVec.ofNat 32 (255 * 2 ^ 24 ||| (2 ^ i.unusedBits - 1)))

/-- One command of each row, in the order of rule R93's table. -/
def commandPerRow : List Instr :=
  [.cmp 0 0 0, .add 0 0 0, .sub 0 0 0, .maskadd 0 0 0 0, .masksub 0 0 0 0, .mul 0 0 0, .muladd 0 0 0 0, .mulsub 0 0 0 0,
   .inv 0 0, .div 0 0 0 0 0 0, .reduce 0 0, .ctxinit 0, .mtrans 0 0, .mredc 0, .mulred 0 0 0, .sqrred 0 0, .mident 0,
   .mpowers 0 0, .select 0 0 0, .powmod 0 0 0]

theorem Instr.unusedBits_le (i : Instr) : i.unusedBits ≤ 24 := by
  cases i <;> simp [Instr.unusedBits]

theorem Instr.toNat_row_match (i : Instr) : i.row.1.toNat = i.opc * 2 ^ 24 := by
  have h := opc_lt i
  rw [Instr.row, BitVec.toNat_ofNat, Nat.mod_eq_of_lt]
  omega

theorem Instr.toNat_row_mask (i : Instr) : i.row.2.toNat = 255 * 2 ^ 24 ||| (2 ^ i.unusedBits - 1) := by
  have h : 2 ^ i.unusedBits ≤ 2 ^ 24 := Nat.pow_le_pow_right (by omega) i.unusedBits_le
  rw [Instr.row, BitVec.toNat_ofNat, Nat.mod_eq_of_lt]
  exact Nat.or_lt_two_pow (by omega) (by omega)

/-- The rows of rule R93's table are the rows of the 20 commands. -/
theorem encodingRows_eq_map : encodingRows = commandPerRow.map Instr.row := by decide

/-- A command's row is in the table: with its fields set to 0 it is the listed command of that row. -/
theorem Instr.withFieldsOf_zero_mem (i : Instr) : i.withFieldsOf 0 ∈ commandPerRow := by
  cases i <;> simp [Instr.withFieldsOf, commandPerRow, fieldA, fieldB, fieldC, fieldD, fieldE, fieldF, fieldAt]

@[simp] theorem Instr.row_withFieldsOf (i : Instr) (w : Word) : (i.withFieldsOf w).row = i.row := by simp [Instr.row]

theorem Instr.row_mem_encodingRows (i : Instr) : i.row ∈ encodingRows := by
  rw [encodingRows_eq_map, ← i.row_withFieldsOf 0]
  exact List.mem_map_of_mem i.withFieldsOf_zero_mem

theorem exists_row_eq {r : Word × Word} (h : r ∈ encodingRows) : ∃ i : Instr, i.row = r := by
  rw [encodingRows_eq_map, List.mem_map] at h
  obtain ⟨i, -, hi⟩ := h
  exact ⟨i, hi⟩

/-- What it is to match a command's row under its mask. -/
theorem and_row_iff (w : Word) (i : Instr) :
    w &&& i.row.2 = i.row.1 ↔ opcOf w = i.opc ∧ w.toNat % 2 ^ i.unusedBits = 0 :=
  and_mask_eq_match_iff w _ _ i.toNat_row_match i.toNat_row_mask i.unusedBits_le

theorem Instr.row_match_eq_div_iff (i : Instr) : i.row.1 = 0x0A000000 ↔ i.opc = 0x0A := by
  rw [← BitVec.toNat_inj, i.toNat_row_match, show (0x0A000000 : Word).toNat = 0x0A * 2 ^ 24 from rfl]
  omega

/-- The condition of rule R93's table beside the match: only the DIV row has one. -/
theorem wellFormed_withFieldsOf_iff (w : Word) (i : Instr) :
    (i.withFieldsOf w).wellFormed = true ↔ (i.row.1 = 0x0A000000 → fieldA w ≠ fieldB w) := by
  rw [i.row_match_eq_div_iff]
  cases i <;> simp [Instr.withFieldsOf, Instr.wellFormed, Instr.opc]

/-- Settles O3: a word that decodes matches the row of its command, and a word that matches a row decodes to the command
of that row with the word's fields. -/
theorem decodableWordsAreTheTableRows : Obligations.DecodableWordsAreTheTableRows := by
  intro w
  constructor
  · rintro ⟨i, hi⟩
    obtain ⟨ho, hz, hwf, hf⟩ := decode_eq_ok_iff.1 hi
    exact ⟨i.row, i.row_mem_encodingRows, (and_row_iff w i).2 ⟨ho, hz⟩, (wellFormed_withFieldsOf_iff w i).1 (by rwa [hf])⟩
  · rintro ⟨r, hr, hmatch, hdiv⟩
    obtain ⟨i, rfl⟩ := exists_row_eq hr
    obtain ⟨ho, hz⟩ := (and_row_iff w i).1 hmatch
    have hwf := (wellFormed_withFieldsOf_iff w i).2 hdiv
    exact ⟨i.withFieldsOf w, decode_eq_ok_iff.2 ⟨by simpa using ho, by simpa using hz, hwf, by simp⟩⟩

/-! ## The examples, and an ILLEGAL word in flight -/

/-- Settles O4: ten closed words and commands, each decoded and encoded by evaluation. -/
theorem encodingExamplesDecode : Obligations.EncodingExamplesDecode := by
  unfold Obligations.EncodingExamplesDecode
  decide

/-- Settles O7: with the host waiting or silent the step is the engine's, which raises the error. -/
theorem illegalWordRaisesErrIllegal : Obligations.IllegalWordRaisesErrIllegal :=
  fun _ _ hb hin hd => (step_engine hb hin).trans (engineStep_illegal hd)

end Sys2Proof

/-! PROOFS. The Limb Kernel (rules R120 to R152): what its loops report in the register forms of rule R121, what its commands
leave in LM and in `X[A]`, and rule R146's estimate of a quotient. -/

namespace Sys2Proof.Machine

/-! ## What the loops report (R121) -/

theorem toNat_carryWord {n : Nat} (h : n ≤ 1) : (carryWord n).toNat = n := by
  rw [carryWord, BitVec.toNat_ofNat, Nat.mod_eq_of_lt (by omega)]

theorem toNat_overflowWord {n : Nat} (h : n < 2 ^ 32) : (overflowWord n).toNat = n := by
  rw [overflowWord, BitVec.toNat_ofNat, Nat.mod_eq_of_lt h]

theorem borrowOf_borrowWord {n : Nat} (h : n ≤ 1) : borrowOf (borrowWord n) = n := by
  obtain rfl | rfl : n = 0 ∨ n = 1 := by omega
  · rfl
  · rfl

/-- Software recovers the signed overflow `-n` from its residue modulo `2^32` (R139). -/
theorem signedOverflowOf_signedOverflowWord {n : Int} (h0 : 0 ≤ n) (h : n < 2 ^ 32) :
    signedOverflowOf (signedOverflowWord n) = -n := by
  have htoNat : ((signedOverflowWord n).toNat : Int) = (-n) % 2 ^ 32 := by
    rw [signedOverflowWord, BitVec.toNat_ofInt]
    omega
  by_cases hz : signedOverflowWord n = 0
  · rw [hz] at htoNat
    simp only [BitVec.ofNat_eq_ofNat, BitVec.toNat_ofNat] at htoNat
    rw [signedOverflowOf, if_pos hz]
    omega
  · have hne : (signedOverflowWord n).toNat ≠ 0 := fun e => hz (BitVec.eq_of_toNat_eq e)
    rw [signedOverflowOf, if_neg hz]
    omega

/-- The borrow out of a difference is set exactly when the difference underflows (R126). -/
theorem rippleSub_borrow {a b : List Word} (h : a.length = b.length) :
    (rippleSub allOnes a b 0).2 = if val a < val b then 1 else 0 := by
  have hval := rippleSub_val a b 0 h (by omega)
  have hle := rippleSub_borrow_le allOnes a b 0 (by omega)
  have hlt := val_lt (rippleSub allOnes a b 0).1
  rw [rippleSub_length _ _ _ _ h] at hlt
  obtain hw | hw : (rippleSub allOnes a b 0).2 = 0 ∨ (rippleSub allOnes a b 0).2 = 1 := by omega
  · rw [hw] at hval ⊢
    rw [if_neg (by omega)]
  · rw [hw] at hval ⊢
    rw [if_pos (by omega)]

/-- The register form of the borrow, as a comparison of the operands (R121, R126). -/
theorem borrowWord_rippleSub {a b : List Word} (h : a.length = b.length) :
    borrowWord (rippleSub allOnes a b 0).2 = if val a < val b then 0xFFFFFFFF else 0 := by
  rw [rippleSub_borrow h]
  split <;> rfl

/-- `val(s) - w * 2^(32n) = val(a) - val(b)` over the integers, with no borrow in (R123). -/
theorem rippleSub_val_int {a b : List Word} (h : a.length = b.length) :
    (val (rippleSub allOnes a b 0).1 : Int) - (rippleSub allOnes a b 0).2 * 2 ^ (32 * a.length) = val a - val b := by
  have hval : (val (rippleSub allOnes a b 0).1 : Int) + val b =
      val a + (rippleSub allOnes a b 0).2 * 2 ^ (32 * a.length) := by
    exact_mod_cast rippleSub_val a b 0 h (by omega)
  linarith

/-- The difference array holds the difference modulo `2^(32n)` (R126). -/
theorem val_rippleSub_eq_emod {a b : List Word} (h : a.length = b.length) :
    (val (rippleSub allOnes a b 0).1 : Int) = ((val a : Int) - (val b : Int)) % 2 ^ (32 * a.length) := by
  have hlt : (val (rippleSub allOnes a b 0).1 : Int) < 2 ^ (32 * a.length) := by
    have := val_lt (rippleSub allOnes a b 0).1
    rw [rippleSub_length _ _ _ _ h] at this
    exact_mod_cast this
  rw [← rippleSub_val_int h, Int.sub_mul_emod_self_right, Int.emod_eq_of_lt (by omega) hlt]

/-- The overflow limb is the quotient of the accumulated value by `2^(32n)` (R136). -/
theorem mulAddLoop_overflow_eq_div {l : Word} {a b : List Word} (h : a.length = b.length) :
    (mulAddLoop l a b 0).2 = (val a + val b * l.toNat) / 2 ^ (32 * a.length) := by
  have hlt := val_lt (mulAddLoop l a b 0).1
  rw [mulAddLoop_length _ _ _ _ h] at hlt
  rw [← Nat.add_zero (val a + val b * l.toNat), ← mulAddLoop_val l a b 0 h,
    Nat.add_mul_div_right _ _ (Nat.two_pow_pos _), Nat.div_eq_of_lt hlt, Nat.zero_add]

/-- The two running borrows of CMP, as `X[A]` reports them (R121, R122). -/
theorem compareWord_compareLoop {a b : List Word} (h : a.length = b.length) :
    compareWord (compareLoop a b 0 0) = if val a < val b then 0xFFFFFFFF else if val a = val b then 0 else 1 := by
  rw [compareLoop_spec a b 0 0 h (by omega) (by omega), Nat.add_zero, Nat.add_zero]
  rcases Nat.lt_trichotomy (val a) (val b) with hlt | heq | hgt
  · rw [if_pos hlt, if_neg (by omega), if_pos hlt]
    rfl
  · rw [if_neg (by omega), if_neg (by omega), if_neg (by omega), if_pos heq]
    rfl
  · rw [if_neg (by omega), if_pos hgt, if_neg (by omega), if_neg (by omega)]
    rfl

/-- Settles O57: the value law of each loop, its report read back from the register form. -/
theorem kernelFunctionsAgreeWithIntegers : Obligations.KernelFunctionsAgreeWithIntegers := by
  intro a b l h
  have hc := mulSubLoop_carry l a b 0 (by omega) (by omega)
  refine ⟨?_, ?_, schoolbook_val a b _ le_rfl, ?_, ?_⟩
  · rw [toNat_carryWord (rippleAdd_carry_le _ _ _ _ (by omega))]
    exact rippleAdd_val a b 0 h
  · rw [borrowOf_borrowWord (rippleSub_borrow_le _ _ _ _ (by omega))]
    exact_mod_cast rippleSub_val_int h
  · rw [toNat_overflowWord (mulAddLoop_carry_lt _ _ _ _ (by omega))]
    exact mulAddLoop_val l a b 0 h
  · rw [signedOverflowOf_signedOverflowWord hc.1 hc.2, neg_mul, ← sub_eq_add_neg, bigR]
    simpa using mulSubLoop_val l a b 0 h

/-! ## A kernel command on two slices of one length -/

/-- The command `i` takes the slices `b` and `c`, of one length, and needs no context: every kernel command on slices but MUL
(R68). -/
structure PairCommand (i : Instr) (s : State) (b c : SReg) : Prop where
  fields : sliceFields i = [b, c]
  context : needsContext i = false
  modulus : emptyModulus s i = false
  lengths : lengthsAgree s i = decide ((s.slice b).len = (s.slice c).len)

variable {i : Instr} {s effect : State} {a d : XReg} {b c q : SReg}

theorem pairCommand_cmp : PairCommand (.cmp a b c) s b c := ⟨rfl, rfl, rfl, rfl⟩
theorem pairCommand_add : PairCommand (.add a b c) s b c := ⟨rfl, rfl, rfl, rfl⟩
theorem pairCommand_sub : PairCommand (.sub a b c) s b c := ⟨rfl, rfl, rfl, rfl⟩
theorem pairCommand_maskadd : PairCommand (.maskadd a b c d) s b c := ⟨rfl, rfl, rfl, rfl⟩
theorem pairCommand_masksub : PairCommand (.masksub a b c d) s b c := ⟨rfl, rfl, rfl, rfl⟩
theorem pairCommand_muladd : PairCommand (.muladd a b c d) s b c := ⟨rfl, rfl, rfl, rfl⟩
theorem pairCommand_mulsub : PairCommand (.mulsub a b c d) s b c := ⟨rfl, rfl, rfl, rfl⟩

/-- The slices `b` and `c` are accepted by a command on two slices of one length. -/
abbrev State.acceptsPair (s : State) (b c : SReg) : Prop := s.accepts [b, c] ((s.slice b).len = (s.slice c).len)

theorem length_operands_eq (h : s.acceptsPair b c) : (s.operand b).length = (s.operand c).length := by
  simpa using h.2

theorem PairCommand.sliceErrors (hi : PairCommand i s b c) (hexec : exec i s = s.command (s.publicCheck i) effect) :
    SliceErrors i s [b, c] ((s.slice b).len = (s.slice c).len) :=
  sliceErrors_of_command hexec hi.fields (by simp [hi.context]) hi.modulus (by simp [hi.lengths])

theorem PairCommand.publicCheck_eq_none (hi : PairCommand i s b c) (h : s.acceptsPair b c) : s.publicCheck i = none :=
  publicCheck_of_accepts hi.fields (by simp [hi.context]) hi.modulus (by simp [hi.lengths]) h

/-- Past its checks and within its contract, a command with an output to a slice and one to a register leaves both values. -/
theorem PairCommand.exec_outputs {ok : Bool} {base len : Nat} {v : List Word} {w : Word} (hi : PairCommand i s b c)
    (hexec : exec i s = s.command (s.publicCheck i) ((s.outLM ok base len v).outX ok a w)) (h : s.acceptsPair b c)
    (hok : ok = true) : exec i s = .next ((s.writeLM base v).setX a w).succeed := by
  rw [hexec, hi.publicCheck_eq_none h, hok]
  rfl

/-! ## CMP (R122) -/

/-- Settles O32: the comparison loop's report is the register's value. -/
theorem cmpComparesUnsigned : Obligations.CmpComparesUnsigned := by
  intro a b c s
  refine ⟨pairCommand_cmp.sliceErrors rfl, fun h hs => ?_⟩
  have hok : s.inContract true = true := (inContract_eq_true_iff _ _).2 ⟨rfl, hs⟩
  rw [exec, execCmp, pairCommand_cmp.publicCheck_eq_none h, hok, compareWord_compareLoop (length_operands_eq h)]
  rfl

/-! ## ADD, SUB and their masked forms (R124 to R131) -/

/-- ADD and MASKADD within their contract: the sum and the carry of the ripple (R124, R128). -/
theorem PairCommand.exec_addMasked {k : Word} (hi : PairCommand i s b c)
    (hexec : exec i s = s.command (s.publicCheck i) (s.addMasked a (s.slice b) (s.slice c) k))
    (h : s.acceptsPair b c) (hs : s.undisturbed) (hu : s.unmixed b c) (hk : validMask k = true) :
    exec i s = .next ((s.writeLM (s.slice b).base (rippleAdd k (s.operand b) (s.operand c) 0).1).setX a
      (carryWord (rippleAdd k (s.operand b) (s.operand c) 0).2)).succeed :=
  hi.exec_outputs hexec h ((inContract_eq_true_iff _ _).2 ⟨by rw [hu, hk]; rfl, hs⟩)

/-- SUB and MASKSUB within their contract: the difference and the borrow of the ripple (R126, R130). -/
theorem PairCommand.exec_subMasked {k : Word} (hi : PairCommand i s b c)
    (hexec : exec i s = s.command (s.publicCheck i) (s.subMasked a (s.slice b) (s.slice c) k))
    (h : s.acceptsPair b c) (hs : s.undisturbed) (hu : s.unmixed b c) (hk : validMask k = true) :
    exec i s = .next ((s.writeLM (s.slice b).base (rippleSub k (s.operand b) (s.operand c) 0).1).setX a
      (borrowWord (rippleSub k (s.operand b) (s.operand c) 0).2)).succeed :=
  hi.exec_outputs hexec h ((inContract_eq_true_iff _ _).2 ⟨by rw [hu, hk]; rfl, hs⟩)

theorem exec_add (h : s.acceptsPair b c) (hs : s.undisturbed) (hu : s.unmixed b c) :
    exec (.add a b c) s =
      .next ((s.writeLM (s.slice b).base (rippleAdd allOnes (s.operand b) (s.operand c) 0).1).setX a
        (carryWord (rippleAdd allOnes (s.operand b) (s.operand c) 0).2)).succeed :=
  pairCommand_add.exec_addMasked rfl h hs hu rfl

theorem exec_sub (h : s.acceptsPair b c) (hs : s.undisturbed) (hu : s.unmixed b c) :
    exec (.sub a b c) s =
      .next ((s.writeLM (s.slice b).base (rippleSub allOnes (s.operand b) (s.operand c) 0).1).setX a
        (borrowWord (rippleSub allOnes (s.operand b) (s.operand c) 0).2)).succeed :=
  pairCommand_sub.exec_subMasked rfl h hs hu rfl

/-- Settles O33: the value law of the ripple, its carry 0 or 1. -/
theorem addSumsInPlaceAndReportsTheCarry : Obligations.AddSumsInPlaceAndReportsTheCarry := by
  intro a b c s
  refine ⟨pairCommand_add.sliceErrors rfl, fun h hs hu => ⟨_, _, ?_, ?_, ?_, exec_add h hs hu⟩⟩
  · rw [rippleAdd_length _ _ _ _ (length_operands_eq h), length_limbsAt]
  · exact rippleAdd_carry_le _ _ _ _ (by omega)
  · simpa using rippleAdd_val _ _ 0 (length_operands_eq h)

/-- Settles O34: the difference array is the difference modulo `2^(32n)`, its borrow the comparison of the operands. -/
theorem subDiffersInPlaceAndReportsTheBorrow : Obligations.SubDiffersInPlaceAndReportsTheBorrow := by
  intro a b c s
  refine ⟨pairCommand_sub.sliceErrors rfl, fun h hs hu =>
    ⟨(rippleSub allOnes (s.operand b) (s.operand c) 0).1, ?_, ?_, ?_⟩⟩
  · rw [rippleSub_length _ _ _ _ (length_operands_eq h), length_limbsAt]
  · simpa using val_rippleSub_eq_emod (length_operands_eq h)
  · rw [exec_sub h hs hu, borrowWord_rippleSub (length_operands_eq h)]

/-- Settles O35: the mask is the one ADD runs under, or the ripple adds nothing. -/
theorem maskaddAddsUnderItsMask : Obligations.MaskaddAddsUnderItsMask := by
  intro a b c d s
  refine ⟨pairCommand_maskadd.sliceErrors rfl, fun hones => ?_, fun h hs hu hzero => ?_⟩
  · change s.command _ (s.addMasked a _ _ (s.getX d)) = _
    rw [hones]
    rfl
  · rw [pairCommand_maskadd.exec_addMasked rfl h hs hu (by rw [hzero]; rfl), hzero,
      rippleAdd_zero_mask _ _ (length_operands_eq h)]
    rfl

/-- Settles O36: the mask is the one SUB runs under, or the ripple subtracts nothing. -/
theorem masksubSubtractsUnderItsMask : Obligations.MasksubSubtractsUnderItsMask := by
  intro a b c d s
  refine ⟨pairCommand_masksub.sliceErrors rfl, fun hones => ?_, fun h hs hu hzero => ?_⟩
  · change s.command _ (s.subMasked a _ _ (s.getX d)) = _
    rw [hones]
    rfl
  · rw [pairCommand_masksub.exec_subMasked rfl h hs hu (by rw [hzero]; rfl), hzero,
      rippleSub_zero_mask _ _ (length_operands_eq h)]
    rfl

/-! ## MUL, MULADD and MULSUB (R132 to R139) -/

/-- MUL within its contract: the array the rows leave on zero limbs (R132). -/
theorem exec_mul {a : SReg} (h : s.accepts [a, b, c] ((s.slice b).len + (s.slice c).len ≤ (s.slice a).len))
    (hs : s.undisturbed) (hb : s.apart a b) (hc : s.apart a c) :
    exec (.mul a b c) s = .next (s.writeLM (s.slice a).base
      (schoolbook (s.operand b) (s.operand c) (List.replicate (s.slice a).len 0))).succeed := by
  have hcheck : s.publicCheck (.mul a b c) = none :=
    publicCheck_of_accepts rfl (by simp [needsContext]) rfl (by simp [lengthsAgree]) h
  have hok : s.inContract ((s.slice a).disjoint (s.slice b) && (s.slice a).disjoint (s.slice c)) = true :=
    (inContract_eq_true_iff _ _).2 ⟨by rw [hb, hc]; rfl, hs⟩
  rw [exec, execMul, hcheck, hok]
  rfl

theorem exec_muladd (h : s.acceptsPair b c) (hs : s.undisturbed) (hu : s.unmixed b c) :
    exec (.muladd a b c d) s =
      .next ((s.writeLM (s.slice b).base (mulAddLoop (s.getX d) (s.operand b) (s.operand c) 0).1).setX a
        (overflowWord (mulAddLoop (s.getX d) (s.operand b) (s.operand c) 0).2)).succeed :=
  pairCommand_muladd.exec_outputs rfl h ((inContract_eq_true_iff _ _).2 ⟨hu, hs⟩)

theorem exec_mulsub (h : s.acceptsPair b c) (hs : s.undisturbed) (hu : s.unmixed b c) :
    exec (.mulsub a b c d) s =
      .next ((s.writeLM (s.slice b).base (mulSubLoop (s.getX d) (s.operand b) (s.operand c) 0).1).setX a
        (signedOverflowWord (mulSubLoop (s.getX d) (s.operand b) (s.operand c) 0).2)).succeed :=
  pairCommand_mulsub.exec_outputs rfl h ((inContract_eq_true_iff _ _).2 ⟨hu, hs⟩)

/-- Settles O37: the value law of the rows on zero limbs. -/
theorem mulIsTheExactProduct : Obligations.MulIsTheExactProduct := by
  intro a b c s
  refine ⟨sliceErrors_of_command (show execMul a b c s = _ from rfl) rfl (by simp [needsContext]) rfl
    (by simp [lengthsAgree]), fun h hs hb hc => ⟨_, ?_, ?_, exec_mul h hs hb hc⟩⟩
  · rw [schoolbook_length, List.length_replicate]
  · exact schoolbook_val _ _ _ (by simpa using h.2)

/-- Settles O38: the value law of the loop, its overflow one limb. -/
theorem muladdAccumulatesAndReportsTheOverflow : Obligations.MuladdAccumulatesAndReportsTheOverflow := by
  intro a b c d s
  refine ⟨pairCommand_muladd.sliceErrors rfl, fun h hs hu => ⟨_, _, ?_, ?_, ?_, exec_muladd h hs hu⟩⟩
  · rw [mulAddLoop_length _ _ _ _ (length_operands_eq h), length_limbsAt]
  · rw [toNat_overflowWord (mulAddLoop_carry_lt _ _ _ _ (by omega))]
    simpa using mulAddLoop_val (s.getX d) _ _ 0 (length_operands_eq h)
  · rw [toNat_overflowWord (mulAddLoop_carry_lt _ _ _ _ (by omega)), mulAddLoop_overflow_eq_div (length_operands_eq h),
      length_limbsAt]

/-- Settles O39: the value law of the loop, its overflow the negated magnitude. -/
theorem mulsubSubtractsAndReportsTheSignedOverflow : Obligations.MulsubSubtractsAndReportsTheSignedOverflow := by
  intro a b c d s
  refine ⟨pairCommand_mulsub.sliceErrors rfl, fun h hs hu => ?_⟩
  obtain ⟨h0, hlt⟩ := mulSubLoop_carry (s.getX d) (s.operand b) (s.operand c) 0 (by omega) (by omega)
  refine ⟨_, _, ?_, ?_, ?_, (signedOverflowOf_signedOverflowWord h0 hlt).symm, ?_, exec_mulsub h hs hu⟩
  · rw [mulSubLoop_length _ _ _ _ (length_operands_eq h), length_limbsAt]
  · omega
  · omega
  · rw [neg_mul, ← sub_eq_add_neg]
    simpa using mulSubLoop_val (s.getX d) _ _ 0 (length_operands_eq h)

/-! ## The results read back (R151) -/

/-- A slice that has just been written whole reads back as the array written. -/
theorem operandVal_of_writeLimbs {t : State} {v : List Word} (hsd : t.sd = s.sd)
    (hlm : t.lm = s.lm.writeLimbs (s.slice b).base v) (hv : v.length = (s.slice b).len) : t.operandVal b = val v := by
  rw [State.operandVal, State.limbsAt, State.slice, State.getSD_congr hsd b, hlm]
  exact congrArg val (Memory.readLimbs_writeLimbs_of_length hv)

theorem operandVal_succeed_writeLM {v : List Word} (hv : v.length = (s.slice b).len) :
    (s.writeLM (s.slice b).base v).succeed.operandVal b = val v :=
  operandVal_of_writeLimbs (s := s) rfl rfl hv

/-- After a command that has written a slice and a register, software reads back both. -/
theorem succeeds_readBack {v : List Word} {w : Word}
    (hexec : exec i s = .next ((s.writeLM (s.slice b).base v).setX a w).succeed) (hv : v.length = (s.slice b).len) :
    ∃ t, Succeeds i s t ∧ t.operandVal b = val v ∧ t.getX a = w := by
  refine ⟨_, ⟨hexec, rfl, rfl⟩, operandVal_of_writeLimbs (s := s) rfl rfl hv, ?_⟩
  exact (State.getX_setX (s.writeLM (s.slice b).base v) a a w).trans (if_pos rfl)

/-- Settles O58: what a command leaves is what its function computes, of which rule R151 holds. -/
theorem kernelResultsReadBackAsIntegers : Obligations.KernelResultsReadBackAsIntegers := by
  intro a b c q d s h hs
  have hlen := length_operands_eq h
  obtain ⟨hadd, hsub, -, hmuladd, hmulsub⟩ := kernelFunctionsAgreeWithIntegers (s.operand b) (s.operand c) (s.getX d) hlen
  rw [length_limbsAt] at hadd hsub hmuladd hmulsub
  refine ⟨fun hu => ⟨?_, ?_, ?_, ?_⟩, fun hq hfit hb hc => ?_⟩
  · obtain ⟨t, ht, hval, hx⟩ := succeeds_readBack (exec_add (a := a) h hs hu)
      (by rw [rippleAdd_length _ _ _ _ hlen, length_limbsAt])
    exact ⟨t, ht, by rw [hval, hx, hadd]⟩
  · obtain ⟨t, ht, hval, hx⟩ := succeeds_readBack (exec_sub (a := a) h hs hu)
      (by rw [rippleSub_length _ _ _ _ hlen, length_limbsAt])
    exact ⟨t, ht, by rw [hval, hx, hsub]⟩
  · obtain ⟨t, ht, hval, hx⟩ := succeeds_readBack (exec_muladd (a := a) (d := d) h hs hu)
      (by rw [mulAddLoop_length _ _ _ _ hlen, length_limbsAt])
    exact ⟨t, ht, by rw [hval, hx, hmuladd]⟩
  · obtain ⟨t, ht, hval, hx⟩ := succeeds_readBack (exec_mulsub (a := a) (d := d) h hs hu)
      (by rw [mulSubLoop_length _ _ _ _ hlen, length_limbsAt])
    exact ⟨t, ht, by rw [hval, hx, hmulsub]⟩
  · have hacc : s.accepts [q, b, c] ((s.slice b).len + (s.slice c).len ≤ (s.slice q).len) :=
      ⟨List.forall_mem_cons.2 ⟨hq, h.1⟩, hfit⟩
    refine ⟨_, ⟨exec_mul hacc hs hb hc, rfl, rfl⟩, ?_⟩
    rw [operandVal_succeed_writeLM (by rw [schoolbook_length, List.length_replicate])]
    exact schoolbook_val _ _ _ (by simpa using hfit)

/-! ## INV (R142, R143) -/

/-- The reciprocal of a normalized limb is not 0: `2^32 + 1` times the largest limb is `2^64 - 1` (R143). -/
theorem one_le_invert {e : Word} (h : normLimb e = true) : 1 ≤ (invert e).toNat := by
  have hspec := invert_spec h
  have hlow := (normLimb_iff e).1 h
  have he := e.isLt
  have hdiv : 2 ^ 32 + 1 ≤ (2 ^ 64 - 1) / e.toNat := (Nat.le_div_iff_mul_le (by omega)).2 (by omega)
  omega

/-- Settles O40: INV writes `invert`, which is rule R143's reciprocal. -/
theorem invIsTheReciprocal : Obligations.InvIsTheReciprocal := by
  intro a b s hs htop
  have hnorm : normLimb (s.getX b) = true := (normLimb_iff _).2 htop
  have hcheck : s.publicCheck (.inv a b) = none :=
    (publicCheck_eq_none_iff _ _).2 (by simp [needsContext, emptyModulus, sliceFields, lengthsAgree])
  have hok : s.inContract (normLimb (s.getX b)) = true := (inContract_eq_true_iff _ _).2 ⟨hnorm, hs⟩
  refine ⟨invert (s.getX b), invert_spec hnorm, one_le_invert hnorm, ?_⟩
  rw [exec, execInv, hcheck, hok]
  rfl

/-! ## The corrected estimate (R146) -/

/-- `qr` is a quotient and a remainder of `n` by `m`, the remainder not negative and below `k` times the divisor. -/
structure QuotientWithin (n m k : Nat) (qr : Nat × Int) : Prop where
  value : (qr.1 : Int) * m + qr.2 = n
  nonneg : 0 ≤ qr.2
  lt : qr.2 < k * m

/-- A correction round brings the remainder one divisor further down (R146). -/
theorem QuotientWithin.round {n m k : Nat} {qr : Nat × Int} (h : QuotientWithin n m (k + 2) qr) :
    QuotientWithin n m (k + 1) (divCorrect m qr) := by
  obtain ⟨hvalue, hnonneg, hlt⟩ := h
  push_cast at hlt
  by_cases hr : qr.2 - (m : Int) ≥ 0
  · rw [divCorrect, if_pos hr]
    constructor
    · push_cast
      linarith
    · exact hr
    · push_cast
      linarith
  · rw [divCorrect, if_neg hr]
    refine ⟨hvalue, hnonneg, ?_⟩
    have : (0 : Int) ≤ k * m := by positivity
    push_cast
    linarith

/-- With the remainder below the divisor, the two are the quotient and the remainder. -/
theorem QuotientWithin.eq_div_mod {n m : Nat} {qr : Nat × Int} (h : QuotientWithin n m 1 qr) :
    qr = (n / m, ((n % m : Nat) : Int)) := by
  obtain ⟨hvalue, hnonneg, hlt⟩ := h
  obtain ⟨q, r⟩ := qr
  obtain ⟨r, rfl⟩ := Int.eq_ofNat_of_zero_le hnonneg
  have hn : r + m * q = n := by
    zify
    linarith
  obtain ⟨hq, hr⟩ := (Nat.div_mod_unique (by omega : 0 < m)).2 ⟨hn, by omega⟩
  rw [hq, hr]

/-- Rule R146's estimate is the quotient or up to three below it: with `v = dinv + 2^32` the product `v * d` falls short of
`2^64` by at most `d`, so `n1 * v div 2^32` is not too large, and it loses less than four divisors of the numerator. -/
theorem quotientWithin_estimate {n1 n0 e dinv : Word} (htop : 2 ^ 31 ≤ e.toNat)
    (hinv : dinv.toNat + 2 ^ 32 = (2 ^ 64 - 1) / e.toNat) (hlt : n1.toNat < e.toNat) :
    QuotientWithin (n1.toNat * 2 ^ 32 + n0.toNat) e.toNat 4
      (n1.toNat + n1.toNat * dinv.toNat / 2 ^ 32,
        ((n1.toNat * 2 ^ 32 + n0.toNat : Nat) : Int) -
          ((n1.toNat + n1.toNat * dinv.toNat / 2 ^ 32 : Nat) : Int) * (e.toNat : Int)) := by
  have hn0 := n0.isLt
  have he := e.isLt
  have hupper : (dinv.toNat + 2 ^ 32) * e.toNat ≤ 2 ^ 64 - 1 := hinv ▸ Nat.div_mul_le_self _ _
  have hlower : 2 ^ 64 - 1 < (dinv.toNat + 2 ^ 32 + 1) * e.toNat := by
    rw [hinv, Nat.mul_comm]
    exact Nat.lt_mul_div_succ _ (by omega)
  generalize hq : n1.toNat + n1.toNat * dinv.toNat / 2 ^ 32 = q
  have hfloor : 2 ^ 32 * q ≤ n1.toNat * (dinv.toNat + 2 ^ 32) ∧
      n1.toNat * (dinv.toNat + 2 ^ 32) < 2 ^ 32 * q + 2 ^ 32 := by
    rw [Nat.mul_add]
    omega
  generalize dinv.toNat + 2 ^ 32 = v at *
  have hle : 2 ^ 32 * (q * e.toNat) ≤ 2 ^ 32 * (n1.toNat * 2 ^ 32) :=
    calc 2 ^ 32 * (q * e.toNat) = 2 ^ 32 * q * e.toNat := by ring
      _ ≤ n1.toNat * v * e.toNat := Nat.mul_le_mul_right _ hfloor.1
      _ = n1.toNat * (v * e.toNat) := by ring
      _ ≤ n1.toNat * 2 ^ 64 := Nat.mul_le_mul_left _ (by omega)
      _ = 2 ^ 32 * (n1.toNat * 2 ^ 32) := by ring
  have hge : 2 ^ 32 * (n1.toNat * 2 ^ 32) ≤ 2 ^ 32 * (q * e.toNat + 2 * e.toNat) :=
    calc 2 ^ 32 * (n1.toNat * 2 ^ 32) = n1.toNat * 2 ^ 64 := by ring
      _ ≤ n1.toNat * ((v + 1) * e.toNat) := Nat.mul_le_mul_left _ (by omega)
      _ = (n1.toNat * v + n1.toNat) * e.toNat := by ring
      _ ≤ (2 ^ 32 * q + 2 ^ 32 + 2 ^ 32) * e.toNat := Nat.mul_le_mul_right _ (by omega)
      _ = 2 ^ 32 * (q * e.toNat + 2 * e.toNat) := by ring
  zify at hle hge
  refine ⟨by ring, ?_, ?_⟩
  · push_cast
    omega
  · push_cast
    omega

/-- Settles O53: three rounds bring the estimate's remainder from below four divisors to below one. -/
theorem correctedEstimateIsTheQuotient : Obligations.CorrectedEstimateIsTheQuotient :=
  fun _ _ _ _ htop hinv hlt => (quotientWithin_estimate htop hinv hlt).round.round.round.eq_div_mod

end Sys2Proof.Machine

/-! PROOFS. The Multi-limb Reduction (rules R160 to R166): what REDUCE leaves in its dividend slice. -/

namespace Sys2Proof.Machine

variable {s : State} {a b : SReg}

/-- A remainder by a nonzero limb array fits the length of that array (R161). -/
theorem val_limbs_mod_val {n : Nat} {ds : List Word} (v : Nat) (hlen : ds.length = n) (hpos : 0 < val ds) :
    val (limbs n (v % val ds)) = v % val ds :=
  val_limbs_of_lt ((Nat.mod_lt v hpos).trans (hlen ▸ val_lt ds))

/-- REDUCE within its contract: the limbs of the remainder, then zero limbs, over the whole dividend slice (R161, R164). -/
theorem exec_reduce (h : s.accepts [a, b] ((s.slice b).len < (s.slice a).len)) (hs : s.undisturbed) (hab : s.apart a b)
    (hnorm : normalized (s.operand b) = true) (hodd : isOdd (s.operand b) = true) :
    exec (.reduce a b) s = .next (s.writeLM (s.slice a).base
      (limbs (s.slice b).len (s.operandVal a % s.operandVal b) ++
        List.replicate ((s.slice a).len - (s.slice b).len) 0)).succeed := by
  have hcheck : s.publicCheck (.reduce a b) = none :=
    publicCheck_of_accepts rfl (by simp [needsContext]) rfl (by simp [lengthsAgree]) h
  have hok : s.inContract
      (normalized (s.operand b) && isOdd (s.operand b) && (s.slice a).disjoint (s.slice b)) = true :=
    (inContract_eq_true_iff _ _).2 ⟨by rw [hnorm, hodd, hab]; rfl, hs⟩
  rw [exec, execReduce, hcheck, hok]
  rfl

/-- Settles O42: an odd divisor is not zero, so the remainder fits the divisor's length. -/
theorem reduceLeavesTheRemainder : Obligations.ReduceLeavesTheRemainder := by
  intro a b s
  refine ⟨sliceErrors_of_command (show execReduce a b s = _ from rfl) rfl (by simp [needsContext]) rfl
    (by simp [lengthsAgree]), fun h hs hab hnorm hodd => ⟨_, length_limbs _ _, ?_, exec_reduce h hs hab hnorm hodd⟩⟩
  have hpos : 0 < s.operandVal b := Nat.pos_of_ne_zero fun h0 => by simp [isOdd_iff, h0] at hodd
  exact val_limbs_mod_val _ (length_limbsAt s _) hpos

end Sys2Proof.Machine

/-! PROOFS. Montgomery reduction word by word: the references of rules R181 and R185 give the residues of rules R180 and
R184. -/

namespace Sys2Proof.Machine

/-! ## The residue (R180) -/

/-- Rule R180's residue is the only one: `R` has an inverse modulo an odd modulus. -/
theorem mod_eq_redc {k m r t : Nat} (hm : m % 2 = 1) (h : r * bigR k ≡ t [MOD m]) : r % m = redc k m t := by
  change r ≡ t * bigRinv k m [MOD m]
  calc r = r * 1 := by simp
    _ ≡ r * (bigR k * bigRinv k m) [MOD m] := (bigR_mul_bigRinv k m hm).symm.mul_left _
    _ = r * bigR k * bigRinv k m := by ring
    _ ≡ t * bigRinv k m [MOD m] := h.mul_right _

theorem odd_of_validMod {m : List Word} (h : validMod m = true) : val m % 2 = 1 := by
  simp only [validMod, Bool.and_eq_true] at h
  exact (isOdd_iff m).1 h.1.2

/-! ## One round -/

/-- `ninv` is the negative inverse of the low limb of `m` modulo `2^32` (R173). -/
abbrev NegInverse (m : List Word) (ninv : Word) : Prop := (m.headD 0).toNat * ninv.toNat % 2 ^ 32 = 0xFFFFFFFF

variable {m v : List Word} {ninv : Word}

/-- A modulus with a negative inverse is not empty. -/
theorem NegInverse.length_pos (hn : NegInverse m ninv) : 0 < m.length := by
  cases m with
  | nil => simp [NegInverse] at hn
  | cons => simp

/-- `R` is one limb times the place of the top limb. -/
theorem NegInverse.pow_length_eq (hn : NegInverse m ninv) :
    2 ^ (32 * m.length) = 2 ^ 32 * 2 ^ (32 * (m.length - 1)) := by
  have hpos := hn.length_pos
  rw [← Nat.pow_add]
  congr 1
  omega

/-- Adding `(v[0] * NINV mod 2^32) * m` clears the low limb (R181). -/
theorem low_limb_cleared {v0 m0 : Word} (hn : m0.toNat * ninv.toNat % 2 ^ 32 = 0xFFFFFFFF) :
    (v0.toNat + m0.toNat * (v0 * ninv).toNat) % 2 ^ 32 = 0 := by
  have hn' : m0.toNat * ninv.toNat ≡ 0xFFFFFFFF [MOD 2 ^ 32] := hn
  have hmul : (v0 * ninv).toNat ≡ v0.toNat * ninv.toNat [MOD 2 ^ 32] := by
    rw [BitVec.toNat_mul]
    exact Nat.mod_modEq _ _
  have hzero : v0.toNat + m0.toNat * (v0 * ninv).toNat ≡ 0 [MOD 2 ^ 32] :=
    calc v0.toNat + m0.toNat * (v0 * ninv).toNat
        ≡ v0.toNat + m0.toNat * (v0.toNat * ninv.toNat) [MOD 2 ^ 32] := (hmul.mul_left _).add_left _
      _ = v0.toNat + v0.toNat * (m0.toNat * ninv.toNat) := by ring
      _ ≡ v0.toNat + v0.toNat * 0xFFFFFFFF [MOD 2 ^ 32] := (hn'.mul_left _).add_left _
      _ = 2 ^ 32 * v0.toNat := by ring
      _ ≡ 0 [MOD 2 ^ 32] := Nat.modEq_zero_iff_dvd.2 (dvd_mul_right _ _)
  exact hzero

/-- One round of the reduction: a multiple of the modulus is added that clears the low limb, and the rest moves down by one
limb (R181, R185). -/
theorem mulAddLoop_clears_low (hl : v.length = m.length) (hn : NegInverse m ninv) :
    2 ^ 32 * val (mulAddLoop (v.headD 0 * ninv) v m 0).1.tail +
        (mulAddLoop (v.headD 0 * ninv) v m 0).2 * 2 ^ (32 * m.length) =
      val v + val m * (v.headD 0 * ninv).toNat := by
  have hval := mulAddLoop_val (v.headD 0 * ninv) v m 0 hl
  cases m with
  | nil => simp [NegInverse] at hn
  | cons m0 ms =>
    cases v with
    | nil => simp at hl
    | cons v0 vs =>
      have hlow : (BitVec.ofNat 32 (v0.toNat + m0.toNat * (v0 * ninv).toNat + 0)).toNat = 0 :=
        (BitVec.toNat_ofNat _ _).trans (low_limb_cleared hn)
      rw [Nat.add_zero] at hval
      rw [← hl, ← hval]
      simp only [List.headD_cons, mulAddLoop, List.tail_cons, val, hlow, Nat.zero_add]

/-! ## The choice by mask -/

/-- Under a mask of rule R11 the choice is one of the two words. -/
theorem bsel_maskOf (c : Bool) (d t : Word) : bsel (maskOf c) d t = if c then d else t := by
  cases c with
  | true =>
    have hnot : ~~~allOnes = 0#32 := rfl
    simp [maskOf, bsel, hnot]
  | false =>
    change d &&& 0 ||| t &&& allOnes = t
    simp

/-- The choice by mask takes one of the two arrays whole (R11). -/
theorem zipWith_bsel_maskOf {d t : List Word} (h : d.length = t.length) (c : Bool) :
    List.zipWith (fun d t => bsel (maskOf c) d t) d t = if c then d else t := by
  simp only [bsel_maskOf]
  cases c with
  | true => exact List.ext_getElem (by simp [h]) fun i _ _ => by simp
  | false => exact List.ext_getElem (by simp [h]) fun i _ _ => by simp

/-- The difference is chosen when the sum has a carry or the difference no borrow (R181). -/
theorem finalSelect_eq {t : List Word} (c : Nat) (hl : t.length = m.length) :
    finalSelect m t c = if c = 1 ∨ val m ≤ val t then (rippleSub allOnes t m 0).1 else t := by
  have hborrow : (rippleSub allOnes t m 0).2 = 0 ↔ val m ≤ val t := by
    rw [rippleSub_borrow hl]
    split <;> omega
  rw [finalSelect, zipWith_bsel_maskOf (rippleSub_length _ _ _ _ hl)]
  simp [hborrow]

/-- The one masked subtraction reduces a sum below twice the modulus (R181, R182). -/
theorem finalSelect_spec {t : List Word} {c : Nat} (hl : t.length = m.length)
    (hlt : val t + c * 2 ^ (32 * m.length) < 2 * val m) :
    (finalSelect m t c).length = m.length ∧ val (finalSelect m t c) = (val t + c * 2 ^ (32 * m.length)) % val m := by
  have hm := val_lt m
  have hsub := rippleSub_val t m 0 hl (by omega)
  rw [rippleSub_borrow hl, hl] at hsub
  have hc : c = 0 ∨ c = 1 := by
    have hc : c * 2 ^ (32 * m.length) < 2 * 2 ^ (32 * m.length) := by omega
    have := Nat.lt_of_mul_lt_mul_right hc
    omega
  rw [finalSelect_eq c hl]
  by_cases hge : c = 1 ∨ val m ≤ val t
  · rw [if_pos hge]
    refine ⟨(rippleSub_length _ _ _ _ hl).trans hl, ?_⟩
    have hdiff : val (rippleSub allOnes t m 0).1 + val m = val t + c * 2 ^ (32 * m.length) := by
      rcases hc with rfl | rfl
      · rw [if_neg (by omega)] at hsub
        exact hsub
      · rw [if_pos (by omega)] at hsub
        exact hsub
    rw [← hdiff, Nat.add_mod_right, Nat.mod_eq_of_lt (by omega)]
  · rw [if_neg hge]
    obtain rfl : c = 0 := by omega
    exact ⟨hl, by rw [Nat.zero_mul, Nat.add_zero, Nat.mod_eq_of_lt (by omega)]⟩

/-! ## Rule R181 -/

/-- The limbs a round leaves, of the lowest limbs `x` and the limbs `w` above them: the sum without its low limb. -/
theorem redcRound_val {x : List Word} (w : List Word) (hx : x.length = m.length) (hn : NegInverse m ninv) :
    val (x ++ w) + (x.headD 0 * ninv).toNat * val m =
      2 ^ 32 * val ((mulAddLoop (x.headD 0 * ninv) x m 0).1 ++ w).tail +
        2 ^ (32 * m.length) * (mulAddLoop (x.headD 0 * ninv) x m 0).2 := by
  have hclear := mulAddLoop_clears_low hx hn
  have hlen := (mulAddLoop_length (x.headD 0 * ninv) x m 0 hx).trans hx
  have hpos := hn.length_pos
  have hpow := hn.pow_length_eq
  rw [List.tail_append_of_ne_nil (List.ne_nil_of_length_pos (by omega)), val_append, val_append, List.length_tail, hlen, hx]
  linear_combination hpow * val w - hclear

/-- One round of rule R181 and the rounds after it. -/
theorem redcRounds_succ {x : List Word} (w : List Word) (n : Nat) (hx : x.length = m.length) (hpos : 0 < m.length) :
    redcRounds m ninv (n + 1) (x ++ w) =
      let r := mulAddLoop (x.headD 0 * ninv) x m 0
      let rest := redcRounds m ninv n (r.1 ++ w).tail
      (rest.1, BitVec.ofNat 32 r.2 :: rest.2) := by
  have hhead : (x ++ w).headD 0 = x.headD 0 := by
    cases x with
    | nil => simp at hx; omega
    | cons => rfl
  rw [redcRounds, hhead, List.take_left' hx, List.drop_left' hx]

/-- The rounds on the limbs `v`: with `q * m` added for some `q` of `n` limbs, the low `n` limbs of the sum are zero, and the
limbs above them are the array left and the overflow limbs. -/
theorem redcRounds_spec (hn : NegInverse m ninv) (n : Nat) (hl : v.length = n + m.length) :
    (redcRounds m ninv n v).1.length = m.length ∧ (redcRounds m ninv n v).2.length = n ∧
      ∃ q < 2 ^ (32 * n), val v + q * val m =
        2 ^ (32 * n) * val (redcRounds m ninv n v).1 + 2 ^ (32 * m.length) * val (redcRounds m ninv n v).2 := by
  induction n generalizing v with
  | zero => exact ⟨by simpa [redcRounds] using hl, rfl, 0, by simp, by simp [redcRounds, val]⟩
  | succ n ih =>
    obtain ⟨x, w, rfl, hx⟩ : ∃ x w, v = x ++ w ∧ x.length = m.length :=
      ⟨v.take m.length, v.drop m.length, (List.take_append_drop _ _).symm, by simp; omega⟩
    have hround := redcRound_val w hx hn
    have hlen := (mulAddLoop_length (x.headD 0 * ninv) x m 0 hx).trans hx
    have hcarry := mulAddLoop_carry_lt (x.headD 0 * ninv) x m 0 (by omega)
    have hmu := (x.headD 0 * ninv).isLt
    rw [redcRounds_succ w n hx (hn.length_pos)]
    rw [List.length_append] at hl
    generalize (x.headD 0 * ninv).toNat = mu at *
    generalize mulAddLoop (x.headD 0 * ninv) x m 0 = r at *
    obtain ⟨hhi, hovf, q, hq, hval⟩ := ih (v := (r.1 ++ w).tail) (by simp; omega)
    refine ⟨hhi, by simp [hovf], mu + 2 ^ 32 * q, ?_, ?_⟩
    · rw [Nat.mul_succ, Nat.add_comm (32 * n), Nat.pow_add]
      omega
    · rw [Nat.mul_succ, Nat.add_comm (32 * n), Nat.pow_add, val, BitVec.toNat_ofNat, Nat.mod_eq_of_lt hcarry]
      linear_combination hround + 2 ^ 32 * hval

/-- Settles O54: the rounds leave `(v + q * m) / R` with `q < R`, below `2 * m`, so one subtraction reduces it. -/
theorem wordwiseReductionIsRedc : Obligations.WordwiseReductionIsRedc := by
  intro m v ninv hm hl hn hv
  obtain ⟨hhi, hovf, q, hq, hval⟩ := redcRounds_spec hn m.length (v := v) (by omega)
  have hlen : (redcRounds m ninv m.length v).1.length = (redcRounds m ninv m.length v).2.length := hhi.trans hovf.symm
  have hadd := rippleAdd_val _ _ 0 hlen
  have hsumlen := (rippleAdd_length allOnes _ _ 0 hlen).trans hhi
  rw [redcReference]
  generalize redcRounds m ninv m.length v = r at *
  generalize rippleAdd allOnes r.1 r.2 0 = sum at *
  rw [hhi] at hadd
  have hred : (val sum.1 + sum.2 * 2 ^ (32 * m.length)) * bigR m.length = val v + q * val m := by
    rw [bigR]
    linear_combination 2 ^ (32 * m.length) * hadd - hval
  have hlt : val sum.1 + sum.2 * 2 ^ (32 * m.length) < 2 * val m := by
    have hqm : q * val m ≤ bigR m.length * val m := Nat.mul_le_mul_right _ hq.le
    refine Nat.lt_of_mul_lt_mul_right (a := bigR m.length) ?_
    rw [hred]
    linarith
  obtain ⟨hlength, hselect⟩ := finalSelect_spec hsumlen hlt
  refine ⟨hlength, ?_⟩
  rw [hselect]
  refine mod_eq_redc (odd_of_validMod hm) ?_
  rw [hred]
  exact Nat.add_mul_mod_self_right _ _ _

/-! ## Rule R185 -/

/-- The integer an accumulator of rule R185 stands for: `k` limbs and the value of the limb above them. -/
def accVal (k : Nat) (acc : List Word × Nat) : Nat := val acc.1 + acc.2 * 2 ^ (32 * k)

/-- One round adds `a * bi` and a multiple of the modulus, and moves the sum, its low limb zero, down by one limb. -/
theorem fusedRound_val {a : List Word} {acc : List Word × Nat} (bi : Word) (ha : a.length = m.length)
    (hacc : acc.1.length = m.length) (hn : NegInverse m ninv) :
    (fusedRound a m ninv bi acc).1.length = m.length ∧ ∃ q < 2 ^ 32,
      2 ^ 32 * accVal m.length (fusedRound a m ninv bi acc) = accVal m.length acc + val a * bi.toNat + q * val m := by
  have hp := mulAddLoop_val bi acc.1 a 0 (hacc.trans ha.symm)
  have hplen := (mulAddLoop_length bi acc.1 a 0 (hacc.trans ha.symm)).trans hacc
  rw [fusedRound]
  generalize mulAddLoop bi acc.1 a 0 = p at *
  have hq := mulAddLoop_clears_low hplen hn
  have hqlen := (mulAddLoop_length (p.1.headD 0 * ninv) p.1 m 0 hplen).trans hplen
  have hmu := (p.1.headD 0 * ninv).isLt
  have hpos := hn.length_pos
  generalize (p.1.headD 0 * ninv).toNat = mu at *
  generalize mulAddLoop (p.1.headD 0 * ninv) p.1 m 0 = q at *
  have htail : q.1.tail.length = m.length - 1 := by rw [List.length_tail, hqlen]
  refine ⟨by simp; omega, mu, hmu, ?_⟩
  have hpow := hn.pow_length_eq
  have hx := Nat.mod_add_div (acc.2 + p.2) (2 ^ 32)
  have hy := Nat.mod_add_div ((acc.2 + p.2) % 2 ^ 32 + q.2) (2 ^ 32)
  rw [hacc] at hp
  simp only [accVal, val_append, htail, val, BitVec.toNat_ofNat, Nat.mul_zero, Nat.add_zero]
  generalize (acc.2 + p.2) % 2 ^ 32 = x0 at *
  generalize (acc.2 + p.2) / 2 ^ 32 = x1 at *
  generalize (x0 + q.2) % 2 ^ 32 = y0 at *
  generalize (x0 + q.2) / 2 ^ 32 = y1 at *
  linear_combination hq + hp - hpow * y0 + 2 ^ (32 * m.length) * hx + 2 ^ (32 * m.length) * hy

/-- A round keeps the accumulator below twice the modulus (R185). -/
theorem fusedRound_lt {a : List Word} {acc : List Word × Nat} (bi : Word) (ha : a.length = m.length)
    (hacc : acc.1.length = m.length) (hn : NegInverse m ninv) (ham : val a < val m)
    (hlt : accVal m.length acc < 2 * val m) : accVal m.length (fusedRound a m ninv bi acc) < 2 * val m := by
  obtain ⟨-, q, hq, hval⟩ := fusedRound_val bi ha hacc hn
  have hbi : val a * bi.toNat ≤ val m * (2 ^ 32 - 1) := Nat.mul_le_mul ham.le (by have := bi.isLt; omega)
  have hqm : q * val m ≤ (2 ^ 32 - 1) * val m := Nat.mul_le_mul_right _ (by omega)
  omega

/-- The outer rounds of rule R185 over the multiplier limbs `b`, from the accumulator `acc` on. -/
def fusedRounds (m : List Word) (ninv : Word) (a b : List Word) (acc : List Word × Nat) : List Word × Nat :=
  b.foldl (fun acc bi => fusedRound a m ninv bi acc) acc

theorem fusedRounds_cons (m : List Word) (ninv : Word) (a b : List Word) (bi : Word) (acc : List Word × Nat) :
    fusedRounds m ninv a (bi :: b) acc = fusedRounds m ninv a b (fusedRound a m ninv bi acc) := rfl

theorem fusedReference_eq (m : List Word) (ninv : Word) (a b : List Word) :
    fusedReference m ninv a b = finalSelect m (fusedRounds m ninv a b (List.replicate m.length 0, 0)).1
      (fusedRounds m ninv a b (List.replicate m.length 0, 0)).2 := rfl

/-- The rounds over the multiplier limbs `b`: the accumulator times `2^(32 n)` is congruent to what it was, plus `a * b`. -/
theorem fusedRounds_spec {a : List Word} (ha : a.length = m.length) (hn : NegInverse m ninv) (ham : val a < val m)
    (b : List Word) {acc : List Word × Nat} (hacc : acc.1.length = m.length) (hlt : accVal m.length acc < 2 * val m) :
    (fusedRounds m ninv a b acc).1.length = m.length ∧
      accVal m.length (fusedRounds m ninv a b acc) < 2 * val m ∧
      accVal m.length (fusedRounds m ninv a b acc) * 2 ^ (32 * b.length) ≡
        accVal m.length acc + val a * val b [MOD val m] := by
  induction b generalizing acc with
  | nil => exact ⟨hacc, hlt, by simp [fusedRounds, val, Nat.ModEq]⟩
  | cons bi b ih =>
    obtain ⟨hlen, q, -, hval⟩ := fusedRound_val bi ha hacc hn
    obtain ⟨hlen', hlt', hmod⟩ := ih hlen (fusedRound_lt bi ha hacc hn ham hlt)
    refine ⟨hlen', hlt', ?_⟩
    rw [fusedRounds_cons]
    generalize fusedRounds m ninv a b (fusedRound a m ninv bi acc) = last at *
    calc accVal m.length last * 2 ^ (32 * (bi :: b).length)
        = 2 ^ 32 * (accVal m.length last * 2 ^ (32 * b.length)) := by
          rw [List.length_cons, Nat.mul_succ, Nat.pow_add]
          ring
      _ ≡ 2 ^ 32 * (accVal m.length (fusedRound a m ninv bi acc) + val a * val b) [MOD val m] := hmod.mul_left _
      _ = accVal m.length acc + val a * val (bi :: b) + q * val m := by
          rw [val]
          linear_combination hval
      _ ≡ accVal m.length acc + val a * val (bi :: b) [MOD val m] := Nat.add_mul_mod_self_right _ _ _

/-- Settles O55: the pass leaves a value below `2 * m` that times `R` is `a * b` modulo `m`, and one subtraction reduces
it. -/
theorem fusedMultiplyReduceIsMontgomeryProduct : Obligations.FusedMultiplyReduceIsMontgomeryProduct := by
  intro m a b ninv hm ha hb hn ham _
  have hzero : accVal m.length (List.replicate m.length 0, 0) = 0 := by simp [accVal]
  obtain ⟨hlen, hlt, hmod⟩ := fusedRounds_spec ha hn ham b (acc := (List.replicate m.length 0, 0)) (by simp) (by omega)
  obtain ⟨hlength, hselect⟩ := finalSelect_spec hlen hlt
  rw [fusedReference_eq]
  refine ⟨hlength, hselect.trans (mod_eq_redc (odd_of_validMod hm) ?_)⟩
  rw [hzero, Nat.zero_add, hb] at hmod
  exact hmod

end Sys2Proof.Machine

/-! PROOFS. The commands of the Montgomery Modulus Context (rules R170 to R205) and POWMOD (rules R210 to R218): their checks,
said once for all of them, and the values they write within their contracts. -/

namespace Sys2Proof.Machine

/-! ## A context command -/

/-- The command `i` needs the context and takes the slices `rs` under the length condition `lengths` (R68): every context
command but CTXINIT. -/
structure ContextCommand (i : Instr) (s : State) (rs : List SReg) (lengths : Prop) : Prop where
  fields : sliceFields i = rs
  context : needsContext i = true
  modulus : emptyModulus s i = false
  lengths : lengthsAgree s i = true ↔ lengths

section

variable (s : State) (a b c : SReg)

theorem contextCommand_mtrans :
    ContextCommand (.mtrans a b) s [a, b] ((s.slice a).len = s.ctx.k ∧ (s.slice b).len = s.ctx.k) :=
  ⟨rfl, rfl, rfl, by simp [lengthsAgree]⟩

theorem contextCommand_mredc : ContextCommand (.mredc a) s [a] ((s.slice a).len = 2 * s.ctx.k) :=
  ⟨rfl, rfl, rfl, by simp [lengthsAgree]⟩

theorem contextCommand_mulred :
    ContextCommand (.mulred a b c) s [a, b, c]
      ((s.slice a).len = s.ctx.k ∧ (s.slice b).len = s.ctx.k ∧ (s.slice c).len = s.ctx.k) :=
  ⟨rfl, rfl, rfl, by simp [lengthsAgree, and_assoc]⟩

theorem contextCommand_sqrred :
    ContextCommand (.sqrred a b) s [a, b] ((s.slice a).len = s.ctx.k ∧ (s.slice b).len = s.ctx.k) :=
  ⟨rfl, rfl, rfl, by simp [lengthsAgree]⟩

theorem contextCommand_mident : ContextCommand (.mident a) s [a] ((s.slice a).len = s.ctx.k) :=
  ⟨rfl, rfl, rfl, by simp [lengthsAgree]⟩

theorem contextCommand_mpowers :
    ContextCommand (.mpowers a b) s [a, b]
      ((s.slice b).len = s.ctx.k ∧ s.ctx.k ≤ (s.slice a).len ∧ (s.slice a).len % s.ctx.k = 0) :=
  ⟨rfl, rfl, rfl, by simp [lengthsAgree, and_assoc]⟩

theorem contextCommand_select (x : XReg) :
    ContextCommand (.select a b x) s [a, b]
      ((s.slice a).len = s.ctx.k ∧ s.ctx.k ≤ (s.slice b).len ∧ (s.slice b).len % s.ctx.k = 0) :=
  ⟨rfl, rfl, rfl, by simp [lengthsAgree, and_assoc]⟩

theorem contextCommand_powmod :
    ContextCommand (.powmod a b c) s [a, b, c] ((s.slice a).len = s.ctx.k ∧ (s.slice b).len = s.ctx.k) :=
  ⟨rfl, rfl, rfl, by simp [lengthsAgree]⟩

end

variable {i : Instr} {s effect : State} {rs : List SReg} {lengths : Prop} {a b c : SReg}

/-- Steps 2, 4 and 5 of rule R223, for every context command but CTXINIT. -/
theorem ContextCommand.contextErrors (hi : ContextCommand i s rs lengths)
    (hexec : exec i s = s.command (s.publicCheck i) effect) : ContextErrors i s rs lengths :=
  contextErrors_of_command hexec hi.fields hi.context hi.modulus hi.lengths

theorem ContextCommand.publicCheck_eq_none (hi : ContextCommand i s rs lengths) (hready : s.ctx.state = .ready)
    (h : s.accepts rs lengths) : s.publicCheck i = none :=
  publicCheck_of_accepts hi.fields (fun _ => hready) hi.modulus hi.lengths h

/-- Past its checks and within its contract, a context command with one slice output leaves the value of its rule there and
the scratch unspecified. -/
theorem ContextCommand.exec_output {p : Bool} {base len : Nat} {v : List Word} (hi : ContextCommand i s rs lengths)
    (hexec : exec i s = s.command (s.publicCheck i) (s.outLM (s.inContract p) base len v).spoilScratch)
    (hready : s.ctx.state = .ready) (h : s.accepts rs lengths) (hs : s.undisturbed) (hp : p = true) :
    exec i s = .next (s.writeLM base v).spoilScratch.succeed := by
  rw [hexec, hi.publicCheck_eq_none hready h, (inContract_eq_true_iff s p).2 ⟨hp, hs⟩]
  rfl

/-- Settles O25: the first check of a context command finds the context UNINIT, and `raise` changes nothing else. -/
theorem contextCommandsNeedAContext : Obligations.ContextCommandsNeedAContext := by
  intro i s huninit hi
  have hneeds : needsContext i = true := by cases i <;> simp_all [needsContext]
  have hcheck : s.publicCheck i = some .noctx := by rw [State.publicCheck, hneeds, huninit]; rfl
  obtain ⟨effect, hexec, -⟩ := execEffect i (fun a ha => by simp [ha, needsContext] at hneeds) (keptByOutputs_true i s)
  rw [hexec, hcheck]
  rfl

/-! ## Residues of a READY context -/

theorem modVal_pos (h : s.contextReady) : 0 < s.modVal := by
  have hodd := (modVal_of_contextReady h).1
  omega

/-- A residue below the modulus fits the modulus's length. -/
theorem val_limbs_of_lt_modVal {v : Nat} (h : s.contextReady) (hv : v < s.modVal) : val (limbs s.ctx.k v) = v :=
  val_limbs_of_lt (hv.trans (modVal_of_contextReady h).2.2)

theorem val_limbs_mod_modVal (v : Nat) (h : s.contextReady) : val (limbs s.ctx.k (v % s.modVal)) = v % s.modVal :=
  val_limbs_mod_val v (length_modulus s) (modVal_pos h)

/-! ## MTRANS (R176) -/

theorem exec_mtrans (hready : s.ctx.state = .ready)
    (h : s.accepts [a, b] ((s.slice a).len = s.ctx.k ∧ (s.slice b).len = s.ctx.k)) (hs : s.undisturbed)
    (hu : s.unmixed a b) (hv : s.operandVal b < s.modVal) :
    exec (.mtrans a b) s = .next (s.writeLM (s.slice a).base
      (limbs s.ctx.k (toMont s.ctx.k s.modVal (s.operandVal b)))).spoilScratch.succeed :=
  (contextCommand_mtrans s a b).exec_output rfl hready h hs (by simp [hu, hv])

/-- Settles O44: a residue fits the modulus's length. -/
theorem mtransMapsIntoMontgomeryForm : Obligations.MtransMapsIntoMontgomeryForm := by
  intro a b s
  refine ⟨(contextCommand_mtrans s a b).contextErrors rfl, fun hctx h hs hu hv =>
    ⟨_, length_limbs _ _, ?_, exec_mtrans hctx.1 h hs hu hv⟩⟩
  exact val_limbs_mod_modVal _ hctx

/-! ## MREDC (R180, R183) -/

/-- A write above a slice leaves the limb array of the slice alone (R64). -/
theorem Memory.readLimbs_writeLimbs_above (m : Memory) {base n high : Nat} (vs : List Word) (h : base + n ≤ high) :
    (m.writeLimbs high vs).readLimbs base n = m.readLimbs base n :=
  Memory.readLimbs_congr fun _ _ _ => Memory.read_writeLimbs_outside m vs (by omega)

/-- MREDC within its contract: the residue in the low half of the slice, free words in the high half. -/
theorem exec_mredc (hready : s.ctx.state = .ready) (h : s.accepts [a] ((s.slice a).len = 2 * s.ctx.k))
    (hs : s.undisturbed) (ht : s.operandVal a < s.modVal * 2 ^ (32 * s.ctx.k)) :
    exec (.mredc a) s = .next (((s.writeLM (s.slice a).base (limbs s.ctx.k (redc s.ctx.k s.modVal (s.operandVal a)))).outLM
      false ((s.slice a).base + s.ctx.k) s.ctx.k []).spoilScratch.succeed) := by
  have hok : s.inContract (decide (s.operandVal a < s.modVal * bigR s.ctx.k)) = true :=
    (inContract_eq_true_iff _ _).2 ⟨decide_eq_true ht, hs⟩
  rw [exec, execMredc, (contextCommand_mredc s a).publicCheck_eq_none hready h, hok]
  rfl

/-- MREDC within its contract succeeds, and the low half of its slice reads back as the residue. -/
theorem succeeds_mredc (hready : s.ctx.state = .ready) (h : s.accepts [a] ((s.slice a).len = 2 * s.ctx.k))
    (hs : s.undisturbed) (ht : s.operandVal a < s.modVal * 2 ^ (32 * s.ctx.k)) :
    ∃ t, Succeeds (.mredc a) s t ∧ t.x = s.x ∧
      t.lm.readLimbs (s.slice a).base s.ctx.k = limbs s.ctx.k (redc s.ctx.k s.modVal (s.operandVal a)) := by
  refine ⟨_, ⟨exec_mredc hready h hs ht, rfl, rfl⟩, rfl, ?_⟩
  exact (Memory.readLimbs_writeLimbs_above _ _ le_rfl).trans (Memory.readLimbs_writeLimbs_of_length (length_limbs _ _))

/-- Settles O45: the low half reads back as the residue; the rest is the frame every command keeps. -/
theorem mredcLandsTheReducedValue : Obligations.MredcLandsTheReducedValue := by
  intro a s
  refine ⟨(contextCommand_mredc s a).contextErrors (show execMredc a s = _ from rfl), fun hctx h hs ht => ?_⟩
  obtain ⟨t, hsucc, hx, hlow⟩ := succeeds_mredc hctx.1 h hs ht
  obtain ⟨hlt, hmod⟩ := redc_spec s.ctx.k s.modVal (s.operandVal a) (modVal_of_contextReady hctx).1
  have hval := (congrArg val hlow).trans (val_limbs_of_lt_modVal hctx hlt)
  refine ⟨t, hsucc, ?_, ?_, hx, (exec_registerFrame hsucc.1).sd,
    (exec_contextFrame (by simp) hsucc.1).constants, fun w hw => ?_⟩
  · rwa [hval]
  · rwa [hval]
  · exact commandsWriteOnlyTheirWrittenSlices _ s t hsucc.1 w (by simpa [writtenFields] using hw)

/-! ## MULRED and SQRRED (R184, R188) -/

theorem exec_mulred (hready : s.ctx.state = .ready)
    (h : s.accepts [a, b, c] ((s.slice a).len = s.ctx.k ∧ (s.slice b).len = s.ctx.k ∧ (s.slice c).len = s.ctx.k))
    (hs : s.undisturbed) (hab : s.unmixed a b) (hac : s.unmixed a c) (hbc : s.unmixed b c)
    (hb : s.operandVal b < s.modVal) (hc : s.operandVal c < s.modVal) :
    exec (.mulred a b c) s = .next (s.writeLM (s.slice a).base
      (limbs s.ctx.k (montMul s.ctx.k s.modVal (s.operandVal b) (s.operandVal c)))).spoilScratch.succeed :=
  (contextCommand_mulred s a b c).exec_output rfl hready h hs (by simp [hab, hac, hbc, hb, hc])

/-- The Montgomery product fits the modulus's length and is the residue `r` with `r * R = u * v` modulo `M` (R184). -/
theorem val_limbs_montMul (h : s.contextReady) (u v : Nat) :
    val (limbs s.ctx.k (montMul s.ctx.k s.modVal u v)) < s.modVal ∧
      val (limbs s.ctx.k (montMul s.ctx.k s.modVal u v)) * 2 ^ (32 * s.ctx.k) ≡ u * v [MOD s.modVal] := by
  have hspec := redc_spec s.ctx.k s.modVal (u * v) (modVal_of_contextReady h).1
  rw [montMul_eq_redc, val_limbs_of_lt_modVal h hspec.1]
  exact hspec

/-- Settles O46: the product is reduced as MREDC reduces. -/
theorem mulredMultipliesInMontgomeryForm : Obligations.MulredMultipliesInMontgomeryForm := by
  intro a b c s
  refine ⟨(contextCommand_mulred s a b c).contextErrors rfl, fun hctx h hs hab hac hbc hb hc => ?_⟩
  obtain ⟨hlt, hmod⟩ := val_limbs_montMul hctx (s.operandVal b) (s.operandVal c)
  exact ⟨_, length_limbs _ _, hlt, hmod, exec_mulred hctx.1 h hs hab hac hbc hb hc⟩

/-- Naming the second slice twice changes none of the checks (R188, R223). -/
theorem publicCheck_sqrred (s : State) (a b : SReg) : s.publicCheck (.sqrred a b) = s.publicCheck (.mulred a b b) := by
  simp [State.publicCheck, needsContext, emptyModulus, sliceFields, lengthsAgree]

theorem exec_sqrred_eq (s : State) (a b : SReg) : exec (.sqrred a b) s = exec (.mulred a b b) s :=
  congrArg (fun found => s.command found (s.mulReduce (s.slice a) (s.slice b) (s.slice b))) (publicCheck_sqrred s a b)

theorem State.unmixed_self (s : State) (r : SReg) : s.unmixed r r := by simp [State.unmixed, Slice.unmixed, Slice.identical]

/-- Settles O47: SQRRED is MULRED of one slice named twice, of which O46 gives the value. -/
theorem sqrredIsMulredOfTheValueWithItself : Obligations.SqrredIsMulredOfTheValueWithItself := by
  intro a b s
  refine ⟨exec_sqrred_eq s a b, (contextCommand_sqrred s a b).contextErrors rfl, fun hctx h hs hab hb => ?_⟩
  obtain ⟨hslices, hla, hlb⟩ := h
  have hmul : s.accepts [a, b, b] ((s.slice a).len = s.ctx.k ∧ (s.slice b).len = s.ctx.k ∧ (s.slice b).len = s.ctx.k) :=
    ⟨by simpa using hslices, hla, hlb, hlb⟩
  rw [exec_sqrred_eq]
  exact (mulredMultipliesInMontgomeryForm a b b s).2 hctx hmul hs hab hab (s.unmixed_self b) hb hb

/-! ## MIDENT (R192, R193) -/

theorem exec_mident (hready : s.ctx.state = .ready) (h : s.accepts [a] ((s.slice a).len = s.ctx.k))
    (hs : s.undisturbed) :
    exec (.mident a) s = .next (s.writeLM (s.slice a).base
      (limbs s.ctx.k (montIdentity s.ctx.k s.modVal))).spoilScratch.succeed :=
  (contextCommand_mident s a).exec_output rfl hready h hs rfl

/-- Settles O48: the modulus is below `R` and more than half of it, so `R - M` is `R mod M` and not 0. -/
theorem midentIsTheMontgomeryOne : Obligations.MidentIsTheMontgomeryOne := by
  intro a s
  refine ⟨(contextCommand_mident s a).contextErrors rfl, fun hctx h hs => ?_⟩
  obtain ⟨-, -, hlt⟩ := modVal_of_contextReady hctx
  have hmod := montIdentity_eq_mod hctx
  have hres : montIdentity s.ctx.k s.modVal < s.modVal := hmod ▸ Nat.mod_lt _ (modVal_pos hctx)
  have hval := val_limbs_of_lt_modVal hctx hres
  have hsum : montIdentity s.ctx.k s.modVal + s.modVal = 2 ^ (32 * s.ctx.k) := Nat.sub_add_cancel hlt.le
  refine ⟨_, length_limbs _ _, ?_, ?_, ?_, ?_, exec_mident hctx.1 h hs⟩
  · rw [hval, hsum]
  · rw [hval, hmod, bigR]
  · omega
  · rw [hval]
    exact hres

/-! ## MPOWERS (R195, R196) -/

/-- The table MPOWERS writes: the limbs of its rows, laid end to end. -/
def powersTable (k m v rows : Nat) : List Word := ((montPowers k m v rows).map (limbs k)).flatten

theorem length_powersTable (k m v rows : Nat) : (powersTable k m v rows).length = rows * k := by
  simp [powersTable, Function.comp_def]

/-- A row of the table is the power of its number in Montgomery form. -/
theorem val_powersTable_row (h : s.contextReady) (v : Nat) {rows j : Nat} (hj : j < rows) :
    val (((powersTable s.ctx.k s.modVal v rows).drop (j * s.ctx.k)).take s.ctx.k) =
      v ^ j * 2 ^ (32 * s.ctx.k) % s.modVal := by
  have hspec := montPowers_spec (b := v) (modVal_of_contextReady h).1 (montIdentity_eq_mod h) rows
  rw [powersTable, take_drop_flatten _ _ (by simp) j (by simpa using hj)]
  simpa [hspec, bigR] using val_limbs_mod_modVal (v ^ j * bigR s.ctx.k) h

theorem exec_mpowers (hready : s.ctx.state = .ready)
    (h : s.accepts [a, b] ((s.slice b).len = s.ctx.k ∧ s.ctx.k ≤ (s.slice a).len ∧ (s.slice a).len % s.ctx.k = 0))
    (hs : s.undisturbed) (hab : s.apart a b) (hb : s.operandVal b < s.modVal) :
    exec (.mpowers a b) s = .next (s.writeLM (s.slice a).base
      (powersTable s.ctx.k s.modVal (s.operandVal b) ((s.slice a).len / s.ctx.k))).spoilScratch.succeed :=
  (contextCommand_mpowers s a b).exec_output rfl hready h hs (by simp [hab, hb])

/-- Settles O49: the table fills its slice, whose length is a multiple of the modulus's. -/
theorem mpowersFillsTheTableWithPowers : Obligations.MpowersFillsTheTableWithPowers := by
  intro a b s
  refine ⟨(contextCommand_mpowers s a b).contextErrors rfl, fun hctx h hs hab hb =>
    ⟨_, ?_, exec_mpowers hctx.1 h hs hab hb, fun j hj => val_powersTable_row hctx _ hj⟩⟩
  obtain ⟨-, -, -, hmultiple⟩ := h
  rw [length_powersTable, Nat.div_mul_cancel (Nat.dvd_of_mod_eq_zero hmultiple)]

/-! ## SELECT (R200, R201) -/

/-- Rule R200's loop over the table's rows gives the row of the index, or zeros when there is no such row. -/
theorem selectLoop_tableRows (s : State) (tb : Slice) (k : Nat) (idx : Word) :
    selectLoop idx 0 (s.tableRows tb k) (List.replicate k 0) =
      if idx.toNat < tb.len / k then s.tableRow tb.base k idx.toNat else List.replicate k 0 := by
  rw [selectLoop_spec idx 0 k _ _ (by simp) (by simp [State.tableRows, State.tableRow]) fun _ _ => rfl]
  by_cases hidx : idx.toNat < tb.len / k
  · rw [if_pos hidx, if_pos (by simpa [State.tableRows] using hidx)]
    simp [State.tableRows, hidx]
  · rw [if_neg hidx, if_neg (by simpa [State.tableRows] using hidx)]

/-- Settles O50: past the checks the loop's row is written; SELECT asks nothing of the modulus. -/
theorem selectCopiesTheIndexedRow : Obligations.SelectCopiesTheIndexedRow := by
  intro a b x s
  refine ⟨(contextCommand_select s a b x).contextErrors rfl, fun hready h hs hab => ?_⟩
  rw [(contextCommand_select s a b x).exec_output rfl hready h hs hab, selectLoop_tableRows]
  rfl

/-! ## The round trip (R205) -/

/-- Reduction brings back a residue from Montgomery form (R205). -/
theorem redc_toMont {k m v : Nat} (hm : m % 2 = 1) (hv : v < m) : redc k m (toMont k m v) = v := by
  have hback := mod_eq_redc hm (Nat.mod_modEq (v * bigR k) m).symm
  rw [toMont, ← hback, Nat.mod_eq_of_lt hv]

/-- Limbs written to the low half of a work area whose high half is zero. -/
theorem Memory.readLimbs_writeLimbs_low_half {m : Memory} {base k : Nat} {v : List Word} (hv : v.length = k)
    (hhigh : m.readLimbs (base + k) k = List.replicate k 0) :
    (m.writeLimbs base v).readLimbs base (2 * k) = v ++ List.replicate k 0 := by
  have hkeep : (m.writeLimbs base v).readLimbs (base + k) k = m.readLimbs (base + k) k :=
    Memory.readLimbs_congr fun _ _ _ => Memory.read_writeLimbs_outside m v (by omega)
  rw [Nat.two_mul, Memory.readLimbs_add, Memory.readLimbs_writeLimbs_of_length hv, hkeep, hhigh]

/-- MREDC of a work area into whose low half a command has just written a residue, the high half zero. -/
theorem succeeds_mredc_of_low_half {v : List Word} (hctx : s.contextReady) (hc : s.legalSlice c)
    (hlen : (s.slice c).len = 2 * s.ctx.k)
    (hhigh : s.lm.readLimbs ((s.slice c).base + s.ctx.k) s.ctx.k = List.replicate s.ctx.k 0)
    (hv : v.length = s.ctx.k) (hlt : val v < s.modVal) :
    ∃ u, Succeeds (.mredc c) (s.writeLM (s.slice c).base v).spoilScratch.succeed u ∧
      u.lm.readLimbs (s.slice c).base s.ctx.k = limbs s.ctx.k (redc s.ctx.k s.modVal (val v)) := by
  have harea : (s.writeLM (s.slice c).base v).spoilScratch.succeed.operandVal c = val v := by
    change val ((s.lm.writeLimbs (s.slice c).base v).readLimbs (s.slice c).base (s.slice c).len) = val v
    rw [hlen, Memory.readLimbs_writeLimbs_low_half hv hhigh, val_append]
    simp
  have hfits : val v < s.modVal * 2 ^ (32 * s.ctx.k) := hlt.trans_le (Nat.le_mul_of_pos_right _ (Nat.two_pow_pos _))
  obtain ⟨u, hu, -, hlow⟩ := succeeds_mredc (a := c) (s := (s.writeLM (s.slice c).base v).spoilScratch.succeed) hctx.1
    ⟨List.forall_mem_singleton.2 hc, hlen⟩ rfl (harea.trans_lt hfits)
  rw [harea] at hlow
  exact ⟨u, hu, hlow⟩

/-- Settles O51: MTRANS leaves the Montgomery form in the low half of the work area, whose high half is zero, so MREDC finds
that form in the whole area, and reduction brings back the value. -/
theorem montgomeryRoundTrip : Obligations.MontgomeryRoundTrip := by
  intro a b c s hctx hs h hbase hab hb hhigh
  obtain ⟨hslices, hla, hlb, hlc⟩ := h
  have hform : toMont s.ctx.k s.modVal (s.operandVal b) < s.modVal := Nat.mod_lt _ (modVal_pos hctx)
  have hval := val_limbs_of_lt_modVal hctx hform
  have hmtrans := exec_mtrans hctx.1 ⟨fun r hr => hslices r (List.subset_append_left [a, b] [c] hr), hla, hlb⟩ hs hab hb
  rw [← hbase] at hmtrans hhigh ⊢
  obtain ⟨u, hmredc, hlow⟩ := succeeds_mredc_of_low_half hctx (hslices c (by simp)) hlc hhigh (length_limbs _ _)
    (hval.trans_lt hform)
  refine ⟨_, u, ⟨hmtrans, rfl, rfl⟩, hmredc, ?_⟩
  have hback : limbs s.ctx.k (s.operandVal b) = s.operand b := by
    rw [← hlb, ← length_limbsAt s (s.slice b)]
    exact limbs_val _
  rw [hlow, hval, redc_toMont (modVal_of_contextReady hctx).1 hb, hback]

/-! ## POWMOD (R212) -/

/-- POWMOD within its contract: the power, reduced, in the result slice, scratch and table unspecified. -/
theorem exec_powmod (hready : s.ctx.state = .ready)
    (h : s.accepts [a, b, c] ((s.slice a).len = s.ctx.k ∧ (s.slice b).len = s.ctx.k)) (hs : s.undisturbed)
    (hab : s.unmixed a b) (hac : s.unmixed a c) (hbc : s.unmixed b c) (hb : s.operandVal b < s.modVal) :
    exec (.powmod a b c) s = .next (s.writeLM (s.slice a).base (limbs s.ctx.k
      (modPow (s.operandVal b) s.modVal (32 * (s.slice c).len) (s.operandVal c)))).spoilScratch.spoilTable.succeed := by
  have hok : s.inContract (decide (s.operandVal b < s.modVal) && (s.slice a).unmixed (s.slice b) &&
      (s.slice a).unmixed (s.slice c) && (s.slice b).unmixed (s.slice c)) = true :=
    (inContract_eq_true_iff _ _).2 ⟨by simp [hab, hac, hbc, hb], hs⟩
  rw [exec, execPowmod, (contextCommand_powmod s a b c).publicCheck_eq_none hready h, hok]
  rfl

/-- Settles O52: `32 * n` bits are all the bits of an exponent of `n` limbs. -/
theorem powmodIsModularExponentiation : Obligations.PowmodIsModularExponentiation := by
  intro a b c s
  refine ⟨(contextCommand_powmod s a b c).contextErrors rfl, fun hctx h hs hab hac hbc hb =>
    ⟨_, length_limbs _ _, ?_, exec_powmod hctx.1 h hs hab hac hbc hb⟩⟩
  have hexponent : s.operandVal c < 2 ^ (32 * (s.slice c).len) := length_limbsAt s (s.slice c) ▸ val_lt _
  rw [modPow_eq _ _ _ _ hexponent]
  exact val_limbs_mod_modVal _ hctx

end Sys2Proof.Machine

/-! PROOFS. The fixed-window method of rule R213: its accumulator is, in Montgomery form, the power of the base to the
windows of the exponent read so far. -/

namespace Sys2Proof.Machine

variable {k m : Nat}

/-! ## Products in Montgomery form (R180, R184) -/

/-- The Montgomery product of two Montgomery forms is the Montgomery form of the product. -/
theorem montMul_toMont_toMont (hm : m % 2 = 1) (u v : Nat) :
    montMul k m (toMont k m u) (toMont k m v) = toMont k m (u * v) := by
  refine (mod_eq_redc hm ?_).symm
  calc u * v * bigR k * bigR k = u * bigR k * (v * bigR k) := by ring
    _ ≡ toMont k m u * toMont k m v [MOD m] := (Nat.mod_modEq _ _).symm.mul (Nat.mod_modEq _ _).symm

/-- Reduction brings any number back from Montgomery form, as its residue. -/
theorem redc_toMont_eq_mod (hm : m % 2 = 1) (v : Nat) : redc k m (toMont k m v) = v % m :=
  (mod_eq_redc hm (Nat.mod_modEq _ _).symm).symm

/-- `R - M` is `R mod M` for every legal modulus, in a context or not (R193). -/
theorem montIdentity_eq_mod_of_validMod {mm : List Word} (h : validMod mm = true) :
    montIdentity mm.length (val mm) = bigR mm.length % val mm := by
  have hodd := odd_of_validMod h
  have hlt := val_lt mm
  simp only [validMod, Bool.and_eq_true, decide_eq_true_eq] at h
  obtain ⟨⟨hlen, -⟩, hnorm⟩ := h
  have hhalf := normalized_val hnorm
  have heven : 2 ^ (32 * mm.length) = 4 * 2 ^ (32 * mm.length - 2) := by
    rw [← pow_sub_mul_pow 2 (by omega : 2 ≤ 32 * mm.length), Nat.mul_comm]
    rfl
  rw [montIdentity, bigR, Nat.mod_eq_sub_mod hlt.le, Nat.mod_eq_of_lt (by omega)]

/-! ## The table (R196, R200) -/

/-- Row `w` of the internal table, as SELECT's loop picks it, is the `w`-th power in Montgomery form. -/
theorem pickRow_montPowers (hm : m % 2 = 1) (hid : montIdentity k m = bigR k % m) (hlt : m < 2 ^ (32 * k))
    (b : Nat) {rows w : Nat} (hrows : rows ≤ 2 ^ 32) (hw : w < rows) :
    pickRow k ((montPowers k m b rows).map (limbs k)) w = toMont k m (b ^ w) := by
  have hindex : (BitVec.ofNat 32 w).toNat = w := Nat.mod_eq_of_lt (hw.trans_le hrows)
  have hfits : toMont k m (b ^ w) < 2 ^ (32 * k) := (Nat.mod_lt _ (by omega)).trans hlt
  rw [pickRow, selectLoop_spec _ 0 k _ _ (by simp) (by simp) fun _ _ => rfl, hindex, if_pos (by simpa using hw),
    montPowers_spec hm hid]
  simpa [hw, toMont] using val_limbs_of_lt hfits

/-! ## The windows (R214) -/

/-- The exponent down to window `j` is the exponent above it, moved up by one window, and window `j`. -/
theorem div_two_pow_window (e j : Nat) :
    e / 2 ^ (Config.win * j) =
      e / 2 ^ (Config.win * (j + 1)) * 2 ^ Config.win + e / 2 ^ (Config.win * j) % 2 ^ Config.win := by
  rw [Nat.mul_succ, Nat.pow_add, ← Nat.div_div_eq_div_mul]
  exact (Nat.div_add_mod' _ _).symm

/-- Four squarings raise to the power `2^WIN`. -/
theorem montMul_squarings (hm : m % 2 = 1) (v : Nat) :
    let sq := fun v => montMul k m v v
    sq (sq (sq (sq (toMont k m v)))) = toMont k m (v ^ 2 ^ Config.win) := by
  simp only [montMul_toMont_toMont hm, Config.win]
  congr 1
  ring

/-- The loop over the windows `j-1` downto 0 takes the power to the exponent above them to the power to the whole
exponent. -/
theorem windowLoop_eq_toMont_pow (hm : m % 2 = 1) {b : Nat} {table : List (List Word)}
    (htable : ∀ w < 2 ^ Config.win, pickRow k table w = toMont k m (b ^ w)) (e j : Nat) :
    windowLoop k m table e j (toMont k m (b ^ (e / 2 ^ (Config.win * j)))) = toMont k m (b ^ e) := by
  induction j with
  | zero => simp [windowLoop]
  | succ j ih =>
    rw [windowLoop, montMul_squarings hm, htable _ (Nat.mod_lt _ (Nat.two_pow_pos _)), montMul_toMont_toMont hm,
      ← pow_mul, ← pow_add, ← div_two_pow_window]
    exact ih

/-- The top window of an exponent of `n` limbs is all of the exponent above the other windows. -/
theorem top_window_eq {n e : Nat} (hn : 1 ≤ n) (he : e < 2 ^ (32 * n)) :
    e / 2 ^ (Config.win * (32 * n / Config.win - 1)) % 2 ^ Config.win =
      e / 2 ^ (Config.win * (32 * n / Config.win - 1)) := by
  refine Nat.mod_eq_of_lt (Nat.div_lt_of_lt_mul ?_)
  have hwidth : Config.win * (32 * n / Config.win - 1) + Config.win = 32 * n := by
    rw [Config.win]
    omega
  rwa [← Nat.pow_add, hwidth]

/-- Settles O56: the loop starts from the power to the top window and ends with the power to the whole exponent, which the
final reduction takes out of Montgomery form. -/
theorem fixedWindowMethodIsModularPower : Obligations.FixedWindowMethodIsModularPower := by
  intro m ex base hm hlen _
  have hodd := odd_of_validMod hm
  have htable : ∀ w < 2 ^ Config.win, pickRow m.length
      ((montPowers m.length (val m) base (2 ^ Config.win)).map (limbs m.length)) w = toMont m.length (val m) (base ^ w) :=
    fun _ => pickRow_montPowers hodd (montIdentity_eq_mod_of_validMod hm) (val_lt m) base (by decide)
  rw [windowReference, htable _ (Nat.mod_lt _ (Nat.two_pow_pos _)), top_window_eq hlen (val_lt ex),
    windowLoop_eq_toMont_pow hodd htable, redc_toMont_eq_mod hodd]

end Sys2Proof.Machine

/-! PROOFS. The error a command ends with (R222, R223, R229): it is the one its checks find, and the checks read public
values only. -/

namespace Sys2Proof.Machine

variable {i : Instr} {s t : State} {e : ErrCode}

/-! ## The error a command finds -/

/-- The error the checks of rule R223 find first: the public ones, and behind them CTXINIT's test of the modulus. -/
def State.foundError (s : State) : Instr → Option ErrCode
  | .ctxinit a => (s.publicCheck (.ctxinit a)).or (modulusCheck (s.modulusRead (s.slice a)))
  | i => s.publicCheck i

theorem foundError_eq_publicCheck (s : State) (hi : ∀ a, i ≠ .ctxinit a) : s.foundError i = s.publicCheck i := by
  cases i with
  | ctxinit a => exact absurd rfl (hi a)
  | _ => rfl

/-- `exec` is one transition, which raises the error found or none. -/
theorem exec_eq_command_foundError (i : Instr) (s : State) : ∃ effect, exec i s = s.command (s.foundError i) effect := by
  by_cases hi : ∃ a, i = .ctxinit a
  · obtain ⟨a, rfl⟩ := hi
    exact ⟨_, exec_ctxinit a s⟩
  · have hne : ∀ a, i ≠ .ctxinit a := fun a ha => hi ⟨a, ha⟩
    obtain ⟨effect, hexec, -⟩ := execEffect i hne (keptByOutputs_true i s)
    exact ⟨effect, by rw [hexec, foundError_eq_publicCheck s hne]⟩

/-- A command ends with the error its checks find, and with `ERR_NONE` when they find none. -/
theorem err_eq_foundError (h : exec i s = .next t) : t.err = (s.foundError i).getD .none := by
  obtain ⟨effect, hexec⟩ := exec_eq_command_foundError i s
  rw [hexec, command_eq_next_iff] at h
  obtain ⟨e, hfound, rfl⟩ | ⟨hfound, rfl⟩ := h <;> simp [hfound]

theorem foundError_eq_some_err (h : exec i s = .next t) (herr : t.err ≠ .none) : s.foundError i = some t.err := by
  have he := err_eq_foundError h
  cases hfound : s.foundError i with
  | none => exact absurd (by simpa [hfound] using he) herr
  | some e => simpa [hfound] using he.symm

/-! ## Which error a check finds (R223) -/

/-- Steps 2 to 5 of rule R223: the first two are for the context commands and for CTXINIT alone. -/
theorem publicCheck_eq_some (h : s.publicCheck i = some e) :
    (needsContext i = true ∧ e = .noctx) ∨ (emptyModulus s i = true ∧ e = .modEmpty) ∨ e = .len ∨ e = .range := by
  unfold State.publicCheck at h
  split_ifs at h with hctx hempty <;> cases h
  · exact .inl ⟨(Bool.and_eq_true_iff.1 hctx).1, rfl⟩
  · exact .inr (.inl ⟨hempty, rfl⟩)
  · exact .inr (.inr (.inl rfl))
  · exact .inr (.inr (.inr rfl))

/-- A command that has nothing to do with the context can fail for its slices only. -/
theorem len_or_range_of_publicCheck (hneeds : needsContext i = false) (hempty : emptyModulus s i = false)
    (h : s.publicCheck i = some e) : e = .len ∨ e = .range := by
  simpa [hneeds, hempty] using publicCheck_eq_some h

/-- A context command but CTXINIT can fail for want of a context or for its slices. -/
theorem noctx_or_len_or_range_of_publicCheck (hempty : emptyModulus s i = false) (h : s.publicCheck i = some e) :
    e = .noctx ∨ e = .len ∨ e = .range := by
  obtain ⟨-, rfl⟩ | ⟨hmod, -⟩ | hslices := publicCheck_eq_some h
  · exact .inl rfl
  · simp [hempty] at hmod
  · exact .inr hslices

/-- INV has no slice and needs no context, so no check can stop it (R229). -/
theorem publicCheck_inv (s : State) (a b : XReg) : s.publicCheck (.inv a b) = none :=
  (publicCheck_eq_none_iff _ _).2 (by simp [needsContext, emptyModulus, sliceFields, lengthsAgree])

/-- Steps 6 and 7 of rule R223. -/
theorem modulusCheck_eq_some {mm : List Word} (h : modulusCheck mm = some e) : e = .modEven ∨ e = .modUnnorm := by
  unfold modulusCheck at h
  split_ifs at h <;> cases h
  · exact .inl rfl
  · exact .inr rfl

/-- CTXINIT needs no context, so ERR_NOCTX is not among its errors (R229). -/
theorem foundError_ctxinit_eq_some {a : SReg} (h : s.foundError (.ctxinit a) = some e) :
    e = .modEmpty ∨ e = .len ∨ e = .range ∨ e = .modEven ∨ e = .modUnnorm := by
  obtain hpublic | ⟨-, hmod⟩ := Option.or_eq_some_iff.1 h
  · obtain ⟨hneeds, -⟩ | ⟨-, rfl⟩ | rfl | rfl := publicCheck_eq_some hpublic
    · cases hneeds
    · simp
    · simp
    · simp
  · obtain rfl | rfl := modulusCheck_eq_some hmod <;> simp

/-- Settles O24: the error is the one found, and each row of rule R229 lists the checks that apply to its commands. -/
theorem errorsByCommand : Obligations.ErrorsByCommand := by
  intro i s t h herr
  have hfound := foundError_eq_some_err h herr
  cases i with
  | inv a b => cases (publicCheck_inv s a b).symm.trans hfound
  | div a b c d e f => cases (publicCheck_div s a b c d e f).symm.trans hfound
  | ctxinit => exact foundError_ctxinit_eq_some hfound
  | mtrans | mredc | mulred | sqrred | mident | mpowers | select | powmod =>
    exact noctx_or_len_or_range_of_publicCheck rfl hfound
  | cmp | add | sub | maskadd | masksub | mul | muladd | mulsub | reduce =>
    exact len_or_range_of_publicCheck rfl rfl hfound

/-! ## What the checks read (R222, R278) -/

/-- The public values of two states agree: the descriptors, `CTX.STATE`, `CTX.K` and the parameters (R278). -/
structure State.SamePublic (s s' : State) : Prop where
  sd : s.sd = s'.sd
  state : s.ctx.state = s'.ctx.state
  k : s.ctx.k = s'.ctx.k
  params : s.params = s'.params

variable {s' t' : State}

theorem State.slice_congr (h : s.sd = s'.sd) : s.slice = s'.slice :=
  funext fun r => congrArg sliceOfWord (State.getSD_congr h r)

theorem emptyModulus_congr (h : s.SamePublic s') (i : Instr) : emptyModulus s i = emptyModulus s' i := by
  cases i with
  | ctxinit a => simp only [emptyModulus, State.slice_congr h.sd]
  | _ => rfl

theorem lengthsAgree_congr (h : s.SamePublic s') (i : Instr) : lengthsAgree s i = lengthsAgree s' i := by
  cases i <;> simp only [lengthsAgree, State.slice_congr h.sd, h.k, h.params]

theorem State.inLM_congr (h : s.params = s'.params) (S : Slice) : s.inLM S = s'.inLM S := by
  simp only [State.inLM, h]

theorem publicCheck_congr (h : s.SamePublic s') (i : Instr) : s.publicCheck i = s'.publicCheck i := by
  simp only [State.publicCheck, h.state, emptyModulus_congr h, lengthsAgree_congr h, State.slice_congr h.sd,
    State.inLM_congr h.params]

theorem modulusCheck_congr {mm mm' : List Word} (hodd : isOdd mm = isOdd mm') (hnorm : normalized mm = normalized mm') :
    modulusCheck mm = modulusCheck mm' := by
  rw [modulusCheck, hodd, hnorm, modulusCheck]

theorem foundError_congr (h : s.SamePublic s')
    (hmod : ∀ a, i = .ctxinit a → isOdd (s.modulusRead (s.slice a)) = isOdd (s'.modulusRead (s'.slice a)) ∧
      normalized (s.modulusRead (s.slice a)) = normalized (s'.modulusRead (s'.slice a))) :
    s.foundError i = s'.foundError i := by
  cases i with
  | ctxinit a =>
    obtain ⟨hodd, hnorm⟩ := hmod a rfl
    exact congrArg₂ Option.or (publicCheck_congr h _) (modulusCheck_congr hodd hnorm)
  | _ => exact publicCheck_congr h _

/-- Settles O28: both runs end with the error their checks find, and the checks find the same one. -/
theorem errorsDependOnPublicValuesOnly : Obligations.ErrorsDependOnPublicValuesOnly := by
  intro i s s' t t' hsd hstate hk hparams hmod h h'
  rw [err_eq_foundError h, err_eq_foundError h', foundError_congr ⟨hsd, hstate, hk, hparams⟩ hmod]

end Sys2Proof.Machine

/-! PROOFS. The host's writes while BUSY (R266, R267): a write to CMD is dropped, a write to `X` or to LM leaves an
unspecified word where it was aimed and disturbs the command in flight, and nothing else changes. -/

namespace Sys2Proof.Machine

variable {s : State} {rest : List HostOp}

/-! ## A write to CMD -/

theorem State.windowWriteBusy_cmd (s : State) (w : Word) : s.windowWriteBusy 0 w = s := by
  rw [State.windowWriteBusy, if_neg (by decide), if_neg (by decide)]

/-- Settles O14: the window drops the word. -/
theorem cmdWriteWhileBusyIsDropped : Obligations.CmdWriteWhileBusyIsDropped := by
  intro s w rest hb hin
  exact (step_host_busy hb hin (by simp)).trans (congrArg _ (State.windowWriteBusy_cmd _ w))

/-! ## A write to `X` or to LM -/

theorem State.windowWriteBusy_x (s : State) {off : Fin 32} {r : XReg} (h : off.val = 0x08 + r.val) (v : Word) :
    s.windowWriteBusy off v = (s.setX r s.freeX).disturb := by
  have := r.isLt
  rw [State.windowWriteBusy, if_pos (by omega), fileIndex_eq h]

theorem step_busy_xWrite {off : Fin 32} {r : XReg} {v : Word} (hb : s.busy = true) (hoff : off.val = 0x08 + r.val)
    (h : s.input = .regWrite off v :: rest) :
    step s = .next (({ s with input := rest } : State).setX r s.freeX).disturb :=
  (step_host_busy hb h (by simp)).trans (congrArg _ (State.windowWriteBusy_x _ hoff v))

theorem step_busy_lmWrite {a : Nat} {v : Word} (hb : s.busy = true) (ha : a < s.params.lmWords)
    (h : s.input = .lmWrite a v :: rest) :
    step s = .next ({ s with input := rest, lm := s.lm.write a s.freeX } : State).disturb :=
  (step_host_busy hb h (by simp)).trans (if_pos ha)

/-- Settles O17: the step is one write of `s.freeX` and `disturb`, which changes no register and no word; the rest is the
write law of the register file and of memory. -/
theorem writesWhileBusyTouchOnlyTheirWord : Obligations.WritesWhileBusyTouchOnlyTheirWord := by
  intro s v rest hb
  refine ⟨fun r off hoff hin => ⟨_, step_busy_xWrite hb hoff hin, rfl, rfl, rfl, rfl, hb, fun q hq => ?_⟩,
    fun a ha hin => ⟨_, step_busy_lmWrite hb ha hin, rfl, rfl, rfl, rfl, hb, fun b hne => ?_⟩⟩
  · exact (State.getX_setX { s with input := rest } r q s.freeX).trans (if_neg hq)
  · exact s.lm.read_write_ne s.freeX hne

end Sys2Proof.Machine
